-- ==== Sys2Proof/Word.lean ====
section
/-! DEFINITION. The word of a register access and the binary32 number, as types.
The arithmetic over them stands in Sys2Proof/Machine/Float.lean. -/

namespace Sys2Proof

/-- A 32-bit register, command or bus word; bit 0 is the least significant (00_scope.md R11). -/
abbrev Word := BitVec 32

/-- A value the spec types `f32`: an IEEE 754 binary32 number, held as its encoding (R12).
`F32.bits` is the spec's `bits(x)` and `F32.mk` its `f32bits(w)`. It is a type of its own so that
no integer operation can be taken for a binary32 one. -/
structure F32 where
  bits : Word
deriving DecidableEq, Repr, Inhabited

end Sys2Proof
end

