-- ==== Sys2Proof/Config.lean ====
section
/-! DEFINITION. What an implementation fixes: the configuration record `Cfg` of 00_scope.md R8 and
R9, the constants of SVE, and the one free value of the spec (which NaN an operation gives). -/

namespace Sys2Proof

/-- The oscillator kind of an instrument (R9: SAW=0, PULSE=1, NOISE=2). -/
inductive OscKind where
  | saw | pulse | noise
deriving DecidableEq, Repr, Inhabited

/-- The filter kind of an instrument (R9: NONE=0, LP=1, HP=2). -/
inductive FiltKind where
  | none | lp | hp
deriving DecidableEq, Repr, Inhabited

/-- The shared tunable that a knob drives (R9: CUTOFF=0, DUTY=1, DEPTH=2). -/
inductive TunableKind where
  | cutoff | duty | depth
deriving DecidableEq, Repr, Inhabited

/-- An instrument descriptor `INSTR[i]` (R9). -/
structure InstrDesc where
  osc        : OscKind
  vib        : Bool
  filt       : FiltKind
  attack     : F32
  decay      : F32
  sustain    : F32
  release    : F32
  cutoffInit : F32
  dutyInit   : F32
  depthInit  : F32
deriving DecidableEq, Repr, Inhabited

/-- A knob descriptor `KNOB[g]` (R9). -/
structure KnobDesc where
  instr   : Nat
  tunable : TunableKind
  lo      : F32
  hi      : F32
deriving DecidableEq, Repr, Inhabited

/-- The configuration record `Cfg` (R8), fixed for the life of the hardware. `N_INSTR` and `N_KNOB`
are the lengths of `instrs` and `knobs` (`Cfg.nInstr`, `Cfg.nKnob`). `base` is the platform's
parameter `BASE` (20_memory.md R70). Which records are legal is `Cfg.wellFormed`
(Sys2Proof/WellFormed.lean). How the model carries it: notes/assumptions/1.md. -/
structure Cfg where
  nVoices    : Nat
  phaseInc   : List F32
  dpwNorm    : List F32
  lfoInc     : F32
  lfoNorm    : F32
  kCutoff    : F32
  headroom   : F32
  volumeInit : F32
  xsA        : Nat
  xsB        : Nat
  xsC        : Nat
  noiseSeed  : BitVec 24
  instrs     : List InstrDesc
  knobs      : List KnobDesc
  base       : Nat
deriving DecidableEq, Repr

/-- `N_INSTR` (R8). -/
def Cfg.nInstr (k : Cfg) : Nat := k.instrs.length

/-- `N_KNOB` (R8). -/
def Cfg.nKnob (k : Cfg) : Nat := k.knobs.length

/-- The binary32 operation that produced a NaN. -/
inductive FloatOp where
  | add | sub | mul | div
deriving DecidableEq, Repr

/-- FREE VALUE (notes/assumptions/7.md): the sign (bit 23) and the fraction (bits 22:0) of the NaN
that an operation gives. R12: "a model may give any NaN as the result of an operation that produces
one", so nothing fixes it. -/
opaque Config.freeNaN (op : FloatOp) (x y : F32) : BitVec 24

/-- `ATTACK_TARGET` (R8, 40_envelope.md R141). A constant, not a parameter: notes/assumptions/8.md. -/
def attackTarget : F32 := ⟨0x3FCA7E36#32⟩
/-- `RELEASE_FACTOR` (R8, 40_envelope.md R150). A constant: notes/assumptions/8.md. -/
def releaseFactor : F32 := ⟨0xBF14FC6D#32⟩
/-- `KILLED_SENTINEL` = -1.0 (R8, 40_envelope.md R148). A constant: notes/assumptions/8.md. -/
def killedSentinel : F32 := ⟨0xBF800000#32⟩
/-- `FULL_SCALE` = 32767.0 (R8, 44_voice_pool_mixer.md R259). -/
def fullScale : F32 := ⟨0x46FFFE00#32⟩

end Sys2Proof
end

