-- ==== Sys2Proof/Machine/Float.lean ====
section
/-! DEFINITION. Binary32 arithmetic as 00_scope.md R12 fixes it: each operation rounds once to
nearest, ties to even; subnormals are kept; nothing is fused; no flag is visible. And the helpers
`wrap`, `sq` and `sat16` of R15.

Every finite binary32 value is a whole number of units of 2^-149, so a finite operand is taken to
that whole number exactly, the operation is done exactly, and one rounding brings the result back. -/

namespace Sys2Proof.Machine

/-- +0.0. -/
def fZero : F32 := ⟨0x00000000#32⟩
/-- 1.0. -/
def fOne : F32 := ⟨0x3F800000#32⟩
/-- -1.0. -/
def fMinusOne : F32 := ⟨0xBF800000#32⟩
/-- 2.0. -/
def fTwo : F32 := ⟨0x40000000#32⟩
/-- 4095.0, the divisor of `knob_value` (43_instrument_params.md R232). -/
def f4095 : F32 := ⟨0x457FF000#32⟩
/-- 8388608.0 = 2^23, the divisor of `noise_out` (41_oscillator.md R179). -/
def f8388608 : F32 := ⟨0x4B000000#32⟩
/-- 32767.0, the upper bound of `sat16` (R15). -/
def f32767 : F32 := ⟨0x46FFFE00#32⟩
/-- -32768.0, the lower bound of `sat16` (R15). -/
def fMinus32768 : F32 := ⟨0xC7000000#32⟩

/-- The encoding of an infinity less its sign. -/
def infMag : Nat := 0x7F800000

/-- The encoding less its sign: bits 30:0. -/
def magOf (x : F32) : Nat := x.bits.toNat % 2 ^ 31

/-- The sign bit: true for a negative number and for -0.0. -/
def negOf (x : F32) : Bool := decide (2 ^ 31 ≤ x.bits.toNat)

def isNaN (x : F32) : Bool := decide (infMag < magOf x)
def isInf (x : F32) : Bool := decide (magOf x = infMag)
def isFinite (x : F32) : Bool := decide (magOf x < infMag)
def isZero (x : F32) : Bool := decide (magOf x = 0)

/-- The number with this sign and these bits 30:0. -/
def pack (neg : Bool) (mag : Nat) : F32 :=
  ⟨BitVec.ofNat 32 (if neg then 2 ^ 31 + mag else mag)⟩

/-- The absolute value of a finite number, in units of 2^-149. -/
def scaledMag (x : F32) : Nat :=
  let m := magOf x
  if m < 2 ^ 23 then m else (2 ^ 23 + m % 2 ^ 23) * 2 ^ (m / 2 ^ 23 - 1)

/-- The value of a finite number, in units of 2^-149. -/
def scaled (x : F32) : Int :=
  if negOf x then -(scaledMag x : Int) else (scaledMag x : Int)

/-- Bits 30:0 of the binary32 number nearest to `num / den` units of 2^-149, ties to even; an
infinity where the rounded value is 2^128 or more. `sh` is how far the result's last place lies
above 2^-149: the rounded significand `m + up` carries into the exponent field by itself. -/
def roundMag (num den : Nat) : Nat :=
  let sh := Nat.log2 (num / den) - 23
  let d := den * 2 ^ sh
  let m := num / d
  let r := num % d
  let up := if d < 2 * r ∨ (2 * r = d ∧ m % 2 = 1) then 1 else 0
  min (sh * 2 ^ 23 + m + up) infMag

/-- The NaN that an operation gives: any NaN (R12), its sign and fraction the free value of
notes/assumptions/7.md. A fraction of 0 would be an infinity, so 0 stands for 1. -/
def nanResult (op : FloatOp) (x y : F32) : F32 :=
  let w := (Config.freeNaN op x y).toNat
  pack (decide (2 ^ 23 ≤ w)) (infMag + max 1 (w % 2 ^ 23))

/-- The number with the opposite sign. -/
def fNeg (x : F32) : F32 := pack (!negOf x) (magOf x)

/-- The sum of two finite numbers, rounded once. An exact sum of zero is +0.0, but for two negative
zeros (IEEE 754 under round to nearest). -/
def addFinite (x y : F32) : F32 :=
  let t := scaled x + scaled y
  if t = 0 then pack (negOf x && negOf y) 0 else pack (decide (t < 0)) (roundMag t.natAbs 1)

/-- Addition of numbers that are not NaN; `op` names the operation for the free NaN. -/
def addCore (op : FloatOp) (x y : F32) : F32 :=
  if isNaN x || isNaN y then nanResult op x y
  else if isInf x then (if isInf y && (negOf x != negOf y) then nanResult op x y else x)
  else if isInf y then y
  else addFinite x y

/-- `x + y` (R12). -/
def fAdd (x y : F32) : F32 := addCore .add x y

/-- `x - y` (R12): IEEE 754 defines it as `x + (-y)`. -/
def fSub (x y : F32) : F32 := addCore .sub x (fNeg y)

/-- `x * y` (R12). The exact product counts units of 2^-298. -/
def fMul (x y : F32) : F32 :=
  let neg := negOf x != negOf y
  if isNaN x || isNaN y then nanResult .mul x y
  else if isInf x || isInf y then
    (if isZero x || isZero y then nanResult .mul x y else pack neg infMag)
  else pack neg (roundMag (scaledMag x * scaledMag y) (2 ^ 149))

/-- `x / y` (R12). -/
def fDiv (x y : F32) : F32 :=
  let neg := negOf x != negOf y
  if isNaN x || isNaN y then nanResult .div x y
  else if isInf x then (if isInf y then nanResult .div x y else pack neg infMag)
  else if isInf y then pack neg 0
  else if isZero y then (if isZero x then nanResult .div x y else pack neg infMag)
  else pack neg (roundMag (scaledMag x * 2 ^ 149) (scaledMag y))

/-- A whole number that orders the numbers that are not NaN as their values: -0 and +0 are equal. -/
def ordKey (x : F32) : Int := if negOf x then -(magOf x : Int) else (magOf x : Int)

/-- `x < y` (R12): false with a NaN. -/
def fLt (x y : F32) : Bool := !isNaN x && !isNaN y && decide (ordKey x < ordKey y)

/-- `x <= y` (R12): false with a NaN. `x >= y` is `fLe y x` and `x > y` is `fLt y x`. -/
def fLe (x y : F32) : Bool := !isNaN x && !isNaN y && decide (ordKey x ≤ ordKey y)

/-- The binary32 number nearest to `num / den`; `f32(k)` of R12 is `fOfRat k 1`, exact for
`k < 2^24`. -/
def fOfRat (num den : Nat) : F32 := pack false (roundMag (num * 2 ^ 149) den)

/-- `f32(k)` for an integer `k >= 0` (R12). -/
def fOfNat (k : Nat) : F32 := fOfRat k 1

/-- `sq(p)` (R15). -/
def sq (p : F32) : F32 := fMul p p

/-- `wrap(p)` (R15): one correction of 2.0 at most. -/
def wrap (p : F32) : F32 :=
  if fLe fOne p then fSub p fTwo else if fLt p fMinusOne then fAdd p fTwo else p

/-- A finite number rounded toward zero to an integer. -/
def truncToInt (y : F32) : Int :=
  let t : Int := ((scaledMag y / 2 ^ 149 : Nat) : Int)
  if negOf y then -t else t

/-- `sat16(y)` as an integer (R15). -/
def sat16Int (y : F32) : Int :=
  if isNaN y then 0
  else if fLe f32767 y then 32767
  else if fLe y fMinus32768 then -32768
  else truncToInt y

/-- `sat16(y)` (R15), the signed 16-bit sample. -/
def sat16 (y : F32) : BitVec 16 := BitVec.ofInt 16 (sat16Int y)

end Sys2Proof.Machine
end

