-- ==== Sys2Proof/Machine/Operands.lean ====
section
/-! DEFINITION. Operands: the float operand `A` (30_encoding.md R107), the range checks of the
commands' operands (R106, R251, R230), the lookups into `Cfg`, and the two maps from raw operands to
engineering units: `cutoff_coef` (42_filter.md R215) and `knob_value` (43_instrument_params.md R232). -/

namespace Sys2Proof.Machine

/-- `A = f32bits(reg[ARG])` (R107). -/
def floatOperand (arg : Word) : F32 := ⟨arg⟩

/-- `NOTE` is at most 127 (R106). -/
def noteOk (note : BitVec 8) : Bool := decide (note.toNat ≤ 127)

/-- `INSTR` is below `N_INSTR` (R106). -/
def instrOk (k : Cfg) (instr : BitVec 8) : Bool := decide (instr.toNat < k.nInstr)

/-- The velocity test of `NOTE_ON`: `A >= 0.0 and A <= 1.0`; a NaN fails, -0.0 passes (R251). -/
def velocityOk (a : F32) : Bool := fLe fZero a && fLe a fOne

/-- The gain test of `SET_VOLUME`: neither NaN nor infinite (R230). -/
def gainOk (a : F32) : Bool := isFinite a

/-- `INSTR[i]`. A channel's instrument is below `N_INSTR` in every state a run reaches (R40); the
default descriptor stands for the others (notes/assumptions/9.md). -/
def instrDesc (k : Cfg) (i : BitVec 8) : InstrDesc := k.instrs.getD i.toNat default

/-- `PHASE_INC[n]` (R8). -/
def phaseIncAt (k : Cfg) (n : Nat) : F32 := k.phaseInc.getD n fZero

/-- `DPW_NORM[n]` (R8). -/
def dpwNormAt (k : Cfg) (n : Nat) : F32 := k.dpwNorm.getD n fZero

/-- `cutoff_coef(fc)` (R215): multiply, add, divide, in that order. The spec's remark that the result
lies in [0, 1) does not hold for every finite `fc` in binary32: notes/assumptions/12.md. -/
def cutoffCoef (k : Cfg) (fc : F32) : F32 :=
  let t := fMul k.kCutoff fc
  let den := fAdd t fOne
  fDiv t den

/-- `knob_value(K, RAW)` (R232): `lo + (hi - lo) * (raw / 4095.0)` in the rule's order. -/
def knobValue (kn : KnobDesc) (raw : BitVec 12) : F32 :=
  let r := fDiv (fOfNat raw.toNat) f4095
  let sp := fSub kn.hi kn.lo
  let s := fMul sp r
  fAdd kn.lo s

end Sys2Proof.Machine
end

