-- ==== Sys2Proof/Machine/CfgCheck.lean ====
section
/-! DEFINITION. The checks that make a configuration record well-formed, one per line of 00_scope.md
R8 and R10, and BASE's of 20_memory.md R70. `Cfg.wellFormed` (Sys2Proof/WellFormed.lean) is their
conjunction. -/

namespace Sys2Proof.Machine

/-- finite, 0 < v < 2. -/
def incrementOk (v : F32) : Bool := isFinite v && fLt fZero v && fLt v fTwo

/-- finite, > 0. -/
def positiveOk (v : F32) : Bool := isFinite v && fLt fZero v

/-- in [0, 1]. -/
def inUnit (v : F32) : Bool := fLe fZero v && fLe v fOne

/-- in (0, 1]. -/
def rateOk (v : F32) : Bool := fLt fZero v && fLe v fOne

/-- finite, >= 0. -/
def cutoffOk (v : F32) : Bool := isFinite v && fLe fZero v

def voicesOk (k : Cfg) : Bool := decide (1 ≤ k.nVoices ∧ k.nVoices ≤ 255)
def instrCountOk (k : Cfg) : Bool := decide (1 ≤ k.nInstr ∧ k.nInstr ≤ 255)
def knobCountOk (k : Cfg) : Bool := decide (k.nKnob ≤ 255)

/-- The table has exactly `n` entries (in a form that evaluates without nesting). -/
def lengthIs : Nat → List F32 → Bool
  | 0, [] => true
  | n + 1, _ :: as => lengthIs n as
  | _, _ => false

def phaseIncOk (k : Cfg) : Bool := lengthIs 128 k.phaseInc && k.phaseInc.all incrementOk
def dpwNormOk (k : Cfg) : Bool := lengthIs 128 k.dpwNorm && k.dpwNorm.all isFinite
def lfoOk (k : Cfg) : Bool := incrementOk k.lfoInc && isFinite k.lfoNorm
def scalarsOk (k : Cfg) : Bool :=
  positiveOk k.kCutoff && positiveOk k.headroom && isFinite k.volumeInit

/-- `XS_A, XS_B, XS_C` in 1..23 each; `NOISE_SEED` in 1..0xFFFFFF. -/
def noiseOk (k : Cfg) : Bool :=
  decide (1 ≤ k.xsA ∧ k.xsA ≤ 23 ∧ 1 ≤ k.xsB ∧ k.xsB ≤ 23 ∧ 1 ≤ k.xsC ∧ k.xsC ≤ 23)
    && decide (k.noiseSeed ≠ 0#24)

/-- R10's conditions on one instrument. -/
def instrDescOk (d : InstrDesc) : Bool :=
  rateOk d.attack && rateOk d.decay && rateOk d.release && inUnit d.sustain
    && !(d.vib && decide (d.osc = .noise)) && cutoffOk d.cutoffInit && inUnit d.dutyInit
    && isFinite d.depthInit

/-- R10's conditions on one knob of a hardware with `nInstr` instruments. -/
def knobDescOk (nInstr : Nat) (kn : KnobDesc) : Bool :=
  decide (kn.instr < nInstr) && isFinite kn.lo && isFinite kn.hi
    && (match kn.tunable with
        | .cutoff => fLe fZero kn.lo && fLe fZero kn.hi
        | .duty => inUnit kn.lo && inUnit kn.hi
        | .depth => true)

/-- `BASE` is a multiple of 0x100 (R70). -/
def baseOk (k : Cfg) : Bool := decide (k.base % 256 = 0)

/-- A well-formed configuration (R8, R10, R70). -/
def cfgOk (k : Cfg) : Bool :=
  voicesOk k && instrCountOk k && knobCountOk k && phaseIncOk k && dpwNormOk k && lfoOk k
    && scalarsOk k && noiseOk k && k.instrs.all instrDescOk && k.knobs.all (knobDescOk k.nInstr)
    && baseOk k

end Sys2Proof.Machine
end

