-- ==== Sys2Proof/Syntax.lean ====
section
/-! DEFINITION. The commands of SVE-1: one constructor per row of spec/opcode_table.json. -/

namespace Sys2Proof

/-- A command of SVE-1 (30_encoding.md R101). The operands are the fields of the command word, as
wide as R103 and R104 give them; the float operand of `noteOn` and `setVolume` is not in the word
but in `ARG` (R107). -/
inductive Instr where
  | init
  | noteOn (note instr : BitVec 8)
  | noteOff (note instr : BitVec 8)
  | kill
  | setVolume
  | setParam (group : BitVec 8) (raw : BitVec 12)
  | sample
deriving DecidableEq, Repr

end Sys2Proof
end

