-- ==== Sys2Proof/WellFormed.lean ====
section
/-! DEFINITION. Which instructions and which configurations are well-formed. -/

namespace Sys2Proof

/-- Every instruction is well-formed: the operand types have exactly the widths of the encoding's
fields (30_encoding.md R103, R104), so there is no value that a word cannot carry. A field value that a
command refuses (`NOTE > 127`) is a well-formed instruction whose result is `BAD_OPERAND` (R106). -/
def Instr.wellFormed : Instr → Bool
  | .init => true
  | .noteOn _ _ => true
  | .noteOff _ _ => true
  | .kill => true
  | .setVolume => true
  | .setParam _ _ => true
  | .sample => true

/-- A well-formed configuration (00_scope.md R10). A model refuses any other. -/
def Cfg.wellFormed (k : Cfg) : Bool := Machine.cfgOk k

end Sys2Proof
end

