-- ==== Sys2Proof/Decode.lean ====
section
/-! DEFINITION. The decoder of 30_encoding.md R112, total on all 2^32 words and rejecting by name, and
the encoder written from the same formats (R102 to R104). -/

namespace Sys2Proof

/-- Why a word is illegal (R109). -/
inductive Illegal where
  /-- The opcode is 0x0 or 0x8 to 0xF (R108). -/
  | unassignedOpcode
  /-- The opcode is assigned and a bit marked "must be 0" is set (R105). -/
  | reservedBits
deriving DecidableEq, Repr

/-- `w[hi:lo]` as a field of `n = hi - lo + 1` bits (R11). -/
def field (w : Word) (lo n : Nat) : BitVec n := w.extractLsb' lo n

/-- `OP = w[31:28]` (R100). -/
def opField (w : Word) : BitVec 4 := field w 28 4
/-- `NOTE = w[7:0]` (R106). -/
def noteField (w : Word) : BitVec 8 := field w 0 8
/-- `INSTR = w[15:8]` (R106). -/
def instrField (w : Word) : BitVec 8 := field w 8 8
/-- `GROUP = w[23:16]` (R106). -/
def groupField (w : Word) : BitVec 8 := field w 16 8
/-- `RAW = w[11:0]` (R106). -/
def rawField (w : Word) : BitVec 12 := field w 0 12

/-- The reserved bits of format Z are clear (R102). -/
def formatZ (w : Word) : Bool := field w 0 28 == 0#28
/-- The reserved bits of format N are clear (R103). -/
def formatN (w : Word) : Bool := field w 16 12 == 0#12
/-- The reserved bits of format P are clear (R104). -/
def formatP (w : Word) : Bool := field w 24 4 == 0#4 && field w 12 4 == 0#4

/-- `i` where the format's reserved bits are clear (R105). -/
def whenClear (clear : Bool) (i : Instr) : Except Illegal Instr :=
  if clear then .ok i else .error .reservedBits

/-- The decoder (R112). The opcode is looked at before the reserved bits (R304). -/
def decode (w : Word) : Except Illegal Instr :=
  match (opField w).toNat with
  | 1 => whenClear (formatZ w) .init
  | 2 => whenClear (formatN w) (.noteOn (noteField w) (instrField w))
  | 3 => whenClear (formatN w) (.noteOff (noteField w) (instrField w))
  | 4 => whenClear (formatZ w) .kill
  | 5 => whenClear (formatZ w) .setVolume
  | 6 => whenClear (formatP w) (.setParam (groupField w) (rawField w))
  | 7 => whenClear (formatZ w) .sample
  | _ => .error .unassignedOpcode

/-- A format Z word (R102). -/
def encodeZ (op : BitVec 4) : Word := op ++ 0#28
/-- A format N word (R103). -/
def encodeN (op : BitVec 4) (note instr : BitVec 8) : Word := op ++ 0#12 ++ instr ++ note
/-- A format P word (R104). -/
def encodeP (op : BitVec 4) (group : BitVec 8) (raw : BitVec 12) : Word :=
  op ++ 0#4 ++ group ++ 0#4 ++ raw

/-- The command word of an instruction (R101 to R104). -/
def encode : Instr → Word
  | .init => encodeZ 0x1#4
  | .noteOn note instr => encodeN 0x2#4 note instr
  | .noteOff note instr => encodeN 0x3#4 note instr
  | .kill => encodeZ 0x4#4
  | .setVolume => encodeZ 0x5#4
  | .setParam group raw => encodeP 0x6#4 group raw
  | .sample => encodeZ 0x7#4

/-- The instruction that the decoder reads from the word whose low `nbits` bits are `w`. Every row of
spec/opcode_table.json is one 32-bit word, so there is one word to lay out. -/
def decodeTableWord (nbits w : Nat) : Option Instr :=
  match decode (BitVec.ofNat 32 (w % 2 ^ nbits)) with
  | .ok i => some i
  | .error _ => none

end Sys2Proof
end

