-- ==== Sys2Proof/Machine/Flags.lean ====
section
/-! DEFINITION. The `STATUS` word: result codes (60_exceptions.md R301), its layout (10_state.md R33) and
the word a status write leaves (R302). -/

namespace Sys2Proof.Machine

/-- A result code (R301). Codes 5 to 15 are never written. -/
inductive ResultCode where
  | ok | poolExhausted | noMatch | illegal | badOperand
deriving DecidableEq, Repr

/-- The value of `STATUS.CODE` (R301). -/
def ResultCode.value : ResultCode → BitVec 4
  | .ok => 0
  | .poolExhausted => 1
  | .noMatch => 2
  | .illegal => 3
  | .badOperand => 4

/-- The word that `status_write` leaves: `zext_32({ n[7:0], code[3:0], 0b000, ok[0] })` (R302). -/
def statusWord (n : Nat) (ok : Bool) (code : ResultCode) : Word :=
  (BitVec.ofNat 8 n ++ code.value ++ 0#3 ++ BitVec.ofBool ok).zeroExtend 32

/-- `STATUS.OK`, bit 0 (R33). -/
def statusOk (w : Word) : Bool := w.getLsbD 0
/-- `STATUS.CODE`, bits 7:4 (R33). -/
def statusCode (w : Word) : BitVec 4 := w.extractLsb' 4 4
/-- `STATUS.LIVE`, bits 15:8 (R33). -/
def statusLive (w : Word) : BitVec 8 := w.extractLsb' 8 8

end Sys2Proof.Machine
end

