-- ==== Sys2Proof/Machine/Channel.lean ====
section
/-! DEFINITION. The entries of SVE's two register files: a channel (10_state.md R37) and an
instrument's shared tunables (R44), as types. -/

namespace Sys2Proof.Machine

/-- The envelope mode (R39: 0 Attack, 1 Decay, 2 Release, 3 Killed). -/
inductive Mode where
  | attack | decay | release | killed
deriving DecidableEq, Repr, Inhabited

/-- The mode's 2-bit code (R39). -/
def Mode.code : Mode → BitVec 2
  | .attack => 0
  | .decay => 1
  | .release => 2
  | .killed => 3

/-- A channel `ch[i]` (R37): every channel has every oscillator and filter field, whatever its
instrument (R38). -/
structure Channel where
  live     : Bool
  released : Bool
  note     : BitVec 7
  instr    : BitVec 8
  vel      : F32
  mode     : Mode
  val      : F32
  tgt      : F32
  phi      : F32
  p1       : F32
  p2       : F32
  lphi     : F32
  lp       : F32
  nz       : BitVec 24
  fs       : F32
deriving DecidableEq, Repr

/-- An instrument's mutable tunables `inst[i]` (R44), shared by all its voices (R45). -/
structure Tunables where
  coef  : F32
  duty  : F32
  depth : F32
deriving DecidableEq, Repr, Inhabited

end Sys2Proof.Machine
end

