-- ==== Sys2Proof/Machine/ResetValues.lean ====
section
/-! DEFINITION. The reset values of 10_state.md R52, which `INIT` gives too
(44_voice_pool_mixer.md R250). -/

namespace Sys2Proof.Machine

/-- A channel after reset or `INIT` (R52, R250): Dead, and every field zero. -/
def channelZero : Channel where
  live := false
  released := false
  note := 0
  instr := 0
  vel := fZero
  mode := .attack
  val := fZero
  tgt := fZero
  phi := fZero
  p1 := fZero
  p2 := fZero
  lphi := fZero
  lp := fZero
  nz := 0
  fs := fZero

/-- The channel file after reset or `INIT`: `N_VOICES` Dead channels (R52). -/
def initialChannels (k : Cfg) : List Channel := List.replicate k.nVoices channelZero

/-- An instrument's tunables after reset or `INIT` (R52, 42_filter.md R216). -/
def initialTunables (k : Cfg) (d : InstrDesc) : Tunables where
  coef := cutoffCoef k d.cutoffInit
  duty := d.dutyInit
  depth := d.depthInit

/-- The tunable file after reset or `INIT`: one entry per instrument (R52). -/
def initialInst (k : Cfg) : List Tunables := k.instrs.map (initialTunables k)

/-- `STATUS` after reset: `OK` = 1, `CODE` = 0, `LIVE` = 0 (R52). -/
def initialStatus : Word := 0x00000001

end Sys2Proof.Machine
end

