-- ==== Sys2Proof/Machine/TestConfig.lean ====
section
/-! DEFINITION. The spec's test configuration TC (95_test_vectors.md section 1). Only
`State.reset` uses it (notes/assumptions/2.md); no statement about a command rests on its values. -/

namespace Sys2Proof.Machine

/-- The four instruments of TC. -/
def tcInstrs : List InstrDesc :=
  let half : F32 := ⟨0x3F000000#32⟩
  let quarter : F32 := ⟨0x3E800000#32⟩
  let eighth : F32 := ⟨0x3E000000#32⟩
  let threeQuarters : F32 := ⟨0x3F400000#32⟩
  let hz1000 : F32 := ⟨0x447A0000#32⟩
  [ { osc := .saw, vib := false, filt := .none, attack := half, decay := half, sustain := half,
      release := half, cutoffInit := hz1000, dutyInit := half, depthInit := fZero },
    { osc := .pulse, vib := false, filt := .lp, attack := fOne, decay := quarter,
      sustain := threeQuarters, release := quarter, cutoffInit := hz1000, dutyInit := quarter,
      depthInit := fZero },
    { osc := .noise, vib := false, filt := .hp, attack := quarter, decay := eighth, sustain := half,
      release := half, cutoffInit := hz1000, dutyInit := half, depthInit := fZero },
    { osc := .saw, vib := true, filt := .none, attack := fOne, decay := fOne, sustain := fOne,
      release := fOne, cutoffInit := hz1000, dutyInit := half, depthInit := half } ]

/-- The three knobs of TC. -/
def tcKnobs : List KnobDesc :=
  [ { instr := 1, tunable := .cutoff, lo := ⟨0x41A00000#32⟩, hi := ⟨0x469C4000#32⟩ },
    { instr := 1, tunable := .duty, lo := fZero, hi := fOne },
    { instr := 3, tunable := .depth, lo := fZero, hi := fOne } ]

/-- TC. `PHASE_INC[n] = (n+1)/512`, `DPW_NORM[n] = fl32(256/(n+1))`. TC gives no `BASE`; 0 is the
model's choice (notes/assumptions/3.md). -/
def testCfg : Cfg where
  nVoices := 8
  phaseInc := (List.range 128).map fun n => fOfRat (n + 1) 512
  dpwNorm := (List.range 128).map fun n => fOfRat 256 (n + 1)
  lfoInc := ⟨0x3A800000#32⟩
  lfoNorm := ⟨0x44000000#32⟩
  kCutoff := ⟨0x3909421E#32⟩
  headroom := ⟨0x3E000000#32⟩
  volumeInit := fOne
  xsA := 3
  xsB := 7
  xsC := 5
  noiseSeed := 1#24
  instrs := tcInstrs
  knobs := tcKnobs
  base := 0

end Sys2Proof.Machine
end

