-- ==== Sys2Proof/Machine/State.lean ====
section
/-! DEFINITION. The state of SVE (10_state.md R30) as plain data, the reasons a step can stop, and the
state right after reset. -/

namespace Sys2Proof.Machine

/-- What reaches SVE from outside, in the order it arrives (20_memory.md R75; notes/assumptions/4.md):
a register access of the host (R78, R79) at an address, `width` bits wide, or the platform's reset
(70_reset_and_hazards.md R330; notes/assumptions/11.md). A write carries the word on the bus, which
only a 32-bit write uses (R73). -/
inductive HostEvent where
  | read (addr width : Nat)
  | write (addr width : Nat) (value : Word)
  | reset
deriving DecidableEq, Repr

/-- What the host can observe of a run (70_reset_and_hazards.md R343): the value a read returned, or the
`STATUS` and `OUT` after a command. -/
inductive Observation where
  | readValue (value : Word)
  | command (status out : Word)
deriving DecidableEq, Repr

/-- The state. `arg` to `vol` are SVE's (R30); `CMD` stores nothing (R32), and `CHAN_INFO`, `CHAN_ENV`
and `CONFIG` are views (R47 to R49). The last three fields are the model's own: the configuration
(a parameter, R8; notes/assumptions/1.md), the host's accesses not yet taken (notes/assumptions/4.md)
and what the run has shown the host (notes/assumptions/5.md). -/
structure State where
  arg     : Word
  status  : Word
  out     : Word
  chanSel : Word
  ch      : List Channel
  inst    : List Tunables
  vol     : F32
  cfg     : Cfg
  pending : List HostEvent
  obs     : List Observation
deriving DecidableEq, Repr

/-- Why a step stops with a fault. SVE itself never faults (60_exceptions.md R316). -/
inductive Fault where
  /-- Raised by a host access whose address lies outside the 256-byte window at `BASE`
  (20_memory.md R70): such an access does not reach SVE. Safe: the model stops where SVE does nothing
  (notes/assumptions/3.md). -/
  | outsideWindow
deriving DecidableEq, Repr

/-- Why the model gives a step no meaning. -/
inductive Refusal where
  /-- Raised by an arm of `exec` whose instruction has no meaning yet. Safe. No arm raises it. -/
  | notModelled (mnemonic : String)
  /-- Raised by every step of a state whose configuration is not well-formed (00_scope.md R10, I15).
  Safe: SVE is not defined for it (notes/assumptions/6.md). -/
  | badConfig
deriving DecidableEq, Repr

/-- The state right after reset of the hardware with configuration `k` (10_state.md R52, R330). -/
def State.resetOf (k : Cfg) : State where
  arg := 0
  status := initialStatus
  out := 0
  chanSel := 0
  ch := initialChannels k
  inst := initialInst k
  vol := k.volumeInit
  cfg := k
  pending := []
  obs := []

/-- The state right after reset. The configuration is OPEN in the spec (R8); here it is the spec's test
configuration TC (notes/assumptions/2.md). -/
def State.reset : State := State.resetOf testCfg

end Sys2Proof.Machine
end

