-- ==== Sys2Proof/Machine/Ops.lean ====
section
/-! DEFINITION. The named operations over the state: one write per field, the status write, the two ways
a command ends (`succeed()` and `raise CommandError(code)`, 00_scope.md R14), the two scans of the channel
file, and the views of the diagnostic registers. -/

namespace Sys2Proof.Machine

def withArg (s : State) (v : Word) : State := { s with arg := v }
def withStatus (s : State) (v : Word) : State := { s with status := v }
def withOut (s : State) (v : Word) : State := { s with out := v }
def withChanSel (s : State) (v : Word) : State := { s with chanSel := v }
def withCh (s : State) (v : List Channel) : State := { s with ch := v }
def withInst (s : State) (v : List Tunables) : State := { s with inst := v }
def withVol (s : State) (v : F32) : State := { s with vol := v }
def withPending (s : State) (v : List HostEvent) : State := { s with pending := v }
def withObs (s : State) (v : List Observation) : State := { s with obs := v }

/-- Adds what the host observes last (70_reset_and_hazards.md R343). -/
def observe (s : State) (o : Observation) : State := withObs s (s.obs ++ [o])

/-- The number of `i < N_VOICES` with `ch[i].live = 1` (R302). -/
def liveCount (s : State) : Nat := s.ch.countP (·.live)

/-- `status_write(ok, code)` (60_exceptions.md R302). -/
def statusWrite (s : State) (ok : Bool) (code : ResultCode) : State :=
  withStatus s (statusWord (liveCount s) ok code)

/-- `succeed()` (R14): the command ends with `OK` = 1 and `CODE` = 0. -/
def succeed (s : State) : Host.Outcome State Fault Refusal := .next (statusWrite s true .ok)

/-- `raise CommandError(code)` (R14), SVE's one form of exception: there is no trap, no vector and no
saved state (R300, R307), the command's changes are undone and `STATUS` is written. `s` is the state
before the command: every command checks before its first change, so the undo is empty (R302). -/
def raiseError (s : State) (code : ResultCode) : Host.Outcome State Fault Refusal :=
  .next (statusWrite s false code)

/-- The lowest `i` with `ch[i].live = 0` (44_voice_pool_mixer.md R251). -/
def firstDead (s : State) : Option Nat := s.ch.findIdx? fun c => !c.live

/-- A live, unreleased channel of the pair (R253). -/
def matchesPair (note instr : BitVec 8) (c : Channel) : Bool :=
  c.live && !c.released && decide (c.note.toNat = note.toNat) && decide (c.instr = instr)

/-- The lowest `i` whose channel is live, not released and holds the pair (R253). -/
def firstMatch (s : State) (note instr : BitVec 8) : Option Nat :=
  s.ch.findIdx? (matchesPair note instr)

/-- Rewrites channel `i`. -/
def modifyChannel (s : State) (i : Nat) (f : Channel → Channel) : State :=
  withCh s (s.ch.modify i f)

/-- Rewrites the tunables of instrument `i`. -/
def modifyInst (s : State) (i : Nat) (f : Tunables → Tunables) : State :=
  withInst s (s.inst.modify i f)

/-- `inst[i]` (R44); the default stands for an index no run reaches (notes/assumptions/9.md). -/
def tunablesOf (inst : List Tunables) (i : BitVec 8) : Tunables := inst.getD i.toNat default

/-- The channel that `CHAN_SEL` selects, none where its index is `N_VOICES` or more (R47). -/
def selectedChannel (s : State) : Option Channel := s.ch[(s.chanSel.extractLsb' 0 8).toNat]?

/-- `CHAN_INFO` of a channel (R47). -/
def channelInfo (c : Channel) : Word :=
  0#8 ++ c.instr ++ (c.note.zeroExtend 8) ++ 0#4 ++ c.mode.code
    ++ BitVec.ofBool c.released ++ BitVec.ofBool c.live

/-- The `CHAN_INFO` view (R47). -/
def chanInfoView (s : State) : Word :=
  match selectedChannel s with
  | some c => channelInfo c
  | none => 0

/-- The `CHAN_ENV` view (R48): `bits(ch[c].val)`. -/
def chanEnvView (s : State) : Word :=
  match selectedChannel s with
  | some c => c.val.bits
  | none => 0

/-- The `CONFIG` view (R49); bits 31:24 are the command-set version 1. -/
def configView (s : State) : Word :=
  1#8 ++ BitVec.ofNat 8 s.cfg.nKnob ++ BitVec.ofNat 8 s.cfg.nInstr ++ BitVec.ofNat 8 s.cfg.nVoices

end Sys2Proof.Machine
end

