-- ==== Sys2Proof/Machine/Envelope.lean ====
section
/-! DEFINITION. The envelope generator (40_envelope.md): run by `SAMPLE` once per live channel, started
by `NOTE_ON`. -/

namespace Sys2Proof.Machine

/-- `env_init(c)` (R142). -/
def envInit (c : Channel) : Channel :=
  { c with mode := .attack, val := fZero, tgt := attackTarget }

/-- The release entry at the start of an evaluation (R143). -/
def releaseEntry (c : Channel) : Channel :=
  if c.released ∧ (c.mode = .attack ∨ c.mode = .decay) then
    { c with mode := .release, tgt := fMul releaseFactor c.val }
  else c

/-- The level after `approach(r)` (R144): a subtract, a multiply, an add, each rounded. -/
def approach (r val tgt : F32) : F32 :=
  let d := fSub tgt val
  let m := fMul r d
  fAdd val m

/-- Attack (R145), with the clamp to 1.0 on the step that ends it. -/
def attackStep (d : InstrDesc) (c : Channel) : F32 × Channel :=
  let v := approach d.attack c.val c.tgt
  if fLe fOne v then (fOne, { c with val := fOne, mode := .decay, tgt := d.sustain })
  else (v, { c with val := v })

/-- Decay (R146). -/
def decayStep (d : InstrDesc) (c : Channel) : F32 × Channel :=
  let v := approach d.decay c.val c.tgt
  (v, { c with val := v })

/-- Release (R147); the killing step keeps the negative level and returns the sentinel (R148). -/
def releaseStep (d : InstrDesc) (c : Channel) : F32 × Channel :=
  let v := approach d.release c.val c.tgt
  if fLt v fZero then (killedSentinel, { c with val := v, mode := .killed })
  else (v, { c with val := v })

/-- `env_eval(c)` (R151): the level, and the channel after it. -/
def envEval (d : InstrDesc) (c : Channel) : F32 × Channel :=
  let c := releaseEntry c
  match c.mode with
  | .attack => attackStep d c
  | .decay => decayStep d c
  | .release => releaseStep d c
  | .killed => (killedSentinel, c)

end Sys2Proof.Machine
end

