-- ==== Sys2Proof/Machine/Filter.lean ====
section
/-! DEFINITION. The filter bank (42_filter.md): run by `SAMPLE` once per live channel, after the
oscillator. -/

namespace Sys2Proof.Machine

/-- `filt_lp(c, x)` (R212). -/
def filtLp (t : Tunables) (c : Channel) (x : F32) : F32 × Channel :=
  let d := fSub x c.fs
  let m := fMul t.coef d
  let y := fAdd c.fs m
  (y, { c with fs := y })

/-- `filt_hp(c, x)` (R213). -/
def filtHp (t : Tunables) (c : Channel) (x : F32) : F32 × Channel :=
  let a := fSub fOne t.coef
  let u := fAdd x c.fs
  let y := fMul a u
  (y, { c with fs := fSub y x })

/-- `filt_eval(c, x)` (R210); no filter leaves `x` and `fs` alone (R211). -/
def filtEval (d : InstrDesc) (t : Tunables) (c : Channel) (x : F32) : F32 × Channel :=
  match d.filt with
  | .none => (x, c)
  | .lp => filtLp t c x
  | .hp => filtHp t c x

end Sys2Proof.Machine
end

