-- ==== Sys2Proof/Machine/Oscillator.lean ====
section
/-! DEFINITION. The oscillator bank (41_oscillator.md): run by `SAMPLE` once per live channel, started by
`NOTE_ON`. -/

namespace Sys2Proof.Machine

/-- What `dpw_step` returns and leaves in the two fields it updates (R172). -/
structure DpwResult where
  y    : F32
  phi  : F32
  prev : F32
deriving DecidableEq, Repr

/-- `dpw_step(φ, prev, inc, norm)` (R172). -/
def dpwStep (phi prev inc norm : F32) : DpwResult :=
  let phi' := wrap (fAdd phi inc)
  let p := fMul phi' phi'
  { y := fMul (fSub p prev) norm, phi := phi', prev := p }

/-- The vibrato increment for an LFO output (R182): the interpolation toward the upper neighbour, whose
index stops at 127 (R184). -/
def vibratoInc (k : Cfg) (t : Tunables) (n : Nat) (lfo : F32) : F32 :=
  let n1 := min (n + 1) 127
  let dI := fSub (phaseIncAt k n1) (phaseIncAt k n)
  let m := fMul lfo t.depth
  fAdd (phaseIncAt k n) (fMul dI m)

/-- `carrier_inc(c)` (R182): the increment, and the channel with its LFO advanced under vibrato (R183). -/
def carrierInc (k : Cfg) (d : InstrDesc) (t : Tunables) (c : Channel) : F32 × Channel :=
  if d.vib then
    let lfo := dpwStep c.lphi c.lp k.lfoInc k.lfoNorm
    (vibratoInc k t c.note.toNat lfo.y, { c with lphi := lfo.phi, lp := lfo.prev })
  else (phaseIncAt k c.note.toNat, c)

/-- `osc_saw(c)` (R173). -/
def oscSaw (k : Cfg) (d : InstrDesc) (t : Tunables) (c : Channel) : F32 × Channel :=
  let ic := carrierInc k d t c
  let r := dpwStep ic.2.phi ic.2.p1 ic.1 (dpwNormAt k c.note.toNat)
  (r.y, { ic.2 with phi := r.phi, p1 := r.prev })

/-- Saw 2's phase offset `2.0 * duty` (R175). -/
def pulseOffset (t : Tunables) : F32 := fMul fTwo t.duty

/-- `osc_pulse(c)` (R175). Saw 2 keeps no phase of its own (R177). -/
def oscPulse (k : Cfg) (d : InstrDesc) (t : Tunables) (c : Channel) : F32 × Channel :=
  let ic := carrierInc k d t c
  let nrm := dpwNormAt k c.note.toNat
  let phi1 := wrap (fAdd ic.2.phi ic.1)
  let q1 := fMul phi1 phi1
  let phi2 := wrap (fAdd phi1 (pulseOffset t))
  let q2 := fMul phi2 phi2
  let s1 := fMul (fSub q1 ic.2.p1) nrm
  let s2 := fMul (fSub q2 ic.2.p2) nrm
  (fSub s1 s2, { ic.2 with phi := phi1, p1 := q1, p2 := q2 })

/-- The 24-bit xorshift step (R178). A 24-bit shift drops what leaves the word, which is R178's mask. -/
def xorshift (k : Cfg) (x : BitVec 24) : BitVec 24 :=
  let x := x ^^^ (x <<< k.xsA)
  let x := x ^^^ (x >>> k.xsB)
  x ^^^ (x <<< k.xsC)

/-- `noise_out(x)` (R179). -/
def noiseOut (x : BitVec 24) : F32 := fSub (fDiv (fOfNat x.toNat) f8388608) fOne

/-- `osc_noise(c)` (R178). -/
def oscNoise (k : Cfg) (c : Channel) : F32 × Channel :=
  let x := xorshift k c.nz
  (noiseOut x, { c with nz := x })

/-- `osc_eval(c)` (R186). -/
def oscEval (k : Cfg) (d : InstrDesc) (t : Tunables) (c : Channel) : F32 × Channel :=
  match d.osc with
  | .saw => oscSaw k d t c
  | .pulse => oscPulse k d t c
  | .noise => oscNoise k c

/-- Saw 2's squared phase at note-on: `sq(wrap(0.0 + 2.0 * duty))` (R176). -/
def pulseSeed (t : Tunables) : F32 := sq (wrap (fAdd fZero (pulseOffset t)))

/-- `osc_init(c)` (R187): every oscillator field, whatever the kind. -/
def oscInit (k : Cfg) (d : InstrDesc) (t : Tunables) (c : Channel) : Channel :=
  { c with
    phi := fZero, p1 := fZero, lphi := fZero, lp := fZero, nz := k.noiseSeed
    p2 := if d.osc = .pulse then pulseSeed t else fZero }

end Sys2Proof.Machine
end

