-- ==== Sys2Proof/Machine/Mixer.lean ====
section
/-! DEFINITION. `SAMPLE` (44_voice_pool_mixer.md R255): oscillator, filter, envelope of every live
channel, the sum, and its quantisation. -/

namespace Sys2Proof.Machine

/-- What one live channel's evaluation gives: its filtered sample, its level, and the channel. -/
structure VoiceResult where
  x  : F32
  lv : F32
  c  : Channel
deriving DecidableEq, Repr

/-- One `osc_eval`, then one `filt_eval` on its result, then one `env_eval` (R256). -/
def voiceEval (k : Cfg) (inst : List Tunables) (c : Channel) : VoiceResult :=
  let d := instrDesc k c.instr
  let t := tunablesOf inst c.instr
  let o := oscEval k d t c
  let f := filtEval d t o.2 o.1
  let e := envEval d f.2
  { x := f.1, lv := e.1, c := e.2 }

/-- One channel's turn in the pass (R255): a Dead channel is skipped; one whose envelope entered Killed is
made Dead at once and adds nothing (R257); any other adds `(x * lv) * vel` (R258). -/
def channelTurn (k : Cfg) (inst : List Tunables) (acc : F32) (c : Channel) : F32 × Channel :=
  if c.live then
    let v := voiceEval k inst c
    if v.c.mode = .killed then (acc, { v.c with live := false })
    else (fAdd acc (fMul (fMul v.x v.lv) v.c.vel), v.c)
  else (acc, c)

/-- The pass over the channels in ascending index (R255, R256): the sum and the channels after it. -/
def mixPass (k : Cfg) (inst : List Tunables) : F32 → List Channel → F32 × List Channel
  | acc, [] => (acc, [])
  | acc, c :: cs =>
    let t := channelTurn k inst acc c
    let r := mixPass k inst t.1 cs
    (r.1, t.2 :: r.2)

/-- `y = ((acc * vol) * HEADROOM) * FULL_SCALE` (R259). -/
def scaleSum (k : Cfg) (vol acc : F32) : F32 :=
  fMul (fMul (fMul acc vol) k.headroom) fullScale

/-- `sext_32(sat16(y))` (R259). -/
def outWord (y : F32) : Word := (sat16 y).signExtend 32

/-- `SAMPLE` (R255). -/
def execSample (s : State) : Host.Outcome State Fault Refusal :=
  let r := mixPass s.cfg s.inst fZero s.ch
  succeed (withOut (withCh s r.2) (outWord (scaleSum s.cfg s.vol r.1)))

end Sys2Proof.Machine
end

