-- ==== Sys2Proof/Machine/Params.lean ====
section
/-! DEFINITION. `SET_VOLUME` and `SET_PARAM` (43_instrument_params.md). -/

namespace Sys2Proof.Machine

/-- `SET_VOLUME` (R230). -/
def execSetVolume (s : State) : Host.Outcome State Fault Refusal :=
  let a := floatOperand s.arg
  if gainOk a then succeed (withVol s a) else raiseError s .badOperand

/-- The tunables after a knob of this kind is set to `v` (R233, R234, R235). -/
def setTunable (k : Cfg) (kind : TunableKind) (v : F32) (t : Tunables) : Tunables :=
  match kind with
  | .cutoff => { t with coef := cutoffCoef k v }
  | .duty => { t with duty := v }
  | .depth => { t with depth := v }

/-- `SET_PARAM` (R231). -/
def execSetParam (group : BitVec 8) (raw : BitVec 12) (s : State) :
    Host.Outcome State Fault Refusal :=
  match s.cfg.knobs[group.toNat]? with
  | none => raiseError s .badOperand
  | some kn =>
    succeed (modifyInst s kn.instr (setTunable s.cfg kn.tunable (knobValue kn raw)))

end Sys2Proof.Machine
end

