-- ==== Sys2Proof/Machine/Pool.lean ====
section
/-! DEFINITION. The voice pool's commands `INIT`, `NOTE_ON`, `NOTE_OFF` and `KILL`
(44_voice_pool_mixer.md R250 to R254). -/

namespace Sys2Proof.Machine

/-- `INIT` (R250): the reset values of R52, but `ARG` and `CHAN_SEL` keep theirs (R331). -/
def execInit (s : State) : Host.Outcome State Fault Refusal :=
  succeed (withOut (withVol (withInst (withCh s (initialChannels s.cfg)) (initialInst s.cfg))
    s.cfg.volumeInit) 0)

/-- `ch_init(c, n, i, v)` (R252). The instrument is bound before `osc_init` reads its kind and duty. -/
def chInit (k : Cfg) (inst : List Tunables) (note instr : BitVec 8) (v : F32) (c : Channel) :
    Channel :=
  let c := { c with
    live := true, released := false, note := note.truncate 7, instr := instr, vel := v }
  let c := oscInit k (instrDesc k instr) (tunablesOf inst instr) (envInit c)
  { c with fs := fZero }

/-- `NOTE_ON` (R251): the checks in the order of 60_exceptions.md R304, then the first Dead channel. -/
def execNoteOn (note instr : BitVec 8) (s : State) : Host.Outcome State Fault Refusal :=
  let a := floatOperand s.arg
  if noteOk note && instrOk s.cfg instr && velocityOk a then
    match firstDead s with
    | none => raiseError s .poolExhausted
    | some c => succeed (modifyChannel s c (chInit s.cfg s.inst note instr a))
  else raiseError s .badOperand

/-- `NOTE_OFF` (R253). -/
def execNoteOff (note instr : BitVec 8) (s : State) : Host.Outcome State Fault Refusal :=
  if noteOk note && instrOk s.cfg instr then
    match firstMatch s note instr with
    | none => raiseError s .noMatch
    | some c => succeed (modifyChannel s c fun c => { c with released := true })
  else raiseError s .badOperand

/-- `KILL` (R254): only `live` changes. -/
def execKill (s : State) : Host.Outcome State Fault Refusal :=
  succeed (withCh s (s.ch.map fun c => { c with live := false }))

end Sys2Proof.Machine
end

