-- ==== Sys2Proof/Machine/Dispatch.lean ====
section
/-! DEFINITION. One arm per command (30_encoding.md R101). -/

namespace Sys2Proof.Machine

-- Runs one decoded command to its end (20_memory.md R75).
def exec (i : Instr) (s : State) : Host.Outcome State Fault Refusal :=
  match i with
  | .init => Sys2Proof.Machine.execInit s
  | .noteOn note instr => Sys2Proof.Machine.execNoteOn note instr s
  | .noteOff note instr => Sys2Proof.Machine.execNoteOff note instr s
  | .kill => Sys2Proof.Machine.execKill s
  | .setVolume => Sys2Proof.Machine.execSetVolume s
  | .setParam group raw => Sys2Proof.Machine.execSetParam group raw s
  | .sample => Sys2Proof.Machine.execSample s

end Sys2Proof.Machine
end

