-- ==== Sys2Proof/Machine/Access.lean ====
section
/-! DEFINITION. The register window (20_memory.md): what one host access or one platform reset does. -/

namespace Sys2Proof.Machine

/-- The registers of the window (R71). -/
inductive HostReg where
  | cmd | arg | status | out | chanSel | chanInfo | config | chanEnv
deriving DecidableEq, Repr

/-- A register's offset (R71). -/
def HostReg.offset : HostReg → Nat
  | .cmd => 0x00
  | .arg => 0x04
  | .status => 0x08
  | .out => 0x0C
  | .chanSel => 0x10
  | .chanInfo => 0x14
  | .config => 0x18
  | .chanEnv => 0x1C

/-- The register at an offset; none where the offset is reserved (R71). -/
def regAt (off : Nat) : Option HostReg :=
  match off with
  | 0x00 => some .cmd
  | 0x04 => some .arg
  | 0x08 => some .status
  | 0x0C => some .out
  | 0x10 => some .chanSel
  | 0x14 => some .chanInfo
  | 0x18 => some .config
  | 0x1C => some .chanEnv
  | _ => none

/-- The offset SVE decodes: the low 8 bits of the address (R70). -/
def offsetOf (addr : Nat) : Nat := addr % 256

/-- The address lies in the 256-byte window at `BASE` (R70). -/
def inWindow (s : State) (addr : Nat) : Bool :=
  decide (s.cfg.base ≤ addr ∧ addr < s.cfg.base + 256)

/-- The one access that is defined: 32 bits wide at an offset that is a multiple of 4 (R72). -/
def accessDefined (off width : Nat) : Bool := decide (width = 32 ∧ off % 4 = 0)

/-- What a register reads as (R78). -/
def readReg (s : State) : HostReg → Word
  | .cmd => 0
  | .arg => s.arg
  | .status => s.status
  | .out => s.out
  | .chanSel => (s.chanSel.extractLsb' 0 8).zeroExtend 32
  | .chanInfo => chanInfoView s
  | .config => configView s
  | .chanEnv => chanEnvView s

/-- `MemRead(BASE + off, 4)` with `off` a multiple of 4 (R78). -/
def memRead (s : State) (off : Nat) : Word :=
  match regAt off with
  | some r => readReg s r
  | none => 0

/-- What a read returns: an access that is not defined returns 0 (R73). -/
def busRead (s : State) (addr width : Nat) : Word :=
  if accessDefined (offsetOf addr) width then memRead s (offsetOf addr) else 0

/-- `execute(w)` (30_encoding.md R112). `ARG` is read by the command itself, and nothing can write it in
between (R77). -/
def execute (s : State) (w : Word) : Host.Outcome State Fault Refusal :=
  match decode w with
  | .ok i => exec i s
  | .error _ => raiseError s .illegal

/-- Adds what a command shows the host: the `STATUS` and `OUT` it leaves (70_reset_and_hazards.md R343). -/
def noteCommand (o : Host.Outcome State Fault Refusal) : Host.Outcome State Fault Refusal :=
  match o with
  | .next t => .next (observe t (.command t.status t.out))
  | .fault f => .fault f
  | .refused r => .refused r

/-- What a 32-bit write does to a register (R79): `CMD` runs a command, `ARG` stores the word, `CHAN_SEL`
stores bits 7:0, and the read-only registers ignore it (R76). -/
def writeReg (s : State) (v : Word) : HostReg → Host.Outcome State Fault Refusal
  | .cmd => noteCommand (execute s v)
  | .arg => .next (withArg s v)
  | .chanSel => .next (withChanSel s ((v.extractLsb' 0 8).zeroExtend 32))
  | .status => .next s
  | .out => .next s
  | .chanInfo => .next s
  | .config => .next s
  | .chanEnv => .next s

/-- `MemWrite(BASE + off, 4, v)` with `off` a multiple of 4 (R79). -/
def memWrite (s : State) (off : Nat) (v : Word) : Host.Outcome State Fault Refusal :=
  match regAt off with
  | some r => writeReg s v r
  | none => .next s

/-- What a write does: one that is not defined has no effect (R73). -/
def busWrite (s : State) (addr width : Nat) (v : Word) : Host.Outcome State Fault Refusal :=
  if accessDefined (offsetOf addr) width then memWrite s (offsetOf addr) v else .next s

/-- The platform's reset (70_reset_and_hazards.md R330): all of SVE's state takes its reset value. The
host's stream and what the run has shown are not SVE's state and stay (notes/assumptions/11.md). -/
def platformReset (s : State) : State :=
  withObs (withPending (State.resetOf s.cfg) s.pending) s.obs

/-- One event of the host's stream, taken whole (R75). -/
def takeEvent (s : State) : HostEvent → Host.Outcome State Fault Refusal
  | .read addr width =>
    if inWindow s addr then .next (observe s (.readValue (busRead s addr width)))
    else .fault .outsideWindow
  | .write addr width v =>
    if inWindow s addr then busWrite s addr width v else .fault .outsideWindow
  | .reset => .next (platformReset s)

/-- The write that hands SVE a command word: 32 bits, at `CMD` (R71, R79). -/
def commandWrite (s : State) (w : Word) : HostEvent :=
  .write (s.cfg.base + HostReg.cmd.offset) 32 w

end Sys2Proof.Machine
end

