-- ==== Sys2Proof/Machine/Step.lean ====
section
/-! DEFINITION. One step of SVE: the next event of the host's stream. -/

namespace Sys2Proof.Machine

/-- A configuration that is not well-formed is refused before anything else (00_scope.md R10, R316). With
nothing pending SVE waits, and nothing changes (notes/assumptions/4.md); otherwise it takes the oldest event
whole (20_memory.md R75). -/
def step (s : State) : Host.Outcome State Fault Refusal :=
  if s.cfg.wellFormed then
    match s.pending with
    | [] => .next s
    | e :: rest => takeEvent (withPending s rest) e
  else .refused .badConfig

/-- SVE fetches nothing (R83): the next command is the next word written to `CMD`. So the instruction is
placed as that write, in front of the host's stream (notes/assumptions/4.md). -/
def State.withFetchWord (s : State) (nbits w : Nat) : State :=
  withPending s (commandWrite s (BitVec.ofNat 32 (w % 2 ^ nbits)) :: s.pending)

end Sys2Proof.Machine
end

