-- ==== Sys2Proof/Machine/Script.lean ====
section
/-! DEFINITION. Command scripts (30_encoding.md R110, R111): the operations a line can name, the host
accesses each stands for, and the reading of a written line. What the two rules leave open of a line's
layout: notes/assumptions/13.md. -/

namespace Sys2Proof.Machine

/-- A decimal literal, exactly: `digits / 10^scale`, negated where `neg` (R110). -/
structure Decimal where
  neg    : Bool
  digits : Nat
  scale  : Nat
deriving DecidableEq, Repr

/-- The binary32 number nearest to a decimal literal, ties to even (R110). -/
def Decimal.toF32 (d : Decimal) : F32 := pack d.neg (magOf (fOfRat d.digits (10 ^ d.scale)))

/-- One operation of a script (R110, R111). -/
inductive ScriptOp where
  | wr (reg : HostReg) (value : Word)
  | rd (reg : HostReg)
  | init
  | kill
  | sample
  | noteOff (note instr : Word)
  | setParam (group raw : Word)
  | noteOn (note instr : Word) (vel : Decimal)
  | setVolume (gain : Decimal)
deriving DecidableEq, Repr

/-- The 32-bit write of a register. -/
def regWrite (base : Nat) (r : HostReg) (v : Word) : HostEvent := .write (base + r.offset) 32 v

/-- The 32-bit read of a register. -/
def regRead (base : Nat) (r : HostReg) : HostEvent := .read (base + r.offset) 32

/-- `0x2000_0000 | instr<<8 | note`, and alike for the other note command (R110, R111). DESIGN CHOICE
(notes/assumptions/13.md): 32-bit arithmetic also for an operand that does not fit its field, on which the rules
are silent; bits of `instr` from 24 up are lost, so an oversized operand can yield a legal word. -/
def noteWord (op note instr : Word) : Word := op ||| (instr <<< 8) ||| note

/-- The accesses an operation stands for, in order (R110, R111). DESIGN CHOICE (notes/assumptions/13.md) for an
operand that does not fit its field, as in `noteWord`: bits of `group` from 16 up are lost. -/
def ScriptOp.expand (base : Nat) : ScriptOp → List HostEvent
  | .wr r v => [regWrite base r v]
  | .rd r => [regRead base r]
  | .init => [regWrite base .cmd 0x10000000]
  | .kill => [regWrite base .cmd 0x40000000]
  | .sample => [regWrite base .cmd 0x70000000]
  | .noteOff note instr => [regWrite base .cmd (noteWord 0x30000000 note instr)]
  | .setParam group raw => [regWrite base .cmd (0x60000000#32 ||| (group <<< 16) ||| raw)]
  | .noteOn note instr vel =>
    [regWrite base .arg vel.toF32.bits, regWrite base .cmd (noteWord 0x20000000 note instr)]
  | .setVolume gain => [regWrite base .arg gain.toF32.bits, regWrite base .cmd 0x50000000]

/-- The accesses of a whole script, handed to the host's stream behind what is already there. -/
def loadScript (s : State) (ops : List ScriptOp) : State :=
  withPending s (s.pending ++ ops.flatMap (ScriptOp.expand s.cfg.base))

/-- The value of a digit in a base of at most 16. -/
def digitValue (base : Nat) (c : Char) : Option Nat :=
  let n := c.toNat
  let v := if 48 ≤ n ∧ n ≤ 57 then n - 48
    else if 97 ≤ n ∧ n ≤ 102 then n - 87
    else if 65 ≤ n ∧ n ≤ 70 then n - 55 else 16
  if v < base then some v else none

/-- The number that digits spell, after `acc`; `_` may separate digits (R110). -/
def readDigits (base : Nat) : Nat → List Char → Option Nat
  | acc, [] => some acc
  | acc, c :: cs =>
    if c = '_' then readDigits base acc cs
    else (digitValue base c).bind fun v => readDigits base (acc * base + v) cs

/-- The number that a run of digits spells; its first character is a digit. -/
def readNumber (base : Nat) : List Char → Option Nat
  | [] => none
  | c :: cs => (digitValue base c).bind fun v => readDigits base v cs

/-- A number: decimal, or hexadecimal with `0x` (R110). -/
def readNat : List Char → Option Nat
  | '0' :: 'x' :: cs => readNumber 16 cs
  | cs => readNumber 10 cs

/-- A number that a 32-bit word can hold. -/
def readWord (cs : List Char) : Option Word :=
  (readNat cs).bind fun n => if n < 2 ^ 32 then some (BitVec.ofNat 32 n) else none

/-- A float literal without its sign: digits, with a point among them or not (R110). -/
def readUnsigned (neg : Bool) (cs : List Char) : Option Decimal :=
  let whole := cs.takeWhile (· ≠ '.')
  let frac := (cs.dropWhile (· ≠ '.')).drop 1
  if whole.isEmpty then none
  else (readNumber 10 (whole ++ frac)).map fun n =>
    { neg := neg, digits := n, scale := (frac.filter (· ≠ '_')).length }

/-- A float literal (R110). -/
def readDecimal : List Char → Option Decimal
  | '-' :: cs => readUnsigned true cs
  | cs => readUnsigned false cs

/-- A register's name (20_memory.md R71). -/
def HostReg.name : HostReg → List Char
  | .cmd => ['C', 'M', 'D']
  | .arg => ['A', 'R', 'G']
  | .status => ['S', 'T', 'A', 'T', 'U', 'S']
  | .out => ['O', 'U', 'T']
  | .chanSel => ['C', 'H', 'A', 'N', '_', 'S', 'E', 'L']
  | .chanInfo => ['C', 'H', 'A', 'N', '_', 'I', 'N', 'F', 'O']
  | .config => ['C', 'O', 'N', 'F', 'I', 'G']
  | .chanEnv => ['C', 'H', 'A', 'N', '_', 'E', 'N', 'V']

/-- The register with a name (R110). -/
def readReg? (cs : List Char) : Option HostReg :=
  [HostReg.cmd, .arg, .status, .out, .chanSel, .chanInfo, .config, .chanEnv].find?
    fun r => decide (r.name = cs)

/-- The words of a line: `;` starts a comment, white space and commas separate (R110). -/
def tokens : List Char → List Char → List (List Char)
  | cur, [] => if cur.isEmpty then [] else [cur]
  | cur, c :: cs =>
    if c = ';' then (if cur.isEmpty then [] else [cur])
    else if c = ',' ∨ c = ' ' ∨ c = '\t' then
      (if cur.isEmpty then tokens [] cs else cur :: tokens [] cs)
    else tokens (cur ++ [c]) cs

/-- The operation a line's words name; none where they name none (R110, R111). -/
def readOp : List (List Char) → Option ScriptOp
  | [['w', 'r'], r, v] => (readReg? r).bind fun r => (readWord v).map (.wr r)
  | [['r', 'd'], r] => (readReg? r).map .rd
  | [['i', 'n', 'i', 't']] => some .init
  | [['k', 'i', 'l', 'l']] => some .kill
  | [['s', 'a', 'm', 'p', 'l', 'e']] => some .sample
  | [['n', 'o', 't', 'e', '_', 'o', 'f', 'f'], n, i] =>
    (readWord n).bind fun n => (readWord i).map (.noteOff n)
  | [['s', 'e', 't', '_', 'p', 'a', 'r', 'a', 'm'], g, r] =>
    (readWord g).bind fun g => (readWord r).map (.setParam g)
  | [['n', 'o', 't', 'e', '_', 'o', 'n'], n, i, v] =>
    (readWord n).bind fun n => (readWord i).bind fun i => (readDecimal v).map (.noteOn n i)
  | [['s', 'e', 't', '_', 'v', 'o', 'l', 'u', 'm', 'e'], g] => (readDecimal g).map .setVolume
  | _ => none

/-- What a written line is. -/
inductive ScriptLine where
  | blank
  | op (o : ScriptOp)
  | malformed
deriving DecidableEq, Repr

/-- A written line (R110). -/
def readLine (cs : List Char) : ScriptLine :=
  match tokens [] cs with
  | [] => .blank
  | ts => match readOp ts with
    | some o => .op o
    | none => .malformed

end Sys2Proof.Machine
end

