-- ==== Sys2Proof/Safety.lean ====
section
/-! DEFINITION. What the statements speak of: a run that goes on, the invariants the rules promise of
every state between commands, and the spec's tables written a second time as plain arithmetic, so that a
statement compares the model with the rule and not with itself. -/

namespace Sys2Proof.Safety

open Sys2Proof.Machine

/-- The machine goes on: neither a fault nor a refusal (60_exceptions.md R316). -/
def Completes (o : Host.Outcome State Fault Refusal) : Prop := ∃ t, o = .next t

/-- How many channels are live (10_state.md R33). -/
def liveVoices (s : State) : Nat := (s.ch.filter (·.live)).length

/-- `STATUS` as arithmetic: `LIVE` in bits 15:8, `CODE` in bits 7:4, `OK` in bit 0, the rest 0 (R33). -/
def resultWord (live code : Nat) (ok : Bool) : Word :=
  BitVec.ofNat 32 (256 * (live % 256) + 16 * code + ok.toNat)

/-- `CHAN_INFO` of a channel as arithmetic (R47). -/
def infoWord (c : Channel) : Word :=
  BitVec.ofNat 32 (c.live.toNat + 2 * c.released.toNat + 4 * c.mode.code.toNat
    + 256 * c.note.toNat + 65536 * c.instr.toNat)

/-- What the rules promise of a live channel between commands: R40, and for a NOISE instrument
41_oscillator.md R181. (`note <= 127` is its type.) -/
structure VoiceOk (k : Cfg) (c : Channel) : Prop where
  instr_lt : c.instr.toNat < k.nInstr
  vel_unit : fLe fZero c.vel = true ∧ fLe c.vel fOne = true
  not_killed : c.mode ≠ .killed
  noise_ne : (instrDesc k c.instr).osc = .noise → c.nz ≠ 0#24

/-- What the rules promise of every state between commands: a well-formed configuration (R333), register
files of the spec's sizes (R37, R44), live channels as R40 and R181 say, `STATUS` as R33 says with `LIVE`
the number of live channels, the reserved bits of `CHAN_SEL` 0 (R36), and `OUT` a sign-extended 16-bit
sample (R35). -/
structure Inv (s : State) : Prop where
  cfg_ok : s.cfg.wellFormed = true
  ch_length : s.ch.length = s.cfg.nVoices
  inst_length : s.inst.length = s.cfg.nInstr
  voices : ∀ c ∈ s.ch, c.live = true → VoiceOk s.cfg c
  status_eq : ∃ code : ResultCode,
    s.status = resultWord (liveVoices s) code.value.toNat (decide (code = .ok))
  chanSel_lt : s.chanSel.toNat < 256
  out_sext : ∃ v : BitVec 16, s.out = v.signExtend 32

/-- What the envelope's rules promise of a live channel between commands (40_envelope.md R142 to R147,
R152): the level is in [0, 1], below 1 in Attack, and the target is the one its mode steps toward. -/
def LevelOk (k : Cfg) (c : Channel) : Prop :=
  fLe fZero c.val = true ∧ fLe c.val fOne = true ∧
    match c.mode with
    | .attack => c.tgt = attackTarget ∧ fLt c.val fOne = true
    | .decay => c.tgt = (instrDesc k c.instr).sustain
    | .release => c.released = true ∧ fLe fMinusOne c.tgt = true ∧ fLe c.tgt fZero = true
    | .killed => False

/-- The levels of all live channels are as the envelope's rules promise (R152). -/
def LevelInv (s : State) : Prop := ∀ c ∈ s.ch, c.live = true → LevelOk s.cfg c

/-- The event reaches SVE: a reset, or an access inside the window (20_memory.md R70). -/
def Reaches (k : Cfg) : HostEvent → Prop
  | .read addr _ => k.base ≤ addr ∧ addr < k.base + 256
  | .write addr _ _ => k.base ≤ addr ∧ addr < k.base + 256
  | .reset => True

/-- The word is one of the seven legal commands: the masks and matches of 30_encoding.md R112. -/
def legalWord (w : Word) : Prop :=
  w = 0x10000000#32 ∨ w &&& 0xFFFF0000#32 = 0x20000000#32 ∨ w &&& 0xFFFF0000#32 = 0x30000000#32
    ∨ w = 0x40000000#32 ∨ w = 0x50000000#32 ∨ w &&& 0xFF00F000#32 = 0x60000000#32
    ∨ w = 0x70000000#32

/-- The note or instrument number of a format N word is out of range (R106). -/
def badPair (k : Cfg) (w : Word) : Prop :=
  127 < w.toNat % 256 ∨ k.nInstr ≤ w.toNat / 256 % 256

/-- The channel answers a `NOTE_OFF` of the word's pair (44_voice_pool_mixer.md R253). -/
def answers (w : Word) (c : Channel) : Prop :=
  c.live = true ∧ c.released = false ∧ c.note.toNat = w.toNat % 256
    ∧ c.instr.toNat = w.toNat / 256 % 256

/-- That the command of the word `w` ends with this result code: the table of 60_exceptions.md R303 in the
priority of R304, by the word's own bits. -/
def CodeFor (s : State) (w : Word) (code : ResultCode) : Prop :=
  (¬ legalWord w ∧ code = .illegal)
  ∨ ((w = 0x10000000#32 ∨ w = 0x40000000#32 ∨ w = 0x70000000#32) ∧ code = .ok)
  ∨ (w &&& 0xFFFF0000#32 = 0x20000000#32 ∧
      (((badPair s.cfg w ∨ ¬ (fLe fZero ⟨s.arg⟩ = true ∧ fLe ⟨s.arg⟩ fOne = true))
          ∧ code = .badOperand)
        ∨ (¬ badPair s.cfg w ∧ fLe fZero ⟨s.arg⟩ = true ∧ fLe ⟨s.arg⟩ fOne = true ∧
            (((∀ c ∈ s.ch, c.live = true) ∧ code = .poolExhausted)
              ∨ ((∃ c ∈ s.ch, c.live = false) ∧ code = .ok)))))
  ∨ (w &&& 0xFFFF0000#32 = 0x30000000#32 ∧
      ((badPair s.cfg w ∧ code = .badOperand)
        ∨ (¬ badPair s.cfg w ∧
            (((∀ c ∈ s.ch, ¬ answers w c) ∧ code = .noMatch)
              ∨ ((∃ c ∈ s.ch, answers w c) ∧ code = .ok)))))
  ∨ (w = 0x50000000#32 ∧
      ((isFinite ⟨s.arg⟩ = false ∧ code = .badOperand) ∨ (isFinite ⟨s.arg⟩ = true ∧ code = .ok)))
  ∨ (w &&& 0xFF00F000#32 = 0x60000000#32 ∧
      ((s.cfg.nKnob ≤ w.toNat / 65536 % 256 ∧ code = .badOperand)
        ∨ (w.toNat / 65536 % 256 < s.cfg.nKnob ∧ code = .ok)))

/-- What a live channel's turn in `SAMPLE` computes (44_voice_pool_mixer.md R255, R256): oscillator, then
filter on its result, then envelope. -/
def voiceChain (s : State) (c : Channel) : F32 × F32 × Channel :=
  let d := s.cfg.instrs.getD c.instr.toNat default
  let t := s.inst.getD c.instr.toNat default
  let o := oscEval s.cfg d t c
  let f := filtEval d t o.2 o.1
  let e := envEval d f.2
  (f.1, e.1, e.2)

/-- The channel after `SAMPLE` (R255, R257). -/
def afterSample (s : State) (c : Channel) : Channel :=
  if c.live = true then
    let v := voiceChain s c
    { v.2.2 with live := decide (v.2.2.mode ≠ .killed) }
  else c

/-- What the channel adds to the sum of `SAMPLE`, none where it adds nothing (R257, R258). -/
def sampleTerm (s : State) (c : Channel) : Option F32 :=
  let v := voiceChain s c
  if c.live = true ∧ v.2.2.mode ≠ .killed then some (fMul (fMul v.1 v.2.1) v.2.2.vel) else none

/-- The sum of `SAMPLE`: the terms in ascending channel order, from +0.0 (R258). -/
def sampleSum (s : State) : F32 := (s.ch.filterMap (sampleTerm s)).foldl fAdd fZero

/-- `r` is a binary32 number nearest to `num / den` units of 2^-149, and where another one is as near, its
significand is even: rounding to nearest, ties to even (00_scope.md R12). -/
def NearestEven (num den : Int) (r : F32) : Prop :=
  isFinite r = true ∧ ∀ z : F32, isFinite z = true →
    |scaled r * den - num| ≤ |scaled z * den - num| ∧
    (|scaled r * den - num| = |scaled z * den - num| → scaled z ≠ scaled r → magOf r % 2 = 0)

/-- `q` is `wrap(p)`: one correction of 2.0 or none (00_scope.md R15). -/
def WrapRule (p q : F32) : Prop :=
  (fLe ⟨0x3F800000#32⟩ p = true ∧ q = fSub p ⟨0x40000000#32⟩)
  ∨ (fLt p ⟨0xBF800000#32⟩ = true ∧ q = fAdd p ⟨0x40000000#32⟩)
  ∨ (fLe ⟨0x3F800000#32⟩ p = false ∧ fLt p ⟨0xBF800000#32⟩ = false ∧ q = p)

/-- `dpw_step` from phase `phi` and squared phase `prev` leaves the phase `phi'` and its square `p`, and
returns `y` (41_oscillator.md R172). -/
def DpwRule (phi prev inc norm phi' p y : F32) : Prop :=
  WrapRule (fAdd phi inc) phi' ∧ p = fMul phi' phi' ∧ y = fMul (fSub p prev) norm

/-- `carrier_inc` of the channel is `inc`, and leaves the LFO at `lphi` and `lp`: without vibrato the note's
own entry and the LFO untouched; with it one LFO step and the interpolation toward the upper neighbour
(41_oscillator.md R182 to R184). -/
def CarrierRule (k : Cfg) (d : InstrDesc) (t : Tunables) (c : Channel) (inc lphi lp : F32) : Prop :=
  ∃ own next, k.phaseInc[c.note.toNat]? = some own ∧
    k.phaseInc[if c.note.toNat < 127 then c.note.toNat + 1 else 127]? = some next ∧
    ((d.vib = false ∧ inc = own ∧ lphi = c.lphi ∧ lp = c.lp)
    ∨ (d.vib = true ∧ ∃ lfo, DpwRule c.lphi c.lp k.lfoInc k.lfoNorm lphi lp lfo ∧
        inc = fAdd own (fMul (fSub next own) (fMul lfo t.depth))))

/-- The level one approach step leaves: subtract, multiply, add, each rounded (40_envelope.md R144). -/
def stepped (rate val tgt : F32) : F32 := fAdd val (fMul rate (fSub tgt val))

/-- The words of opcode `op` are those of format Z: one legal word, which is `i` (R102, R105). -/
def ZWords (op : Nat) (i : Instr) : Prop :=
  ∀ w : Word, w.toNat / 2 ^ 28 = op →
    decode w = if w.toNat % 2 ^ 28 = 0 then .ok i else .error .reservedBits

/-- The words of opcode `op` are those of format N, with NOTE in bits 7:0 and INSTR in bits 15:8
(R103, R105). -/
def NWords (op : Nat) (i : BitVec 8 → BitVec 8 → Instr) : Prop :=
  ∀ w : Word, w.toNat / 2 ^ 28 = op →
    decode w = if w.toNat / 2 ^ 16 % 2 ^ 12 = 0 then
        .ok (i (BitVec.ofNat 8 (w.toNat % 256)) (BitVec.ofNat 8 (w.toNat / 256 % 256)))
      else .error .reservedBits

/-- The words of opcode `op` are those of format P, with GROUP in bits 23:16 and RAW in bits 11:0
(R104, R105). -/
def PWords (op : Nat) (i : BitVec 8 → BitVec 12 → Instr) : Prop :=
  ∀ w : Word, w.toNat / 2 ^ 28 = op →
    decode w = if w.toNat / 2 ^ 24 % 16 = 0 ∧ w.toNat / 2 ^ 12 % 16 = 0 then
        .ok (i (BitVec.ofNat 8 (w.toNat / 2 ^ 16 % 256)) (BitVec.ofNat 12 (w.toNat % 4096)))
      else .error .reservedBits

/-- The channel that `CHAN_SEL` selects, none where its index is `N_VOICES` or more (10_state.md R47). -/
def inspected (s : State) : Option Channel :=
  if s.cfg.nVoices ≤ s.chanSel.toNat % 256 then none else s.ch[s.chanSel.toNat % 256]?

/-- What a 32-bit read at a multiple of 4 above `BASE` returns: the table of 20_memory.md R78. -/
def windowValue (s : State) (off : Nat) : Word :=
  if off = 0x04 then s.arg
  else if off = 0x08 then s.status
  else if off = 0x0C then s.out
  else if off = 0x10 then BitVec.ofNat 32 (s.chanSel.toNat % 256)
  else if off = 0x14 then ((inspected s).map infoWord).getD 0
  else if off = 0x18 then
    BitVec.ofNat 32 (s.cfg.nVoices + 256 * s.cfg.nInstr + 65536 * s.cfg.nKnob + 16777216)
  else if off = 0x1C then ((inspected s).map fun c => c.val.bits).getD 0
  else 0

/-- What the diagnostic registers show of a channel (10_state.md R51). -/
def shown (c : Channel) : Bool × Bool × Mode × BitVec 7 × BitVec 8 × F32 :=
  (c.live, c.released, c.mode, c.note, c.instr, c.val)

end Sys2Proof.Safety
end

