-- ==== Sys2Proof/Certificates/Slice0/Obligations.lean ====
section
/-! DEFINITION. The statements for the provers. A rule `R<n>` is the spec's; each statement's entry in
OBLIGATIONS.json gives its basis. `cfg`, `pending` and `obs` are the model's own fields: what a statement
says of them is the model's choice (notes/assumptions/1.md, 4.md, 5.md, and 11.md for a
platform reset), and the rest is the rule's. -/

open Sys2Proof Sys2Proof.Machine Sys2Proof.Safety

/-! ### Encoding (30_encoding.md) -/

/-- Every instruction's word decodes to it again: no operand bit is dropped (R101 to R104, R112). -/
def Obligations.DecodeInvertsEncode : Prop :=
  ∀ i : Instr, i.wellFormed = true → decode (encode i) = .ok i

/-- A word has one meaning: a word that decodes is the word of what it decodes to (R109). -/
def Obligations.EncodeInvertsDecode : Prop :=
  ∀ (w : Word) (i : Instr), decode w = .ok i → encode i = w

/-- Every 32-bit word is exactly one of: a legal command, illegal by reserved bits, illegal by opcode
(R109). -/
def Obligations.EveryWordIsLegalOrIllegalByName : Prop :=
  ∀ w : Word,
    ((∃ i, decode w = .ok i) ↔ legalWord w) ∧
    (decode w = .error .unassignedOpcode ↔ w.toNat / 2 ^ 28 = 0 ∨ 8 ≤ w.toNat / 2 ^ 28) ∧
    (decode w = .error .reservedBits ↔
      1 ≤ w.toNat / 2 ^ 28 ∧ w.toNat / 2 ^ 28 ≤ 7 ∧ ¬ legalWord w)

/-- Words of every format, written out from 95_test_vectors.md section 6.1. -/
def Obligations.DecodesTheSpecsExampleWords : Prop :=
  decode 0x10000000#32 = .ok .init ∧ decode 0x2000013C#32 = .ok (.noteOn 60#8 1#8) ∧
  decode 0x3000003F#32 = .ok (.noteOff 63#8 0#8) ∧ decode 0x40000000#32 = .ok .kill ∧
  decode 0x50000000#32 = .ok .setVolume ∧
  decode 0x60020800#32 = .ok (.setParam 2#8 2048#12) ∧ decode 0x70000000#32 = .ok .sample ∧
  decode 0x61000000#32 = .error .reservedBits ∧ decode 0xF0000000#32 = .error .unassignedOpcode

/-! ### The step -/

/-- A step whose event writes a legal word to `CMD` runs the decoded command to its end; around it, the
event is taken from the stream and the command's STATUS and OUT are shown (R75, R112, R343). -/
def Obligations.StepRunsTheDecodedCommand : Prop :=
  ∀ (s : State) (rest : List HostEvent) (w : Word) (i : Instr),
    s.cfg.wellFormed = true → s.pending = .write s.cfg.base 32 w :: rest → decode w = .ok i →
    ∃ t, exec i { s with pending := rest } = .next t ∧
      step s = .next { t with obs := t.obs ++ [.command t.status t.out] }

/-- The model's placement of an instruction (notes/assumptions/4.md): the very next step runs it, on the
state it was placed in. -/
def Obligations.PlacedInstructionRunsNext : Prop :=
  ∀ (s : State) (i : Instr), s.cfg.wellFormed = true →
    ∃ t, exec i s = .next t ∧
      step (s.withFetchWord 32 (encode i).toNat) =
        .next { t with obs := t.obs ++ [.command t.status t.out] }

/-- An illegal word written to `CMD` only reports ILLEGAL (R105, R108). -/
def Obligations.IllegalWordOnlyReports : Prop :=
  ∀ (s : State) (rest : List HostEvent) (w : Word),
    s.cfg.wellFormed = true → s.pending = .write s.cfg.base 32 w :: rest → ¬ legalWord w →
    step s = .next
      { s with
        pending := rest
        status := resultWord (liveVoices s) 3 false
        obs := s.obs ++ [.command (resultWord (liveVoices s) 3 false) s.out] }

/-- When a step stops, and when it goes on: a configuration that is not well-formed is refused (R10), an
access outside the window faults (the model's own, notes/assumptions/3.md), and nothing else stops
(R316). -/
def Obligations.StepStopsOnlyOnBadConfigOrOutsideAccess : Prop :=
  ∀ s : State,
    (step s = .refused .badConfig ↔ s.cfg.wellFormed = false) ∧
    (step s = .fault .outsideWindow ↔
      s.cfg.wellFormed = true ∧ ∃ e, s.pending.head? = some e ∧ ¬ Reaches s.cfg e) ∧
    (Completes (step s) ↔
      s.cfg.wellFormed = true ∧ ∀ e, s.pending.head? = some e → Reaches s.cfg e)

/-- A run over a stream that stays inside the window never stops, and takes every event (R75, R316). -/
def Obligations.RunTakesEveryEventOfTheStream : Prop :=
  ∀ s : State, s.cfg.wellFormed = true → (∀ e ∈ s.pending, Reaches s.cfg e) →
    ∃ t, Host.Core.run Sys2Proof.core s.pending.length s = .next t ∧ t.pending = [] ∧ t.cfg = s.cfg

/-- The configuration is fixed for the life of the hardware (R8): no step changes it. -/
def Obligations.NoStepChangesTheConfiguration : Prop :=
  ∀ s t : State, step s = .next t → t.cfg = s.cfg

/-! ### The register window (20_memory.md) -/

/-- A 32-bit read at a multiple of 4 returns the register of R78's table and changes no SVE state. -/
def Obligations.AlignedReadReturnsTheRegister : Prop :=
  ∀ (s : State) (rest : List HostEvent) (off : Nat),
    s.cfg.wellFormed = true → s.ch.length = s.cfg.nVoices → off < 256 → off % 4 = 0 →
    s.pending = .read (s.cfg.base + off) 32 :: rest →
    step s = .next
      { s with pending := rest, obs := s.obs ++ [.readValue (windowValue s off)] }

/-- A 32-bit write at a multiple of 4 does what R79 says: `CMD` runs the word, `ARG` stores it, `CHAN_SEL`
stores bits 7:0, and every other offset ignores it. -/
def Obligations.AlignedWriteDoesWhatTheMapSays : Prop :=
  ∀ (s : State) (rest : List HostEvent) (off : Nat) (v : Word),
    s.cfg.wellFormed = true → off < 256 → off % 4 = 0 →
    s.pending = .write (s.cfg.base + off) 32 v :: rest →
    (off = 0x00 → ∃ t, execute { s with pending := rest } v = .next t ∧
      step s = .next { t with obs := t.obs ++ [.command t.status t.out] }) ∧
    (off = 0x04 → step s = .next { s with pending := rest, arg := v }) ∧
    (off = 0x10 →
      step s = .next { s with pending := rest, chanSel := BitVec.ofNat 32 (v.toNat % 256) }) ∧
    (off ≠ 0x00 → off ≠ 0x04 → off ≠ 0x10 → step s = .next { s with pending := rest })

/-- Any access of the window that is not 32 bits wide, or is 32 bits wide and not at a multiple of 4, is
ignored: a write has no effect, a read returns 0 (R73). -/
def Obligations.OtherAccessesAreIgnored : Prop :=
  ∀ (s : State) (rest : List HostEvent) (off width : Nat) (v : Word),
    s.cfg.wellFormed = true → off < 256 → ¬ (width = 32 ∧ off % 4 = 0) →
    (s.pending = .write (s.cfg.base + off) width v :: rest →
      step s = .next { s with pending := rest }) ∧
    (s.pending = .read (s.cfg.base + off) width :: rest →
      step s = .next { s with pending := rest, obs := s.obs ++ [.readValue 0] })

/-- What the host cannot read: two states that show the same registers and the same six fields of every
channel read the same at every offset, whatever their volume, tunables and hidden channel fields (R51). -/
def Obligations.ReadsDoNotShowHiddenState : Prop :=
  ∀ (s t : State) (off : Nat),
    s.cfg = t.cfg → s.arg = t.arg → s.status = t.status → s.out = t.out →
    s.chanSel = t.chanSel → s.ch.map shown = t.ch.map shown → memRead s off = memRead t off

/-! ### Reset (10_state.md R52, 70_reset_and_hazards.md) -/

/-- The reset values, for every configuration (R52). -/
def Obligations.ResetGivesEveryStateItsStatedValue : Prop :=
  ∀ k : Cfg,
    (State.resetOf k).arg = 0x00000000#32 ∧ (State.resetOf k).status = 0x00000001#32 ∧
    (State.resetOf k).out = 0x00000000#32 ∧ (State.resetOf k).chanSel = 0x00000000#32 ∧
    (State.resetOf k).vol = k.volumeInit ∧
    (∀ i : Nat, (State.resetOf k).ch[i]? = if i < k.nVoices then
        some ({ live := false, released := false, note := 0#7, instr := 0#8, vel := ⟨0#32⟩,
                mode := .attack, val := ⟨0#32⟩, tgt := ⟨0#32⟩, phi := ⟨0#32⟩, p1 := ⟨0#32⟩,
                p2 := ⟨0#32⟩, lphi := ⟨0#32⟩, lp := ⟨0#32⟩, nz := 0#24, fs := ⟨0#32⟩ } : Channel)
      else none) ∧
    (∀ i : Nat, (State.resetOf k).inst[i]? = (k.instrs[i]?).map fun d =>
      { coef := cutoffCoef k d.cutoffInit, duty := d.dutyInit, depth := d.depthInit })

/-- `INIT` (R250) from its words to its effect: the reset state but for `ARG` and `CHAN_SEL`, which reset
sets to 0 (R331). That a reset is an event between two accesses, which keeps the rest of the stream and what
the run has shown, is the model's reading (notes/assumptions/11.md). -/
def Obligations.InitGivesTheResetStateButTwoRegisters : Prop :=
  ZWords 1 .init ∧
  (∀ s : State, exec .init s = .next
    { State.resetOf s.cfg with
      arg := s.arg, chanSel := s.chanSel, pending := s.pending, obs := s.obs }) ∧
  (∀ (s : State) (rest : List HostEvent), s.cfg.wellFormed = true → s.pending = .reset :: rest →
    step s = .next
      { State.resetOf s.cfg with
        arg := 0, chanSel := 0, status := 0x00000001#32, pending := rest, obs := s.obs })

/-! ### Result codes (60_exceptions.md) -/

/-- Which command ends with which code, and that exactly one code applies (R303, R304); a register access
that runs no command never writes `STATUS`. -/
def Obligations.CommandsEndWithTheTabledCode : Prop :=
  (∀ (s : State) (w : Word), ∃ t code,
    execute s w = .next t ∧ CodeFor s w code ∧ (∀ c, CodeFor s w c → c = code) ∧
    t.status = resultWord (liveVoices t) code.value.toNat (decide (code = .ok))) ∧
  (∀ (s t : State) (addr width : Nat) (v : Word), ¬ (width = 32 ∧ addr % 256 = 0) →
    takeEvent s (.write addr width v) = .next t → t.status = s.status) ∧
  (∀ (s t : State) (addr width : Nat),
    takeEvent s (.read addr width) = .next t → t.status = s.status)

/-- Every command ends with one status write; a failed one leaves everything else as it was; none writes
`ARG` (R302). -/
def Obligations.FailedCommandsChangeOnlyStatus : Prop :=
  ∀ (s t : State) (w : Word), execute s w = .next t →
    t.arg = s.arg ∧
    (∃ code : ResultCode,
      t.status = resultWord (liveVoices t) code.value.toNat (decide (code = .ok))) ∧
    (t.status.toNat % 2 = 0 → t = { s with status := t.status })

/-- Who writes what: `vol` only `SET_VOLUME` and `INIT`, `OUT` only `SAMPLE` and `INIT`, the tunables only
`SET_PARAM` and `INIT`; no command writes `ARG` or `CHAN_SEL` (R34, R35, R36, R46, R216). -/
def Obligations.EachRegisterHasItsOnlyWriters : Prop :=
  ∀ (i : Instr) (s t : State), exec i s = .next t →
    (t.vol ≠ s.vol → i = .setVolume ∨ i = .init) ∧
    (t.out ≠ s.out → i = .sample ∨ i = .init) ∧
    (t.inst ≠ s.inst → i = .init ∨ ∃ group raw, i = .setParam group raw) ∧
    t.arg = s.arg ∧ t.chanSel = s.chanSel ∧ t.cfg = s.cfg ∧ t.pending = s.pending ∧ t.obs = s.obs

/-! ### The voice pool (44_voice_pool_mixer.md) -/

/-- A `NOTE_ON` with legal operands binds the lowest Dead channel, whatever other channels hold the same
pair, and gives every field of it the stated value; nothing else changes but `STATUS`
(R251, R252, R142, R174, R176, R187, R217). -/
def Obligations.NoteOnBindsTheFirstDeadChannel : Prop :=
  NWords 2 .noteOn ∧
  ∀ (s : State) (note instr : BitVec 8) (d : InstrDesc) (t : Tunables) (i : Nat) (c : Channel),
    note.toNat ≤ 127 → s.cfg.instrs[instr.toNat]? = some d → s.inst[instr.toNat]? = some t →
    fLe fZero ⟨s.arg⟩ = true → fLe ⟨s.arg⟩ fOne = true →
    s.ch[i]? = some c → c.live = false → (∀ j < i, ∀ b, s.ch[j]? = some b → b.live = true) →
    exec (.noteOn note instr) s = .next
      { s with
        status := resultWord (liveVoices s + 1) 0 true
        ch := s.ch.set i
          { live := true, released := false, note := BitVec.ofNat 7 note.toNat, instr := instr,
            vel := ⟨s.arg⟩, mode := .attack, val := ⟨0#32⟩, tgt := ⟨0x3FCA7E36#32⟩,
            phi := ⟨0#32⟩, p1 := ⟨0#32⟩, lphi := ⟨0#32⟩, lp := ⟨0#32⟩,
            p2 := if d.osc = .pulse then sq (wrap (fAdd fZero (fMul fTwo t.duty))) else ⟨0#32⟩,
            nz := s.cfg.noiseSeed, fs := ⟨0#32⟩ } }

/-- When `NOTE_ON` fails, and that it then changes `STATUS` alone: an operand out of range, a full pool
(R251, R262). The second clause says by value which velocities are out of range: a NaN, either infinity, a
number below 0 or above 1. -/
def Obligations.NoteOnFailsWithoutTouchingAVoice : Prop :=
  ∀ (s : State) (note instr : BitVec 8),
    ((127 < note.toNat ∨ s.cfg.nInstr ≤ instr.toNat ∨
        ¬ (fLe fZero ⟨s.arg⟩ = true ∧ fLe ⟨s.arg⟩ fOne = true)) →
      exec (.noteOn note instr) s =
        .next { s with status := resultWord (liveVoices s) 4 false }) ∧
    (isFinite ⟨s.arg⟩ = false ∨ scaled ⟨s.arg⟩ < 0 ∨ 1 * 2 ^ 149 < scaled ⟨s.arg⟩ →
      exec (.noteOn note instr) s =
        .next { s with status := resultWord (liveVoices s) 4 false }) ∧
    (note.toNat ≤ 127 → instr.toNat < s.cfg.nInstr →
      fLe fZero ⟨s.arg⟩ = true → fLe ⟨s.arg⟩ fOne = true → (∀ c ∈ s.ch, c.live = true) →
      exec (.noteOn note instr) s =
        .next { s with status := resultWord s.ch.length 1 false })

/-- A `NOTE_OFF` marks the lowest live, unreleased channel of the pair released and changes nothing else
but `STATUS`; without one, or with an operand out of range, it changes `STATUS` alone (R253). -/
def Obligations.NoteOffReleasesTheFirstMatch : Prop :=
  NWords 3 .noteOff ∧
  ∀ (s : State) (note instr : BitVec 8),
    (∀ (i : Nat) (c : Channel), note.toNat ≤ 127 → instr.toNat < s.cfg.nInstr →
      s.ch[i]? = some c → c.live = true → c.released = false →
      c.note.toNat = note.toNat → c.instr = instr →
      (∀ j < i, ∀ b, s.ch[j]? = some b →
        ¬ (b.live = true ∧ b.released = false ∧ b.note.toNat = note.toNat ∧ b.instr = instr)) →
      exec (.noteOff note instr) s = .next
        { s with
          status := resultWord (liveVoices s) 0 true
          ch := s.ch.set i { c with released := true } }) ∧
    (note.toNat ≤ 127 → instr.toNat < s.cfg.nInstr →
      (∀ b ∈ s.ch,
        ¬ (b.live = true ∧ b.released = false ∧ b.note.toNat = note.toNat ∧ b.instr = instr)) →
      exec (.noteOff note instr) s =
        .next { s with status := resultWord (liveVoices s) 2 false }) ∧
    ((127 < note.toNat ∨ s.cfg.nInstr ≤ instr.toNat) →
      exec (.noteOff note instr) s =
        .next { s with status := resultWord (liveVoices s) 4 false })

/-- `KILL` makes every channel Dead and changes nothing else but `STATUS` (R254). -/
def Obligations.KillOnlyClearsLive : Prop :=
  ZWords 4 .kill ∧
  ∀ s : State, exec .kill s = .next
    { s with status := 0x00000001#32, ch := s.ch.map fun c => { c with live := false } }

/-- The channel lifecycle, for every command and for the platform's reset: Dead to Live by `NOTE_ON` alone;
a live channel is marked released by `NOTE_OFF` alone and never unmarked; Live to Dead by `SAMPLE` on an
envelope that entered Killed, which never leaves such a channel live, and by `KILL` and `INIT`, which leave
every channel Dead, as reset does (R41). -/
def Obligations.ChannelLifecycleHasNoOtherTransition : Prop :=
  (∀ (i : Instr) (s t : State) (j : Nat) (c c' : Channel), exec i s = .next t →
    s.ch[j]? = some c → t.ch[j]? = some c' →
    (c.live = false → c'.live = true →
      (∃ note instr, i = .noteOn note instr) ∧ c'.released = false) ∧
    (c.live = true → c'.live = true → c'.released = c.released ∨
      (c.released = false ∧ c'.released = true ∧ ∃ note instr, i = .noteOff note instr)) ∧
    (c.live = true → c'.live = false →
      (i = .sample ∧ c'.mode = .killed) ∨ i = .kill ∨ i = .init) ∧
    (i = .sample → c.live = true → c'.mode = .killed → c'.live = false) ∧
    (i = .kill ∨ i = .init → c'.live = false)) ∧
  (∀ (s t : State), takeEvent s .reset = .next t → ∀ c ∈ t.ch, c.live = false)

/-- After every step the live voices are at most `N_VOICES`, `STATUS.LIVE` (bits 15:8) is their number,
`CODE` (bits 7:4) is at most 4 and is 0 exactly where `OK` (bit 0) is 1, and the reserved bits are 0
(R33, R43, R262, R301). -/
def Obligations.LiveFieldCountsTheVoices : Prop :=
  ∀ s t : State, Inv s → step s = .next t →
    liveVoices t ≤ t.cfg.nVoices ∧ t.status.toNat / 256 % 256 = liveVoices t ∧
    t.status.toNat / 65536 = 0 ∧ t.status.toNat / 2 % 8 = 0 ∧
    t.status.toNat / 16 % 16 ≤ 4 ∧ (t.status.toNat / 16 % 16 = 0 ↔ t.status.toNat % 2 = 1)

/-! ### Instrument parameters and volume (43_instrument_params.md) -/

/-- `SET_VOLUME` (R230), from its words to its effect. -/
def Obligations.SetVolumeTakesAnyFiniteGain : Prop :=
  ZWords 5 .setVolume ∧
  ∀ s : State,
    (isFinite ⟨s.arg⟩ = true → exec .setVolume s = .next
      { s with vol := ⟨s.arg⟩, status := resultWord (liveVoices s) 0 true }) ∧
    (isFinite ⟨s.arg⟩ = false → exec .setVolume s = .next
      { s with status := resultWord (liveVoices s) 4 false })

/-- `SET_PARAM` (R231), from its words to its effect: the one tunable of the knob's instrument takes the
knob's value, a cutoff through its coefficient; everything else but `STATUS` is unchanged, the voices'
own state among it. -/
def Obligations.SetParamWritesOneTunable : Prop :=
  PWords 6 .setParam ∧
  ∀ (s : State) (group : BitVec 8) (raw : BitVec 12),
    (∀ (kn : KnobDesc) (t : Tunables) (v tt : F32),
      s.cfg.knobs[group.toNat]? = some kn → s.inst[kn.instr]? = some t →
      v = fAdd kn.lo (fMul (fSub kn.hi kn.lo) (fDiv (fOfNat raw.toNat) ⟨0x457FF000#32⟩)) →
      tt = fMul s.cfg.kCutoff v →
      exec (.setParam group raw) s = .next
        { s with
          status := resultWord (liveVoices s) 0 true
          inst := s.inst.set kn.instr
            (match kn.tunable with
             | .cutoff => { t with coef := fDiv tt (fAdd tt fOne) }
             | .duty => { t with duty := v }
             | .depth => { t with depth := v }) }) ∧
    (s.cfg.nKnob ≤ group.toNat → exec (.setParam group raw) s = .next
      { s with status := resultWord (liveVoices s) 4 false })

/-- `RAW = 0` gives `lo`, as a value, where `hi - lo` does not overflow (R232). -/
def Obligations.KnobAtZeroGivesLo : Prop :=
  ∀ kn : KnobDesc, isFinite kn.lo = true → isFinite (fSub kn.hi kn.lo) = true →
    isFinite (knobValue kn 0#12) = true ∧ scaled (knobValue kn 0#12) = scaled kn.lo

/-! ### The mixer (44_voice_pool_mixer.md) -/

/-- `SAMPLE` (R255), from its word to its effect: every live channel's oscillator, filter and envelope run
once, each on its own channel; those whose envelope entered Killed are Dead and add nothing (R257); the
others add `(x * lv) * vel` in ascending order from +0.0 (R258); `OUT` is the scaled, truncated,
saturated sum (R259); everything else but `STATUS` is unchanged. What the three evaluations compute is
written out in `SawFollowsItsEquations` to `EnvelopeFollowsItsEquations`. -/
def Obligations.SampleMixesTheLiveVoices : Prop :=
  ZWords 7 .sample ∧
  ∀ s : State, exec .sample s = .next
    { s with
      ch := s.ch.map (afterSample s)
      out := (sat16 (fMul (fMul (fMul (sampleSum s) s.vol) s.cfg.headroom)
        ⟨0x46FFFE00#32⟩)).signExtend 32
      status := resultWord ((s.ch.map (afterSample s)).filter (·.live)).length 0 true }

/-- With no live channel `SAMPLE` writes `OUT = 0` whatever the volume, and changes no channel (R255). -/
def Obligations.SampleOfNoVoicesIsZero : Prop :=
  ∀ s : State, (∀ c ∈ s.ch, c.live = false) →
    exec .sample s = .next { s with out := 0x00000000#32, status := 0x00000001#32 }

/-- `sat16` (R15): NaN gives 0, values at or beyond the bounds saturate, infinities among them (R259), the rest
is rounded toward zero; and `OUT` holds that integer sign-extended. -/
def Obligations.Sat16TruncatesAndSaturates : Prop :=
  ∀ y : F32,
    (isNaN y = true → (outWord y).toInt = 0) ∧
    (fLe ⟨0x46FFFE00#32⟩ y = true → (outWord y).toInt = 32767) ∧
    (fLe y ⟨0xC7000000#32⟩ = true → (outWord y).toInt = -32768) ∧
    (isInf y = true → (outWord y).toInt = if negOf y then -32768 else 32767) ∧
    (isFinite y = true → 32767 * 2 ^ 149 ≤ scaled y → (outWord y).toInt = 32767) ∧
    (isFinite y = true → scaled y ≤ -32768 * 2 ^ 149 → (outWord y).toInt = -32768) ∧
    (isFinite y = true → -32768 * 2 ^ 149 < scaled y → scaled y < 32767 * 2 ^ 149 →
      (outWord y).toInt = Int.tdiv (scaled y) (2 ^ 149))

/-! ### The channel's evaluation (40_envelope.md, 41_oscillator.md, 42_filter.md) -/

/-- What an evaluation of a channel may change, and what it reads (R38, R140, R186, R210, R211): each
oscillator kind its own fields, a filter `fs`, the envelope `mode`, `val` and `tgt`. Two channels `c` and `b`
and two tunables `t` and `u` that agree on the fields an evaluation reads give the same output and the same new
values of the fields it writes. -/
def Obligations.EachEvaluationKeepsToItsFields : Prop :=
  ∀ (k : Cfg) (d : InstrDesc) (t u : Tunables) (c b : Channel) (x : F32),
    (d.osc = .noise →
      (oscEval k d t c).2 = { c with nz := (oscEval k d t c).2.nz } ∧
      (b.nz = c.nz → (oscEval k d u b).1 = (oscEval k d t c).1 ∧
        (oscEval k d u b).2.nz = (oscEval k d t c).2.nz)) ∧
    (d.osc = .saw →
      (oscEval k d t c).2 =
        { c with phi := (oscEval k d t c).2.phi, p1 := (oscEval k d t c).2.p1,
                 lphi := (oscEval k d t c).2.lphi, lp := (oscEval k d t c).2.lp } ∧
      (b.note = c.note → b.phi = c.phi → b.p1 = c.p1 →
        (d.vib = true → b.lphi = c.lphi ∧ b.lp = c.lp ∧ u.depth = t.depth) →
        (oscEval k d u b).1 = (oscEval k d t c).1 ∧
        (oscEval k d u b).2.phi = (oscEval k d t c).2.phi ∧
        (oscEval k d u b).2.p1 = (oscEval k d t c).2.p1 ∧
        (d.vib = true → (oscEval k d u b).2.lphi = (oscEval k d t c).2.lphi ∧
          (oscEval k d u b).2.lp = (oscEval k d t c).2.lp))) ∧
    (d.osc = .pulse →
      (oscEval k d t c).2 =
        { c with phi := (oscEval k d t c).2.phi, p1 := (oscEval k d t c).2.p1,
                 p2 := (oscEval k d t c).2.p2,
                 lphi := (oscEval k d t c).2.lphi, lp := (oscEval k d t c).2.lp } ∧
      (b.note = c.note → b.phi = c.phi → b.p1 = c.p1 → b.p2 = c.p2 → u.duty = t.duty →
        (d.vib = true → b.lphi = c.lphi ∧ b.lp = c.lp ∧ u.depth = t.depth) →
        (oscEval k d u b).1 = (oscEval k d t c).1 ∧
        (oscEval k d u b).2.phi = (oscEval k d t c).2.phi ∧
        (oscEval k d u b).2.p1 = (oscEval k d t c).2.p1 ∧
        (oscEval k d u b).2.p2 = (oscEval k d t c).2.p2 ∧
        (d.vib = true → (oscEval k d u b).2.lphi = (oscEval k d t c).2.lphi ∧
          (oscEval k d u b).2.lp = (oscEval k d t c).2.lp))) ∧
    (d.vib = false → (oscEval k d t c).2.lphi = c.lphi ∧ (oscEval k d t c).2.lp = c.lp) ∧
    (filtEval d t c x).2 = { c with fs := (filtEval d t c x).2.fs } ∧
    (d.filt = .none → (filtEval d t c x).2.fs = c.fs ∧ (filtEval d t c x).1 = x) ∧
    (b.fs = c.fs → u.coef = t.coef →
      (filtEval d u b x).1 = (filtEval d t c x).1 ∧
      (filtEval d u b x).2.fs = (filtEval d t c x).2.fs) ∧
    (envEval d c).2 = { c with mode := (envEval d c).2.mode, val := (envEval d c).2.val,
                               tgt := (envEval d c).2.tgt } ∧
    (b.released = c.released → b.mode = c.mode → b.val = c.val → b.tgt = c.tgt →
      (envEval d b).1 = (envEval d c).1 ∧ (envEval d b).2.mode = (envEval d c).2.mode ∧
      (envEval d b).2.val = (envEval d c).2.val ∧ (envEval d b).2.tgt = (envEval d c).2.tgt)

/-- In Release the level does not increase (R147, R152): from a level in [0, 1] toward a target in [-1, 0]
at a rate in (0, 1]. -/
def Obligations.ReleaseLevelNeverRises : Prop :=
  ∀ (d : InstrDesc) (c : Channel), c.mode = .release →
    rateOk d.release = true → inUnit c.val = true →
    fLe fMinusOne c.tgt = true → fLe c.tgt fZero = true →
    fLe (envEval d c).2.val c.val = true

/-- Zero-level release (R153, R335): a voice released at level +0.0 goes to Release toward -0.0, keeps its
level at zero, is never Killed, and so stays: the second clause is what holds ever after. -/
def Obligations.ZeroLevelReleaseNeverEnds : Prop :=
  (∀ (d : InstrDesc) (c : Channel), rateOk d.release = true → c.released = true →
    c.mode = .attack ∨ c.mode = .decay → c.val = fZero →
    (envEval d c).2 = { c with mode := .release, tgt := ⟨0x80000000#32⟩ } ∧
      (envEval d c).1 = fZero) ∧
  (∀ (d : InstrDesc) (c : Channel), rateOk d.release = true → c.mode = .release →
    c.val = fZero → c.tgt = ⟨0x80000000#32⟩ → envEval d c = (fZero, c))

/-- Attack with rate 1.0 reaches Decay on its first evaluation, at level 1.0 (R145). -/
def Obligations.AttackRateOneEndsAtOnce : Prop :=
  ∀ (d : InstrDesc) (c : Channel), d.attack = ⟨0x3F800000#32⟩ → c.released = false →
    envEval d (envInit c) =
      (⟨0x3F800000#32⟩,
        { c with mode := .decay, val := ⟨0x3F800000#32⟩, tgt := d.sustain })

/-- `ATTACK_TARGET` is the binary32 number nearest to e/(e-1) (R141), and `RELEASE_FACTOR` the one nearest to
-1/(e-1) (R150). -/
def Obligations.EnvelopeConstantsAreNearest : Prop :=
  ∀ z : F32, isFinite z = true →
    |(scaled attackTarget : ℝ) / 2 ^ 149 - Real.exp 1 / (Real.exp 1 - 1)|
      ≤ |(scaled z : ℝ) / 2 ^ 149 - Real.exp 1 / (Real.exp 1 - 1)| ∧
    |(scaled releaseFactor : ℝ) / 2 ^ 149 - -1 / (Real.exp 1 - 1)|
      ≤ |(scaled z : ℝ) / 2 ^ 149 - -1 / (Real.exp 1 - 1)|

/-- The noise register never reaches zero: the xorshift step is invertible and maps only zero to zero, the
seed is not zero, and no step of the machine leaves a live NOISE voice with a zero register (R178, R180,
R181). -/
def Obligations.NoiseRegisterIsNeverZero : Prop :=
  (∀ k : Cfg, k.wellFormed = true →
    Function.Injective (xorshift k) ∧ (∀ x, xorshift k x = 0#24 ↔ x = 0#24) ∧
    k.noiseSeed ≠ 0#24) ∧
  (∀ s t : State, Inv s → step s = .next t → ∀ c ∈ t.ch, c.live = true →
    (instrDesc t.cfg c.instr).osc = .noise → c.nz ≠ 0#24)

/-- `noise_out` is exact at each of its three steps, and its result lies in [-1 + 2^-23, 1 - 2^-23]
(R179). -/
def Obligations.NoiseOutputIsExact : Prop :=
  ∀ x : BitVec 24, x ≠ 0#24 →
    isFinite (noiseOut x) = true ∧
    scaled (fOfNat x.toNat) = (x.toNat : Int) * 2 ^ 149 ∧
    scaled (fDiv (fOfNat x.toNat) f8388608) = (x.toNat : Int) * 2 ^ 126 ∧
    scaled (noiseOut x) = ((x.toNat : Int) - 2 ^ 23) * 2 ^ 126 ∧
    (1 - 2 ^ 23) * 2 ^ 126 ≤ scaled (noiseOut x) ∧ scaled (noiseOut x) ≤ (2 ^ 23 - 1) * 2 ^ 126

/-- One correction of `wrap` brings a phase in [-3, 3) into [-1, 1), exactly (R15, R171). -/
def Obligations.WrapBringsThePhaseIntoRange : Prop :=
  ∀ p : F32, isFinite p = true → -3 * 2 ^ 149 ≤ scaled p → scaled p < 3 * 2 ^ 149 →
    isFinite (wrap p) = true ∧ -1 * 2 ^ 149 ≤ scaled (wrap p) ∧ scaled (wrap p) < 1 * 2 ^ 149 ∧
    (scaled (wrap p) = scaled p ∨ scaled (wrap p) = scaled p - 2 * 2 ^ 149 ∨
      scaled (wrap p) = scaled p + 2 * 2 ^ 149)

/-- Vibrato leaves the increment at the note's own table entry for note 127, whose neighbour is itself
(R184), and for depth 0 (R182), where the LFO's scaled output is finite. -/
def Obligations.VibratoLeavesTopNoteAndDepthZeroAlone : Prop :=
  ∀ (k : Cfg) (t : Tunables) (n : Nat) (lfo : F32), k.wellFormed = true → n < 128 →
    (isFinite (fMul lfo t.depth) = true → n = 127 → vibratoInc k t n lfo = phaseIncAt k n) ∧
    (isFinite lfo = true → isZero t.depth = true → vibratoInc k t n lfo = phaseIncAt k n)

/-- Right after note-on (`fs` = +0.0) a filter of coefficient 0 is transparent (HP) or silent (LP)
(R212, R213). -/
def Obligations.ZeroCoefficientFilters : Prop :=
  ∀ (t : Tunables) (c : Channel) (x : F32), isFinite x = true → t.coef = fZero → c.fs = fZero →
    isFinite (filtHp t c x).1 = true ∧ scaled (filtHp t c x).1 = scaled x ∧
    (filtHp t c x).2 = c ∧ (filtLp t c x).1 = fZero ∧ (filtLp t c x).2 = c

/-- The coefficient of a cutoff lies in [0, 1) while `K_CUTOFF * fc` is at most 2^23 (R215). -/
def Obligations.CutoffCoefficientIsBelowOne : Prop :=
  ∀ (k : Cfg) (fc : F32), positiveOk k.kCutoff = true → cutoffOk fc = true →
    fLe (fMul k.kCutoff fc) f8388608 = true →
    fLe fZero (cutoffCoef k fc) = true ∧ fLt (cutoffCoef k fc) fOne = true

/-- R215's remark for EVERY finite cutoff. It fails in binary32 (notes/assumptions/12.md). -/
def Obligations.CutoffCoefficientIsBelowOneForEveryCutoff : Prop :=
  ∀ (k : Cfg) (fc : F32), k.wellFormed = true → cutoffOk fc = true →
    fLe fZero (cutoffCoef k fc) = true ∧ fLt (cutoffCoef k fc) fOne = true

/-! ### Binary32 arithmetic (00_scope.md R12) -/

/-- A sum or difference of finite numbers that is finite is the exact one rounded to nearest, ties to
even. -/
def Obligations.AddAndSubRoundToNearestEven : Prop :=
  ∀ x y : F32, isFinite x = true → isFinite y = true →
    (isFinite (fAdd x y) = true → NearestEven (scaled x + scaled y) 1 (fAdd x y)) ∧
    (isFinite (fSub x y) = true → NearestEven (scaled x - scaled y) 1 (fSub x y))

/-- A product or quotient of finite numbers that is finite is the exact one rounded to nearest, ties to
even. -/
def Obligations.MulAndDivRoundToNearestEven : Prop :=
  ∀ x y : F32, isFinite x = true → isFinite y = true →
    (isFinite (fMul x y) = true →
      NearestEven (scaled x * scaled y) (2 ^ 149) (fMul x y)) ∧
    (isFinite (fDiv x y) = true → isZero y = false →
      NearestEven (scaled x * 2 ^ 149) (scaled y) (fDiv x y))

/-- A sum, difference, product or quotient of finite numbers is infinite, with the sign of the exact result,
exactly where that lies at or beyond the midpoint 2^128 - 2^103 above the greatest finite number; and a finite
number that is not zero, divided by a zero, is infinite. -/
def Obligations.OverflowGivesInfinity : Prop :=
  ∀ x y : F32, isFinite x = true → isFinite y = true →
    (isInf (fAdd x y) = true ↔ (2 ^ 25 - 1) * 2 ^ 252 ≤ |scaled x + scaled y|) ∧
    (isInf (fAdd x y) = true → (negOf (fAdd x y) = true ↔ scaled x + scaled y < 0)) ∧
    (isInf (fSub x y) = true ↔ (2 ^ 25 - 1) * 2 ^ 252 ≤ |scaled x - scaled y|) ∧
    (isInf (fSub x y) = true → (negOf (fSub x y) = true ↔ scaled x - scaled y < 0)) ∧
    (isInf (fMul x y) = true ↔ (2 ^ 25 - 1) * 2 ^ 401 ≤ |scaled x * scaled y|) ∧
    (isInf (fMul x y) = true → (negOf (fMul x y) = true ↔ scaled x * scaled y < 0)) ∧
    (isZero y = false →
      (isInf (fDiv x y) = true ↔
        (2 ^ 25 - 1) * 2 ^ 252 * |scaled y| ≤ |scaled x| * 2 ^ 149) ∧
      (isInf (fDiv x y) = true → (negOf (fDiv x y) = true ↔ scaled x * scaled y < 0))) ∧
    (isZero y = true → isZero x = false →
      isInf (fDiv x y) = true ∧ (negOf (fDiv x y) = true ↔ negOf x ≠ negOf y))

/-- An operation gives a NaN exactly for a NaN operand, for infinities that cancel, for zero times
infinity, and for zero by zero or infinity by infinity; which NaN is free (notes/assumptions/7.md). -/
def Obligations.NaNOnlyFromNaNOrInvalidOperation : Prop :=
  ∀ x y : F32,
    (isNaN (fAdd x y) = true ↔ isNaN x = true ∨ isNaN y = true ∨
      (isInf x = true ∧ isInf y = true ∧ negOf x ≠ negOf y)) ∧
    (isNaN (fSub x y) = true ↔ isNaN x = true ∨ isNaN y = true ∨
      (isInf x = true ∧ isInf y = true ∧ negOf x = negOf y)) ∧
    (isNaN (fMul x y) = true ↔ isNaN x = true ∨ isNaN y = true ∨
      (isInf x = true ∧ isZero y = true) ∨ (isZero x = true ∧ isInf y = true)) ∧
    (isNaN (fDiv x y) = true ↔ isNaN x = true ∨ isNaN y = true ∨
      (isInf x = true ∧ isInf y = true) ∨ (isZero x = true ∧ isZero y = true))

/-- The comparisons are those of the values: -0 equals +0, plus infinity is above and minus infinity below
every other number and equal to itself, and any comparison with a NaN is false. -/
def Obligations.ComparisonsFollowTheValues : Prop :=
  ∀ x y : F32,
    (isFinite x = true → isFinite y = true →
      (fLt x y = true ↔ scaled x < scaled y) ∧ (fLe x y = true ↔ scaled x ≤ scaled y)) ∧
    (isInf x = true → isFinite y = true →
      (fLt x y = true ↔ negOf x = true) ∧ (fLe x y = true ↔ negOf x = true) ∧
      (fLt y x = true ↔ negOf x = false) ∧ (fLe y x = true ↔ negOf x = false)) ∧
    (isInf x = true → isInf y = true →
      (fLt x y = true ↔ negOf x = true ∧ negOf y = false) ∧
      (fLe x y = true ↔ negOf x = true ∨ negOf y = false)) ∧
    (isNaN x = true ∨ isNaN y = true → fLt x y = false ∧ fLe x y = false)

/-! ### Scripts (30_encoding.md R110, R111) -/

/-- Every script operation stands for the accesses R110 and R111 give it: `wr` and `rd` of each register of
20_memory.md R71, the commands without an operand, the commands with fields by the rule's own word (and for
values that fit their fields the encoder's word), and the pseudo-commands the write of `ARG` and then of `CMD`;
a float literal is rounded to nearest, ties to even. For operands that do not fit their fields, taking the rule's
word in 32-bit arithmetic, where a shift can lose bits, is the model's choice (notes/assumptions/13.md). -/
def Obligations.ScriptOperationsStandForTheirWords : Prop :=
  (∀ (base : Nat) (v : Word) (r : HostReg) (off : Nat),
    (r, off) ∈ [(HostReg.cmd, 0x00), (HostReg.arg, 0x04), (HostReg.status, 0x08), (HostReg.out, 0x0C),
      (HostReg.chanSel, 0x10), (HostReg.chanInfo, 0x14), (HostReg.config, 0x18),
      (HostReg.chanEnv, 0x1C)] →
    (ScriptOp.wr r v).expand base = [.write (base + off) 32 v] ∧
    (ScriptOp.rd r).expand base = [.read (base + off) 32]) ∧
  (∀ base : Nat,
    ScriptOp.init.expand base = [.write base 32 (encode .init)] ∧
    ScriptOp.kill.expand base = [.write base 32 (encode .kill)] ∧
    ScriptOp.sample.expand base = [.write base 32 (encode .sample)]) ∧
  (∀ (base : Nat) (a b : Word) (v : Decimal),
    (ScriptOp.noteOn a b v).expand base =
      [.write (base + 4) 32 v.toF32.bits, .write base 32 (0x20000000#32 ||| b <<< 8 ||| a)] ∧
    (ScriptOp.noteOff a b).expand base = [.write base 32 (0x30000000#32 ||| b <<< 8 ||| a)] ∧
    (ScriptOp.setParam a b).expand base = [.write base 32 (0x60000000#32 ||| a <<< 16 ||| b)] ∧
    (ScriptOp.setVolume v).expand base =
      [.write (base + 4) 32 v.toF32.bits, .write base 32 (encode .setVolume)]) ∧
  (∀ (base : Nat) (note instr : BitVec 8) (v : Decimal),
    (ScriptOp.noteOn (note.zeroExtend 32) (instr.zeroExtend 32) v).expand base =
      [.write (base + 4) 32 v.toF32.bits, .write base 32 (encode (.noteOn note instr))] ∧
    (ScriptOp.noteOff (note.zeroExtend 32) (instr.zeroExtend 32)).expand base =
      [.write base 32 (encode (.noteOff note instr))]) ∧
  (∀ (base : Nat) (group : BitVec 8) (raw : BitVec 12),
    (ScriptOp.setParam (group.zeroExtend 32) (raw.zeroExtend 32)).expand base =
      [.write base 32 (encode (.setParam group raw))]) ∧
  (∀ v : Decimal, isFinite v.toF32 = true →
    NearestEven ((if v.neg then -1 else 1) * v.digits * 2 ^ 149) (10 ^ v.scale) v.toF32)

/-! ### Invariants -/

/-- Every step keeps the invariant (R33, R35, R36, R37, R40, R44, R181). -/
def Obligations.StepKeepsTheInvariant : Prop :=
  ∀ s t : State, Inv s → step s = .next t → Inv t

/-- Every step keeps every live voice's level in [0, 1] and its target the one of its mode (R152): in
Attack by the clamp, in Decay through the rounding, in Release because the level does not rise. -/
def Obligations.StepKeepsTheLevels : Prop :=
  ∀ s t : State, Inv s → LevelInv s → step s = .next t → LevelInv t

/-- The reset state of every well-formed configuration meets both invariants, and so does `State.reset`,
whose configuration is the model's choice (notes/assumptions/2.md). -/
def Obligations.ResetMeetsTheInvariants : Prop :=
  (∀ k : Cfg, k.wellFormed = true → Inv (State.resetOf k) ∧ LevelInv (State.resetOf k)) ∧
  Inv State.reset ∧ LevelInv State.reset

/-! ### The evaluations' equations (40_envelope.md, 41_oscillator.md, 42_filter.md) -/

/-- SAW (R172, R173, R182): the carrier's increment, one DPW step of the channel's own phase with the note's own
normalization (R185), and nothing else. The rules `CarrierRule` and `DpwRule` each fix their results. -/
def Obligations.SawFollowsItsEquations : Prop :=
  ∀ (k : Cfg) (d : InstrDesc) (t : Tunables) (c : Channel), k.wellFormed = true → d.osc = .saw →
    ∃ inc lphi lp norm phi p y : F32,
      CarrierRule k d t c inc lphi lp ∧ k.dpwNorm[c.note.toNat]? = some norm ∧
      DpwRule c.phi c.p1 inc norm phi p y ∧
      oscEval k d t c = (y, { c with phi := phi, p1 := p, lphi := lphi, lp := lp })

/-- PULSE (R175, R182): saw 1 from the channel's phase, saw 2 at the offset `2.0 * duty` from saw 1's new phase
(R177), each differenced with its own previous square, and the output saw 1 minus saw 2. -/
def Obligations.PulseFollowsItsEquations : Prop :=
  ∀ (k : Cfg) (d : InstrDesc) (t : Tunables) (c : Channel), k.wellFormed = true → d.osc = .pulse →
    ∃ inc lphi lp norm phi1 phi2 q1 q2 : F32,
      CarrierRule k d t c inc lphi lp ∧ k.dpwNorm[c.note.toNat]? = some norm ∧
      WrapRule (fAdd c.phi inc) phi1 ∧ q1 = fMul phi1 phi1 ∧
      WrapRule (fAdd phi1 (fMul ⟨0x40000000#32⟩ t.duty)) phi2 ∧ q2 = fMul phi2 phi2 ∧
      oscEval k d t c =
        (fSub (fMul (fSub q1 c.p1) norm) (fMul (fSub q2 c.p2) norm),
          { c with phi := phi1, p1 := q1, p2 := q2, lphi := lphi, lp := lp })

/-- NOISE (R178, R179), in whole-number arithmetic: left, right, left, each shift cut to 24 bits, and the output
from the new register. -/
def Obligations.NoiseFollowsItsEquations : Prop :=
  ∀ (k : Cfg) (d : InstrDesc) (t : Tunables) (c : Channel), d.osc = .noise →
    ∃ x1 x2 x3 : Nat,
      x1 = c.nz.toNat ^^^ (c.nz.toNat * 2 ^ k.xsA % 2 ^ 24) ∧
      x2 = x1 ^^^ (x1 / 2 ^ k.xsB) ∧
      x3 = x2 ^^^ (x2 * 2 ^ k.xsC % 2 ^ 24) ∧ x3 < 2 ^ 24 ∧
      oscEval k d t c =
        (fSub (fDiv (fOfNat x3) ⟨0x4B000000#32⟩) ⟨0x3F800000#32⟩,
          { c with nz := BitVec.ofNat 24 x3 })

/-- LP and HP (R212, R213) for every coefficient, state and input. -/
def Obligations.FiltersFollowTheirEquations : Prop :=
  ∀ (d : InstrDesc) (t : Tunables) (c : Channel) (x y : F32),
    (d.filt = .lp → y = fAdd c.fs (fMul t.coef (fSub x c.fs)) →
      filtEval d t c x = (y, { c with fs := y })) ∧
    (d.filt = .hp → y = fMul (fSub ⟨0x3F800000#32⟩ t.coef) (fAdd x c.fs) →
      filtEval d t c x = (y, { c with fs := fSub y x }))

/-- The envelope in full (R151, from R143 to R149): a released channel in Attack or Decay enters Release from the
level it has and steps toward its new target at once; Attack ends at 1.0; Decay has no exit of its own; Release
ends below 0 with the level kept; Killed changes nothing. -/
def Obligations.EnvelopeFollowsItsEquations : Prop :=
  ∀ (d : InstrDesc) (c : Channel) (v g : F32),
    (c.mode = .attack → c.released = false → v = stepped d.attack c.val c.tgt →
      (fLe ⟨0x3F800000#32⟩ v = true → envEval d c =
        (⟨0x3F800000#32⟩, { c with mode := .decay, val := ⟨0x3F800000#32⟩, tgt := d.sustain })) ∧
      (fLe ⟨0x3F800000#32⟩ v = false → envEval d c = (v, { c with val := v }))) ∧
    (c.mode = .decay → c.released = false → v = stepped d.decay c.val c.tgt →
      envEval d c = (v, { c with val := v })) ∧
    ((c.mode = .release ∧ g = c.tgt) ∨
        (c.released = true ∧ (c.mode = .attack ∨ c.mode = .decay) ∧
          g = fMul ⟨0xBF14FC6D#32⟩ c.val) →
      v = stepped d.release c.val g →
      (fLt v ⟨0x00000000#32⟩ = true → envEval d c =
        (⟨0xBF800000#32⟩, { c with mode := .killed, val := v, tgt := g })) ∧
      (fLt v ⟨0x00000000#32⟩ = false → envEval d c =
        (v, { c with mode := .release, val := v, tgt := g }))) ∧
    (c.mode = .killed → envEval d c = (⟨0xBF800000#32⟩, c))

/-! ### Binary32 infinities and signs (00_scope.md R12) -/

/-- What infinite operands give, and the signs that the value does not show: of an exact sum of zero, and of
every product and quotient that is not a NaN (IEEE 754 under round to nearest). -/
def Obligations.InfinitiesAndSignsFollowIeee : Prop :=
  ∀ x y : F32,
    (isInf x = true → isFinite y = true →
      fAdd x y = x ∧ fAdd y x = x ∧ fSub x y = x ∧ fSub y x = fNeg x ∧
      isInf (fDiv x y) = true ∧ isZero (fDiv y x) = true ∧
      (isZero y = false → isInf (fMul x y) = true ∧ isInf (fMul y x) = true)) ∧
    (isInf x = true → isInf y = true →
      isInf (fMul x y) = true ∧ (negOf x = negOf y → fAdd x y = x) ∧
      (negOf x ≠ negOf y → fSub x y = x)) ∧
    (isNaN (fMul x y) = false → (negOf (fMul x y) = true ↔ negOf x ≠ negOf y)) ∧
    (isNaN (fDiv x y) = false → (negOf (fDiv x y) = true ↔ negOf x ≠ negOf y)) ∧
    (isFinite x = true → isFinite y = true → scaled x + scaled y = 0 →
      isZero (fAdd x y) = true ∧
        (negOf (fAdd x y) = true ↔ negOf x = true ∧ negOf y = true)) ∧
    (isFinite x = true → isFinite y = true → scaled x - scaled y = 0 →
      isZero (fSub x y) = true ∧
        (negOf (fSub x y) = true ↔ negOf x = true ∧ negOf y = false))
end

