-- ==== Sys2Proof/Laws/State.lean ====
section
/-! SUPPORT. One lemma per field per update of the state, so that no proof unfolds a record update. -/

namespace Sys2Proof.Machine

section
variable (s : State) (v : Word)
@[simp] theorem withArg_arg : (withArg s v).arg = v := rfl
@[simp] theorem withArg_status : (withArg s v).status = s.status := rfl
@[simp] theorem withArg_out : (withArg s v).out = s.out := rfl
@[simp] theorem withArg_chanSel : (withArg s v).chanSel = s.chanSel := rfl
@[simp] theorem withArg_ch : (withArg s v).ch = s.ch := rfl
@[simp] theorem withArg_inst : (withArg s v).inst = s.inst := rfl
@[simp] theorem withArg_vol : (withArg s v).vol = s.vol := rfl
@[simp] theorem withArg_pending : (withArg s v).pending = s.pending := rfl
@[simp] theorem withArg_obs : (withArg s v).obs = s.obs := rfl
@[simp] theorem withArg_cfg : (withArg s v).cfg = s.cfg := rfl
end

section
variable (s : State) (v : Word)
@[simp] theorem withStatus_arg : (withStatus s v).arg = s.arg := rfl
@[simp] theorem withStatus_status : (withStatus s v).status = v := rfl
@[simp] theorem withStatus_out : (withStatus s v).out = s.out := rfl
@[simp] theorem withStatus_chanSel : (withStatus s v).chanSel = s.chanSel := rfl
@[simp] theorem withStatus_ch : (withStatus s v).ch = s.ch := rfl
@[simp] theorem withStatus_inst : (withStatus s v).inst = s.inst := rfl
@[simp] theorem withStatus_vol : (withStatus s v).vol = s.vol := rfl
@[simp] theorem withStatus_pending : (withStatus s v).pending = s.pending := rfl
@[simp] theorem withStatus_obs : (withStatus s v).obs = s.obs := rfl
@[simp] theorem withStatus_cfg : (withStatus s v).cfg = s.cfg := rfl
end

section
variable (s : State) (v : Word)
@[simp] theorem withOut_arg : (withOut s v).arg = s.arg := rfl
@[simp] theorem withOut_status : (withOut s v).status = s.status := rfl
@[simp] theorem withOut_out : (withOut s v).out = v := rfl
@[simp] theorem withOut_chanSel : (withOut s v).chanSel = s.chanSel := rfl
@[simp] theorem withOut_ch : (withOut s v).ch = s.ch := rfl
@[simp] theorem withOut_inst : (withOut s v).inst = s.inst := rfl
@[simp] theorem withOut_vol : (withOut s v).vol = s.vol := rfl
@[simp] theorem withOut_pending : (withOut s v).pending = s.pending := rfl
@[simp] theorem withOut_obs : (withOut s v).obs = s.obs := rfl
@[simp] theorem withOut_cfg : (withOut s v).cfg = s.cfg := rfl
end

section
variable (s : State) (v : Word)
@[simp] theorem withChanSel_arg : (withChanSel s v).arg = s.arg := rfl
@[simp] theorem withChanSel_status : (withChanSel s v).status = s.status := rfl
@[simp] theorem withChanSel_out : (withChanSel s v).out = s.out := rfl
@[simp] theorem withChanSel_chanSel : (withChanSel s v).chanSel = v := rfl
@[simp] theorem withChanSel_ch : (withChanSel s v).ch = s.ch := rfl
@[simp] theorem withChanSel_inst : (withChanSel s v).inst = s.inst := rfl
@[simp] theorem withChanSel_vol : (withChanSel s v).vol = s.vol := rfl
@[simp] theorem withChanSel_pending : (withChanSel s v).pending = s.pending := rfl
@[simp] theorem withChanSel_obs : (withChanSel s v).obs = s.obs := rfl
@[simp] theorem withChanSel_cfg : (withChanSel s v).cfg = s.cfg := rfl
end

section
variable (s : State) (v : List Channel)
@[simp] theorem withCh_arg : (withCh s v).arg = s.arg := rfl
@[simp] theorem withCh_status : (withCh s v).status = s.status := rfl
@[simp] theorem withCh_out : (withCh s v).out = s.out := rfl
@[simp] theorem withCh_chanSel : (withCh s v).chanSel = s.chanSel := rfl
@[simp] theorem withCh_ch : (withCh s v).ch = v := rfl
@[simp] theorem withCh_inst : (withCh s v).inst = s.inst := rfl
@[simp] theorem withCh_vol : (withCh s v).vol = s.vol := rfl
@[simp] theorem withCh_pending : (withCh s v).pending = s.pending := rfl
@[simp] theorem withCh_obs : (withCh s v).obs = s.obs := rfl
@[simp] theorem withCh_cfg : (withCh s v).cfg = s.cfg := rfl
end

section
variable (s : State) (v : List Tunables)
@[simp] theorem withInst_arg : (withInst s v).arg = s.arg := rfl
@[simp] theorem withInst_status : (withInst s v).status = s.status := rfl
@[simp] theorem withInst_out : (withInst s v).out = s.out := rfl
@[simp] theorem withInst_chanSel : (withInst s v).chanSel = s.chanSel := rfl
@[simp] theorem withInst_ch : (withInst s v).ch = s.ch := rfl
@[simp] theorem withInst_inst : (withInst s v).inst = v := rfl
@[simp] theorem withInst_vol : (withInst s v).vol = s.vol := rfl
@[simp] theorem withInst_pending : (withInst s v).pending = s.pending := rfl
@[simp] theorem withInst_obs : (withInst s v).obs = s.obs := rfl
@[simp] theorem withInst_cfg : (withInst s v).cfg = s.cfg := rfl
end

section
variable (s : State) (v : F32)
@[simp] theorem withVol_arg : (withVol s v).arg = s.arg := rfl
@[simp] theorem withVol_status : (withVol s v).status = s.status := rfl
@[simp] theorem withVol_out : (withVol s v).out = s.out := rfl
@[simp] theorem withVol_chanSel : (withVol s v).chanSel = s.chanSel := rfl
@[simp] theorem withVol_ch : (withVol s v).ch = s.ch := rfl
@[simp] theorem withVol_inst : (withVol s v).inst = s.inst := rfl
@[simp] theorem withVol_vol : (withVol s v).vol = v := rfl
@[simp] theorem withVol_pending : (withVol s v).pending = s.pending := rfl
@[simp] theorem withVol_obs : (withVol s v).obs = s.obs := rfl
@[simp] theorem withVol_cfg : (withVol s v).cfg = s.cfg := rfl
end

section
variable (s : State) (v : List HostEvent)
@[simp] theorem withPending_arg : (withPending s v).arg = s.arg := rfl
@[simp] theorem withPending_status : (withPending s v).status = s.status := rfl
@[simp] theorem withPending_out : (withPending s v).out = s.out := rfl
@[simp] theorem withPending_chanSel : (withPending s v).chanSel = s.chanSel := rfl
@[simp] theorem withPending_ch : (withPending s v).ch = s.ch := rfl
@[simp] theorem withPending_inst : (withPending s v).inst = s.inst := rfl
@[simp] theorem withPending_vol : (withPending s v).vol = s.vol := rfl
@[simp] theorem withPending_pending : (withPending s v).pending = v := rfl
@[simp] theorem withPending_obs : (withPending s v).obs = s.obs := rfl
@[simp] theorem withPending_cfg : (withPending s v).cfg = s.cfg := rfl
end

section
variable (s : State) (v : List Observation)
@[simp] theorem withObs_arg : (withObs s v).arg = s.arg := rfl
@[simp] theorem withObs_status : (withObs s v).status = s.status := rfl
@[simp] theorem withObs_out : (withObs s v).out = s.out := rfl
@[simp] theorem withObs_chanSel : (withObs s v).chanSel = s.chanSel := rfl
@[simp] theorem withObs_ch : (withObs s v).ch = s.ch := rfl
@[simp] theorem withObs_inst : (withObs s v).inst = s.inst := rfl
@[simp] theorem withObs_vol : (withObs s v).vol = s.vol := rfl
@[simp] theorem withObs_pending : (withObs s v).pending = s.pending := rfl
@[simp] theorem withObs_obs : (withObs s v).obs = v := rfl
@[simp] theorem withObs_cfg : (withObs s v).cfg = s.cfg := rfl
end

end Sys2Proof.Machine
end

