-- ==== Sys2Proof/Laws/Ops.lean ====
section
/-! SUPPORT. What each shared operation of Machine/Ops.lean can do, said once. -/

namespace Sys2Proof.Machine

open Sys2Proof.Safety

/-- The layout of `STATUS` for every count, result and code that fits its fields. -/
theorem statusWord_small : ∀ (m : Fin 256) (b : Bool),
    statusWord m.val b .ok = resultWord m.val 0 b ∧
    statusWord m.val b .poolExhausted = resultWord m.val 1 b ∧
    statusWord m.val b .noMatch = resultWord m.val 2 b ∧
    statusWord m.val b .illegal = resultWord m.val 3 b ∧
    statusWord m.val b .badOperand = resultWord m.val 4 b := by decide +kernel

/-- The layout of `STATUS` (10_state.md R33) as arithmetic. -/
theorem statusWord_eq (n : Nat) (ok : Bool) (code : ResultCode) :
    statusWord n ok code = resultWord n code.value.toNat ok := by
  have h8 : BitVec.ofNat 8 n = BitVec.ofNat 8 (n % 256) := by
    apply BitVec.eq_of_toNat_eq; simp
  have h1 : statusWord n ok code = statusWord (n % 256) ok code := by
    simp only [statusWord, ← h8]
  have h2 : resultWord n code.value.toNat ok = resultWord (n % 256) code.value.toNat ok := by
    simp only [resultWord, Nat.mod_mod]
  rw [h1, h2]
  obtain ⟨ha, hb, hc, hd, he⟩ := statusWord_small ⟨n % 256, Nat.mod_lt _ (by norm_num)⟩ ok
  cases code
  · exact ha
  · exact hb
  · exact hc
  · exact hd
  · exact he

/-- The two counts of live channels agree. -/
theorem liveVoices_eq (s : State) : liveVoices s = liveCount s := by
  simp [liveVoices, liveCount, List.countP_eq_length_filter]

section
variable (s : State) (ok : Bool) (code : ResultCode)

@[simp] theorem statusWrite_arg : (statusWrite s ok code).arg = s.arg := rfl
@[simp] theorem statusWrite_out : (statusWrite s ok code).out = s.out := rfl
@[simp] theorem statusWrite_chanSel : (statusWrite s ok code).chanSel = s.chanSel := rfl
@[simp] theorem statusWrite_ch : (statusWrite s ok code).ch = s.ch := rfl
@[simp] theorem statusWrite_inst : (statusWrite s ok code).inst = s.inst := rfl
@[simp] theorem statusWrite_vol : (statusWrite s ok code).vol = s.vol := rfl
@[simp] theorem statusWrite_cfg : (statusWrite s ok code).cfg = s.cfg := rfl
@[simp] theorem statusWrite_pending : (statusWrite s ok code).pending = s.pending := rfl
@[simp] theorem statusWrite_obs : (statusWrite s ok code).obs = s.obs := rfl

/-- `status_write` (60_exceptions.md R302). -/
@[simp] theorem statusWrite_status :
    (statusWrite s ok code).status = resultWord (liveVoices s) code.value.toNat ok := by
  rw [liveVoices_eq, ← statusWord_eq]; rfl

end

theorem succeed_eq (s : State) : succeed s = .next (statusWrite s true .ok) := rfl

theorem raiseError_eq (s : State) (code : ResultCode) :
    raiseError s code = .next (statusWrite s false code) := rfl

/-- The scan of `NOTE_ON` (R251): the lowest Dead channel. -/
theorem firstDead_eq_some {s : State} {i : Nat} :
    firstDead s = some i ↔ ∃ h : i < s.ch.length, s.ch[i].live = false ∧
      ∀ j (hj : j < i), (s.ch[j]'(by omega)).live = true := by
  simp [firstDead, List.findIdx?_eq_some_iff_getElem]

theorem firstDead_eq_none {s : State} : firstDead s = none ↔ ∀ c ∈ s.ch, c.live = true := by
  simp [firstDead, List.findIdx?_eq_none_iff]

/-- The match of `NOTE_OFF` (R253). -/
theorem matchesPair_iff {note instr : BitVec 8} {c : Channel} :
    matchesPair note instr c = true ↔ c.live = true ∧ c.released = false ∧
      c.note.toNat = note.toNat ∧ c.instr = instr := by
  simp [matchesPair, and_assoc]

/-- The scan of `NOTE_OFF` (R253): the lowest channel that matches. -/
theorem firstMatch_eq_some {s : State} {note instr : BitVec 8} {i : Nat} :
    firstMatch s note instr = some i ↔ ∃ h : i < s.ch.length,
      matchesPair note instr s.ch[i] = true ∧
      ∀ j (hj : j < i), ¬ matchesPair note instr (s.ch[j]'(by omega)) = true := by
  simp [firstMatch, List.findIdx?_eq_some_iff_getElem]

theorem firstMatch_eq_none {s : State} {note instr : BitVec 8} :
    firstMatch s note instr = none ↔ ∀ c ∈ s.ch, matchesPair note instr c = false := by
  simp [firstMatch, List.findIdx?_eq_none_iff]

@[simp] theorem modifyChannel_ch (s : State) (i : Nat) (f : Channel → Channel) :
    (modifyChannel s i f).ch = s.ch.modify i f := rfl

@[simp] theorem modifyInst_inst (s : State) (i : Nat) (f : Tunables → Tunables) :
    (modifyInst s i f).inst = s.inst.modify i f := rfl

/-- Rewriting a channel that exists is setting it. -/
theorem modifyChannel_of_getElem? {s : State} {i : Nat} {c : Channel} (h : s.ch[i]? = some c)
    (f : Channel → Channel) : modifyChannel s i f = withCh s (s.ch.set i (f c)) := by
  obtain ⟨hi, hc⟩ := List.getElem?_eq_some_iff.1 h
  simp [modifyChannel, List.modify_eq_set_getElem?, h]

/-- Rewriting tunables that exist is setting them. -/
theorem modifyInst_of_getElem? {s : State} {i : Nat} {t : Tunables} (h : s.inst[i]? = some t)
    (f : Tunables → Tunables) : modifyInst s i f = withInst s (s.inst.set i (f t)) := by
  obtain ⟨hi, hc⟩ := List.getElem?_eq_some_iff.1 h
  simp [modifyInst, List.modify_eq_set_getElem?, h]

/-- The table check of a configuration counts the entries. -/
theorem lengthIs_iff (n : Nat) (l : List F32) : lengthIs n l = true ↔ l.length = n := by
  induction l generalizing n with
  | nil => cases n <;> simp [lengthIs]
  | cons a l ih => cases n <;> simp [lengthIs, ih]

end Sys2Proof.Machine
end

