-- ==== Sys2Proof/Laws/Voice.lean ====
section
/-! SUPPORT. What the evaluation of a channel can do: the envelope's cases, the fields each part keeps,
and the mixer's pass as a map and a sum. -/

namespace Sys2Proof.Machine

open Sys2Proof.Safety

/-- The release entry (40_envelope.md R143): either it does nothing, or it enters Release. -/
theorem releaseEntry_cases (c : Channel) :
    (¬ (c.released = true ∧ (c.mode = .attack ∨ c.mode = .decay)) ∧ releaseEntry c = c) ∨
    (c.released = true ∧ (c.mode = .attack ∨ c.mode = .decay) ∧
      releaseEntry c = { c with mode := .release, tgt := fMul releaseFactor c.val }) := by
  unfold releaseEntry
  by_cases h : c.released = true ∧ (c.mode = .attack ∨ c.mode = .decay)
  · exact .inr ⟨h.1, h.2, by rw [if_pos h]⟩
  · exact .inl ⟨h, by rw [if_neg h]⟩

/-- Everything one evaluation of the envelope can do, after the release entry (R151). -/
theorem envEval_cases (d : InstrDesc) (c b : Channel) (hb : b = releaseEntry c) :
    (b.mode = .attack ∧ fLe fOne (approach d.attack b.val b.tgt) = true ∧
      envEval d c = (fOne, { b with val := fOne, mode := .decay, tgt := d.sustain })) ∨
    (b.mode = .attack ∧ fLe fOne (approach d.attack b.val b.tgt) = false ∧
      envEval d c = (approach d.attack b.val b.tgt,
        { b with val := approach d.attack b.val b.tgt })) ∨
    (b.mode = .decay ∧ envEval d c = (approach d.decay b.val b.tgt,
        { b with val := approach d.decay b.val b.tgt })) ∨
    (b.mode = .release ∧ fLt (approach d.release b.val b.tgt) fZero = true ∧
      envEval d c = (killedSentinel,
        { b with val := approach d.release b.val b.tgt, mode := .killed })) ∨
    (b.mode = .release ∧ fLt (approach d.release b.val b.tgt) fZero = false ∧
      envEval d c = (approach d.release b.val b.tgt,
        { b with val := approach d.release b.val b.tgt })) ∨
    (b.mode = .killed ∧ envEval d c = (killedSentinel, b)) := by
  subst hb
  simp only [envEval, attackStep, decayStep, releaseStep]
  cases hm : (releaseEntry c).mode
  · cases hv : fLe fOne (approach d.attack (releaseEntry c).val (releaseEntry c).tgt) <;> simp
  · simp
  · cases hv : fLt (approach d.release (releaseEntry c).val (releaseEntry c).tgt) fZero <;> simp
  · simp

/-- The fields that no part of an evaluation touches. -/
def binding (c : Channel) : Bool × Bool × BitVec 7 × BitVec 8 × F32 :=
  (c.live, c.released, c.note, c.instr, c.vel)

theorem oscEval_binding (k : Cfg) (d : InstrDesc) (t : Tunables) (c : Channel) :
    binding (oscEval k d t c).2 = binding c := by
  unfold oscEval oscSaw oscPulse oscNoise carrierInc
  cases d.osc <;> cases d.vib <;> rfl

/-- An oscillator does not touch the envelope. -/
theorem oscEval_envelope (k : Cfg) (d : InstrDesc) (t : Tunables) (c : Channel) :
    (oscEval k d t c).2.mode = c.mode ∧ (oscEval k d t c).2.val = c.val ∧
      (oscEval k d t c).2.tgt = c.tgt := by
  unfold oscEval oscSaw oscPulse oscNoise carrierInc
  cases d.osc <;> cases d.vib <;> exact ⟨rfl, rfl, rfl⟩

/-- Only the NOISE oscillator touches the noise register. -/
theorem oscEval_nz (k : Cfg) (d : InstrDesc) (t : Tunables) (c : Channel) :
    (oscEval k d t c).2.nz = if d.osc = .noise then xorshift k c.nz else c.nz := by
  unfold oscEval oscSaw oscPulse oscNoise carrierInc
  cases d.osc <;> cases d.vib <;> rfl

/-- A filter writes `fs` alone (42_filter.md R210). -/
theorem filtEval_channel (d : InstrDesc) (t : Tunables) (c : Channel) (x : F32) :
    (filtEval d t c x).2 = { c with fs := (filtEval d t c x).2.fs } := by
  unfold filtEval filtLp filtHp
  cases d.filt <;> rfl

/-- The envelope writes `mode`, `val` and `tgt` alone (R140). -/
theorem envEval_binding (d : InstrDesc) (c : Channel) :
    binding (envEval d c).2 = binding c ∧ (envEval d c).2.nz = c.nz := by
  have hr : binding (releaseEntry c) = binding c ∧ (releaseEntry c).nz = c.nz := by
    rcases releaseEntry_cases c with ⟨-, h⟩ | ⟨-, -, h⟩ <;> rw [h] <;> exact ⟨rfl, rfl⟩
  rcases envEval_cases d c _ rfl with h | h | h | h | h | h <;>
    (simp only [h]; exact hr)

/-- A voice's evaluation keeps its binding. -/
theorem voiceEval_binding (k : Cfg) (inst : List Tunables) (c : Channel) :
    binding (voiceEval k inst c).c = binding c := by
  unfold voiceEval
  simp only []
  rw [(envEval_binding _ _).1, filtEval_channel]
  exact oscEval_binding _ _ _ _

/-- A voice's evaluation steps the noise register for a NOISE instrument and keeps it for any other. -/
theorem voiceEval_nz (k : Cfg) (inst : List Tunables) (c : Channel) :
    (voiceEval k inst c).c.nz =
      if (instrDesc k c.instr).osc = .noise then xorshift k c.nz else c.nz := by
  unfold voiceEval
  simp only []
  rw [(envEval_binding _ _).2, filtEval_channel]
  exact oscEval_nz _ _ _ _

/-- The pass as a map: what becomes of a channel does not depend on the sum. -/
theorem channelTurn_snd (k : Cfg) (inst : List Tunables) (acc acc' : F32) (c : Channel) :
    (channelTurn k inst acc c).2 = (channelTurn k inst acc' c).2 := by
  by_cases hl : c.live = true <;> by_cases hk : (voiceEval k inst c).c.mode = .killed <;>
    simp [channelTurn, hl, hk]

theorem mixPass_snd (k : Cfg) (inst : List Tunables) (acc : F32) (cs : List Channel) :
    (mixPass k inst acc cs).2 = cs.map fun c => (channelTurn k inst fZero c).2 := by
  induction cs generalizing acc with
  | nil => rfl
  | cons c cs ih => simp [mixPass, ih, channelTurn_snd k inst acc fZero]

/-- The pass as a sum over the channels in ascending order (44_voice_pool_mixer.md R258). -/
theorem mixPass_fst (k : Cfg) (inst : List Tunables) (acc : F32) (cs : List Channel) :
    (mixPass k inst acc cs).1 = cs.foldl (fun a c => (channelTurn k inst a c).1) acc := by
  induction cs generalizing acc with
  | nil => rfl
  | cons c cs ih => simp [mixPass, ih]

/-- `wrap` takes exactly one of the rule's three ways (00_scope.md R15). -/
theorem wrap_rule (p : F32) : WrapRule p (wrap p) := by
  unfold WrapRule wrap
  split_ifs with h1 h2
  · exact .inl ⟨h1, rfl⟩
  · exact .inr (.inl ⟨h2, rfl⟩)
  · exact .inr (.inr ⟨by simpa [fOne] using h1, by simpa [fMinusOne] using h2, rfl⟩)

/-- `dpw_step` follows its rule (41_oscillator.md R172). -/
theorem dpwStep_rule (phi prev inc norm : F32) :
    DpwRule phi prev inc norm (dpwStep phi prev inc norm).phi (dpwStep phi prev inc norm).prev
      (dpwStep phi prev inc norm).y :=
  ⟨wrap_rule _, rfl, rfl⟩

/-- The per-note tables of a well-formed configuration have their 128 entries (00_scope.md R8). -/
theorem table_lengths {k : Cfg} (h : k.wellFormed = true) :
    k.phaseInc.length = 128 ∧ k.dpwNorm.length = 128 := by
  simp only [Cfg.wellFormed, cfgOk, phaseIncOk, dpwNormOk, Bool.and_eq_true, lengthIs_iff] at h
  tauto

/-- The carrier's increment follows its rule (41_oscillator.md R182 to R184). -/
theorem carrierInc_rule {k : Cfg} (h : k.wellFormed = true) (d : InstrDesc) (t : Tunables)
    (c : Channel) :
    CarrierRule k d t c (carrierInc k d t c).1 (carrierInc k d t c).2.lphi
      (carrierInc k d t c).2.lp := by
  have hl := (table_lengths h).1
  have hn := c.note.isLt
  have hi : (if c.note.toNat < 127 then c.note.toNat + 1 else 127) < 128 := by split_ifs <;> omega
  have hmin : min (c.note.toNat + 1) 127 =
      if c.note.toNat < 127 then c.note.toNat + 1 else 127 := by split_ifs <;> omega
  refine ⟨_, _, List.getElem?_eq_getElem (by omega), List.getElem?_eq_getElem (by omega), ?_⟩
  unfold carrierInc
  cases hv : d.vib
  · exact .inl ⟨rfl, by simp [phaseIncAt, List.getD_eq_getElem?_getD, hl, hn], rfl, rfl⟩
  · refine .inr ⟨rfl, _, dpwStep_rule _ _ _ _, ?_⟩
    simp [vibratoInc, hmin, phaseIncAt, List.getD_eq_getElem?_getD, hl, hn, hi]

end Sys2Proof.Machine
end

