-- ==== Sys2Proof/Laws/Access.lean ====
section
/-! SUPPORT. What a command, an access and a step can do, said once. -/

namespace Sys2Proof.Machine

/-- `NOTE_ON` either fails on an operand, fails on a full pool, or binds the first Dead channel (R251). -/
theorem execNoteOn_cases (note instr : BitVec 8) (s : State) :
    ((noteOk note && instrOk s.cfg instr && velocityOk (floatOperand s.arg)) = false ∧
      execNoteOn note instr s = .next (statusWrite s false .badOperand)) ∨
    ((noteOk note && instrOk s.cfg instr && velocityOk (floatOperand s.arg)) = true ∧
      firstDead s = none ∧ execNoteOn note instr s = .next (statusWrite s false .poolExhausted)) ∨
    ((noteOk note && instrOk s.cfg instr && velocityOk (floatOperand s.arg)) = true ∧
      ∃ i, firstDead s = some i ∧ execNoteOn note instr s = .next (statusWrite
        (modifyChannel s i (chInit s.cfg s.inst note instr (floatOperand s.arg))) true .ok)) := by
  unfold execNoteOn
  cases h : noteOk note && instrOk s.cfg instr && velocityOk (floatOperand s.arg)
  · exact .inl ⟨rfl, by simp [h, raiseError]⟩
  · cases hd : firstDead s with
    | none => exact .inr (.inl ⟨rfl, rfl, by simp [h, raiseError]⟩)
    | some i => exact .inr (.inr ⟨rfl, i, rfl, by simp [h, succeed]⟩)

/-- `NOTE_OFF` either fails on an operand, finds no match, or marks the first match released (R253). -/
theorem execNoteOff_cases (note instr : BitVec 8) (s : State) :
    ((noteOk note && instrOk s.cfg instr) = false ∧
      execNoteOff note instr s = .next (statusWrite s false .badOperand)) ∨
    ((noteOk note && instrOk s.cfg instr) = true ∧ firstMatch s note instr = none ∧
      execNoteOff note instr s = .next (statusWrite s false .noMatch)) ∨
    ((noteOk note && instrOk s.cfg instr) = true ∧ ∃ i, firstMatch s note instr = some i ∧
      execNoteOff note instr s = .next (statusWrite
        (modifyChannel s i fun c => { c with released := true }) true .ok)) := by
  unfold execNoteOff
  cases h : noteOk note && instrOk s.cfg instr
  · exact .inl ⟨rfl, by simp [raiseError]⟩
  · cases hd : firstMatch s note instr with
    | none => exact .inr (.inl ⟨rfl, rfl, by simp [raiseError]⟩)
    | some i => exact .inr (.inr ⟨rfl, i, rfl, by simp [succeed]⟩)

/-- `SET_VOLUME` takes a finite gain and refuses any other (R230). -/
theorem execSetVolume_cases (s : State) :
    (gainOk (floatOperand s.arg) = false ∧
      execSetVolume s = .next (statusWrite s false .badOperand)) ∨
    (gainOk (floatOperand s.arg) = true ∧
      execSetVolume s = .next (statusWrite (withVol s (floatOperand s.arg)) true .ok)) := by
  unfold execSetVolume
  cases h : gainOk (floatOperand s.arg)
  · exact .inl ⟨rfl, by simp [h, raiseError]⟩
  · exact .inr ⟨rfl, by simp [h, succeed]⟩

/-- `SET_PARAM` either finds no knob or sets the knob's tunable (R231). -/
theorem execSetParam_cases (group : BitVec 8) (raw : BitVec 12) (s : State) :
    (s.cfg.knobs[group.toNat]? = none ∧
      execSetParam group raw s = .next (statusWrite s false .badOperand)) ∨
    (∃ kn, s.cfg.knobs[group.toNat]? = some kn ∧
      execSetParam group raw s = .next (statusWrite
        (modifyInst s kn.instr (setTunable s.cfg kn.tunable (knobValue kn raw))) true .ok)) := by
  unfold execSetParam
  cases h : s.cfg.knobs[group.toNat]? with
  | none => exact .inl ⟨rfl, rfl⟩
  | some kn => exact .inr ⟨kn, rfl, rfl⟩

/-- An access keeps `noteCommand`'s shape: it adds what the command showed (R343). -/
theorem noteCommand_next (t : State) :
    noteCommand (.next t) = .next (observe t (.command t.status t.out)) := rfl

@[simp] theorem observe_obs (s : State) (o : Observation) : (observe s o).obs = s.obs ++ [o] := rfl
@[simp] theorem observe_pending (s : State) (o : Observation) :
    (observe s o).pending = s.pending := rfl
@[simp] theorem observe_cfg (s : State) (o : Observation) : (observe s o).cfg = s.cfg := rfl
@[simp] theorem observe_ch (s : State) (o : Observation) : (observe s o).ch = s.ch := rfl

/-- A register's offset is the offset the map reads it at (20_memory.md R71). -/
theorem regAt_offset (r : HostReg) : regAt r.offset = some r := by cases r <;> rfl

/-- Inside the window of a `BASE` that is a multiple of 0x100, the low 8 bits are the offset (R70). -/
theorem offsetOf_base (base off : Nat) (hb : base % 256 = 0) (ho : off < 256) :
    offsetOf (base + off) = off := by
  unfold offsetOf; omega

/-- A well-formed configuration has its `BASE` at a multiple of 0x100 (R70). -/
theorem base_of_wellFormed {k : Cfg} (h : k.wellFormed = true) : k.base % 256 = 0 := by
  simp only [Cfg.wellFormed, cfgOk, baseOk, Bool.and_eq_true, decide_eq_true_eq] at h
  exact h.2

/-- The four outcomes of a step: refused, waiting, and the next event, which faults or is taken. -/
theorem step_cases (s : State) :
    (s.cfg.wellFormed = false ∧ step s = .refused .badConfig) ∨
    (s.cfg.wellFormed = true ∧ s.pending = [] ∧ step s = .next s) ∨
    (s.cfg.wellFormed = true ∧ ∃ e rest, s.pending = e :: rest ∧
      step s = takeEvent (withPending s rest) e) := by
  unfold step
  cases hw : s.cfg.wellFormed
  · exact .inl ⟨rfl, rfl⟩
  · cases hp : s.pending with
    | nil => exact .inr (.inl ⟨rfl, rfl, rfl⟩)
    | cons e rest => exact .inr (.inr ⟨rfl, e, rest, rfl, rfl⟩)

end Sys2Proof.Machine
end

