-- ==== Sys2Proof/Laws/Rounding.lean ====
section
/-! SUPPORT. The one law of rounding: which numbers `roundMag` brings down to a given encoding. Its
corollaries say that rounding is monotone and keeps what is representable. -/

namespace Sys2Proof.Laws

open Sys2Proof.Machine

/-- The value, in units of 2^-149, of the number whose bits 30:0 are `m`; at the encoding of infinity it
is 2^128, the value that the next binade would start with. -/
def magValue (m : Nat) : Nat :=
  if m < 2 ^ 23 then m else (2 ^ 23 + m % 2 ^ 23) * 2 ^ (m / 2 ^ 23 - 1)

theorem scaledMag_eq (x : F32) : scaledMag x = magValue (magOf x) := rfl

/-- The encodings of one binade and the one after it hold evenly spaced values. -/
theorem magValue_binade (sh m : Nat) (hm : m ≤ 2 ^ 24) (hlo : sh = 0 ∨ 2 ^ 23 ≤ m) :
    magValue (sh * 2 ^ 23 + m) = m * 2 ^ sh := by
  unfold magValue
  by_cases h1 : m = 2 ^ 24
  · subst h1
    have e1 : (sh * 2 ^ 23 + 2 ^ 24) % 2 ^ 23 = 0 := by omega
    have e2 : (sh * 2 ^ 23 + 2 ^ 24) / 2 ^ 23 - 1 = sh + 1 := by omega
    rw [if_neg (by omega), e1, e2, pow_succ]
    ring
  · by_cases h2 : m < 2 ^ 23
    · have h0 : sh = 0 := by omega
      subst h0
      rw [if_pos (by omega)]
      simp
    · have e1 : (sh * 2 ^ 23 + m) % 2 ^ 23 = m - 2 ^ 23 := by omega
      have e2 : (sh * 2 ^ 23 + m) / 2 ^ 23 - 1 = sh := by omega
      have e3 : 2 ^ 23 + (m - 2 ^ 23) = m := by omega
      rw [if_neg (by omega), e1, e2, e3]

/-- Every encoding lies in a binade. -/
theorem exists_binade (k : Nat) :
    ∃ sh m, k = sh * 2 ^ 23 + m ∧ m < 2 ^ 24 ∧ (sh = 0 ∨ 2 ^ 23 ≤ m) := by
  by_cases h : k < 2 ^ 23
  · exact ⟨0, k, by omega, by omega, .inl rfl⟩
  · exact ⟨k / 2 ^ 23 - 1, k % 2 ^ 23 + 2 ^ 23, by omega, by omega, .inr (by omega)⟩

theorem magValue_lt_succ (k : Nat) : magValue k < magValue (k + 1) := by
  obtain ⟨sh, m, rfl, hm, hlo⟩ := exists_binade k
  rw [magValue_binade sh m (by omega) hlo, add_assoc,
    magValue_binade sh (m + 1) (by omega) (by omega)]
  exact Nat.mul_lt_mul_of_pos_right (by omega) (Nat.two_pow_pos sh)

/-- The encodings order the values. -/
theorem magValue_strictMono : StrictMono magValue := strictMono_nat_of_lt_succ magValue_lt_succ

/-- The bits that `roundMag` starts from: the significand before rounding lies in its binade. -/
theorem significand_bounds (num den : Nat) :
    num / (den * 2 ^ (Nat.log2 (num / den) - 23)) < 2 ^ 24 ∧
      (Nat.log2 (num / den) - 23 = 0 ∨
        2 ^ 23 ≤ num / (den * 2 ^ (Nat.log2 (num / den) - 23))) := by
  rw [← Nat.div_div_eq_div_mul]
  generalize num / den = q
  by_cases h0 : q = 0
  · subst h0; simp
  · have hlo : 2 ^ Nat.log2 q ≤ q := Nat.log2_self_le h0
    have hhi : q < 2 ^ (Nat.log2 q + 1) := Nat.lt_log2_self
    have hp : 0 < 2 ^ (Nat.log2 q - 23) := Nat.two_pow_pos _
    constructor
    · rw [Nat.div_lt_iff_lt_mul hp, ← pow_add]
      exact lt_of_lt_of_le hhi (Nat.pow_le_pow_right (by norm_num) (by omega))
    · by_cases hs : Nat.log2 q ≤ 23
      · left; omega
      · right
        rw [Nat.le_div_iff_mul_le hp, ← pow_add]
        exact le_trans (Nat.pow_le_pow_right (by norm_num) (by omega)) hlo

/-- THE law of rounding (00_scope.md R12, to nearest, ties to even): `num / den` rounds to at most the
encoding `k` exactly where it lies below the midpoint between `k` and the next encoding, or on it with `k`
even. -/
theorem roundMag_le_iff (num den k : Nat) (hd : 0 < den) (hk : k < infMag) :
    roundMag num den ≤ k ↔
      2 * num < (magValue k + magValue (k + 1)) * den ∨
        (2 * num = (magValue k + magValue (k + 1)) * den ∧ k % 2 = 0) := by
  obtain ⟨hmhi, hmlo⟩ := significand_bounds num den
  unfold roundMag
  simp only []
  generalize hsh : Nat.log2 (num / den) - 23 = sh at *
  have hp : 0 < 2 ^ sh := Nat.two_pow_pos sh
  have hdpos : 0 < den * 2 ^ sh := Nat.mul_pos hd hp
  have hsplit : den * 2 ^ sh * (num / (den * 2 ^ sh)) + num % (den * 2 ^ sh) = num :=
    Nat.div_add_mod num _
  have hr : num % (den * 2 ^ sh) < den * 2 ^ sh := Nat.mod_lt _ hdpos
  generalize num / (den * 2 ^ sh) = m at *
  generalize num % (den * 2 ^ sh) = r at *
  have hV0 : magValue (sh * 2 ^ 23 + m) = m * 2 ^ sh := magValue_binade sh m (by omega) hmlo
  have hV1 : magValue (sh * 2 ^ 23 + m + 1) = (m + 1) * 2 ^ sh := by
    rw [add_assoc]; exact magValue_binade sh (m + 1) (by omega) (by omega)
  have e0 : magValue (sh * 2 ^ 23 + m) * den = den * 2 ^ sh * m := by rw [hV0]; ring
  have e1 : magValue (sh * 2 ^ 23 + m + 1) * den = den * 2 ^ sh * m + den * 2 ^ sh := by
    rw [hV1]; ring
  generalize hD : den * 2 ^ sh = d at *
  have hKpar : (sh * 2 ^ 23 + m) % 2 = m % 2 := by omega
  obtain ⟨K, hK⟩ : ∃ K, K = sh * 2 ^ 23 + m := ⟨_, rfl⟩
  obtain ⟨dm, hdm⟩ : ∃ dm, dm = d * m := ⟨_, rfl⟩
  clear hV0 hV1 hmhi hmlo
  rw [← hK] at e0 e1 hKpar ⊢
  rw [← hdm] at hsplit e0 e1
  clear hK hdm
  rw [min_le_iff]
  rcases lt_trichotomy k K with h | h | h
  · have hle : magValue (k + 1) ≤ magValue K := magValue_strictMono.monotone (by omega)
    have hlt : magValue k < magValue K := magValue_strictMono h
    have : (magValue k + magValue (k + 1)) * den < 2 * num := by
      calc (magValue k + magValue (k + 1)) * den
          < (magValue K + magValue K) * den := Nat.mul_lt_mul_of_pos_right (by omega) hd
        _ = 2 * (magValue K * den) := by ring
        _ ≤ 2 * num := by omega
    constructor
    · rintro (h' | h') <;> omega
    · rintro (h' | ⟨h', -⟩) <;> omega
  · subst h
    rw [add_mul, e0, e1]
    split_ifs with hup
    · constructor
      · rintro (h' | h') <;> omega
      · rintro (h' | ⟨h', h''⟩) <;> omega
    · constructor
      · intro _
        by_cases hlt : 2 * r < d
        · left; omega
        · right; omega
      · intro _; left; omega
  · have hle : magValue (K + 1) ≤ magValue k := magValue_strictMono.monotone (by omega)
    have hlt : magValue (K + 1) < magValue (k + 1) := magValue_strictMono (by omega)
    have : 2 * num < (magValue k + magValue (k + 1)) * den := by
      calc 2 * num < 2 * (magValue (K + 1) * den) := by omega
        _ = (magValue (K + 1) + magValue (K + 1)) * den := by ring
        _ ≤ (magValue k + magValue (k + 1)) * den := Nat.mul_le_mul_right _ (by omega)
    constructor
    · intro _; exact .inl this
    · intro _; left; split_ifs <;> omega

theorem roundMag_le_infMag (num den : Nat) : roundMag num den ≤ infMag := Nat.min_le_right _ _

/-- What is representable is kept. -/
theorem roundMag_exact (den k : Nat) (hd : 0 < den) (hk : k ≤ infMag) :
    roundMag (magValue k * den) den = k := by
  have hup : k < infMag → roundMag (magValue k * den) den ≤ k := fun h => by
    rw [roundMag_le_iff _ _ _ hd h]
    left
    have := Nat.mul_lt_mul_of_pos_right (magValue_lt_succ k) hd
    rw [add_mul]; omega
  have hlo : 0 < k → ¬ roundMag (magValue k * den) den ≤ k - 1 := fun h => by
    rw [roundMag_le_iff _ _ _ hd (by omega)]
    have := Nat.mul_lt_mul_of_pos_right (magValue_lt_succ (k - 1)) hd
    rw [Nat.sub_add_cancel h] at this ⊢
    rw [add_mul]; omega
  have := roundMag_le_infMag (magValue k * den) den
  by_cases h : k < infMag
  · have := hup h
    by_cases h0 : 0 < k
    · have := hlo h0; omega
    · omega
  · have := hlo (by unfold infMag at *; omega); omega

/-- Rounding is monotone. -/
theorem roundMag_mono (n1 d1 n2 d2 : Nat) (h1 : 0 < d1) (h2 : 0 < d2) (h : n1 * d2 ≤ n2 * d1) :
    roundMag n1 d1 ≤ roundMag n2 d2 := by
  by_cases hk : roundMag n2 d2 < infMag
  · have hle := (roundMag_le_iff n2 d2 _ h2 hk).1 le_rfl
    rw [roundMag_le_iff n1 d1 _ h1 hk]
    generalize magValue (roundMag n2 d2) + magValue (roundMag n2 d2 + 1) = v at *
    have hmul : 2 * n1 * d2 ≤ 2 * n2 * d1 := by nlinarith
    rcases hle with hle | ⟨hle, he⟩
    · left
      refine Nat.lt_of_mul_lt_mul_right (a := d2) ?_
      calc 2 * n1 * d2 ≤ 2 * n2 * d1 := hmul
        _ < v * d2 * d1 := Nat.mul_lt_mul_of_pos_right hle h1
        _ = v * d1 * d2 := by ring
    · have : 2 * n1 * d2 ≤ v * d1 * d2 := by
        calc 2 * n1 * d2 ≤ 2 * n2 * d1 := hmul
          _ = v * d1 * d2 := by rw [hle]; ring
      have := Nat.le_of_mul_le_mul_right this h2
      rcases Nat.lt_or_eq_of_le this with h' | h'
      · exact .inl h'
      · exact .inr ⟨h', he⟩
  · have := roundMag_le_infMag n1 d1
    omega

end Sys2Proof.Laws
end

