-- ==== Sys2Proof/Laws/Float.lean ====
section
/-! SUPPORT. The small laws of a binary32 encoding: what a packed number's parts are, what kinds of
number there are, and how the order of encodings is that of values. -/

namespace Sys2Proof.Machine

open Sys2Proof.Laws

theorem magOf_lt (x : F32) : magOf x < 2 ^ 31 := Nat.mod_lt _ (by norm_num)

@[simp] theorem magOf_pack (neg : Bool) (m : Nat) (h : m < 2 ^ 31) : magOf (pack neg m) = m := by
  cases neg <;> simp [magOf, pack] <;> omega

@[simp] theorem negOf_pack (neg : Bool) (m : Nat) (h : m < 2 ^ 31) : negOf (pack neg m) = neg := by
  cases neg <;> simp [negOf, pack] <;> omega

/-- A number is its sign and its bits 30:0. -/
theorem pack_parts (x : F32) : pack (negOf x) (magOf x) = x := by
  rcases x with ⟨b⟩
  have := b.isLt
  simp only [pack, negOf, magOf, F32.mk.injEq, decide_eq_true_eq]
  apply BitVec.eq_of_toNat_eq
  simp only [BitVec.toNat_ofNat]
  split_ifs <;> omega

/-- Two numbers with the same sign and the same bits 30:0 are the same number. -/
theorem eq_of_parts {x y : F32} (hn : negOf x = negOf y) (hm : magOf x = magOf y) : x = y := by
  rw [← pack_parts x, ← pack_parts y, hn, hm]

theorem isNaN_iff (x : F32) : isNaN x = true ↔ infMag < magOf x := by simp [isNaN]
theorem isInf_iff (x : F32) : isInf x = true ↔ magOf x = infMag := by simp [isInf]
theorem isFinite_iff (x : F32) : isFinite x = true ↔ magOf x < infMag := by simp [isFinite]
theorem isZero_iff (x : F32) : isZero x = true ↔ magOf x = 0 := by simp [isZero]

/-- A number is exactly one of: finite, infinite, NaN. -/
theorem kind_cases (x : F32) :
    (isFinite x = true ∧ isInf x = false ∧ isNaN x = false) ∨
    (isFinite x = false ∧ isInf x = true ∧ isNaN x = false) ∨
    (isFinite x = false ∧ isInf x = false ∧ isNaN x = true) := by
  simp only [isFinite, isInf, isNaN, decide_eq_true_eq, decide_eq_false_iff_not]
  omega

/-- Whatever the free value, the result is a NaN (R12). -/
theorem isNaN_nanResult (op : FloatOp) (x y : F32) : isNaN (nanResult op x y) = true := by
  have h := (Config.freeNaN op x y).isLt
  rw [isNaN_iff, nanResult, magOf_pack] <;> simp only [infMag] <;> omega

@[simp] theorem negOf_fNeg (x : F32) : negOf (fNeg x) = !negOf x :=
  negOf_pack _ _ (magOf_lt x)

@[simp] theorem magOf_fNeg (x : F32) : magOf (fNeg x) = magOf x :=
  magOf_pack _ _ (magOf_lt x)

@[simp] theorem scaled_fNeg (x : F32) : scaled (fNeg x) = -scaled x := by
  simp only [scaled, scaledMag_eq, negOf_fNeg, magOf_fNeg]
  cases negOf x <;> simp

/-- A finite magnitude is 0 exactly for a zero. -/
theorem scaledMag_eq_zero_iff (x : F32) : scaledMag x = 0 ↔ magOf x = 0 := by
  rw [scaledMag_eq]
  have h0 : magValue 0 = 0 := by decide
  constructor
  · intro h; exact magValue_strictMono.injective (h.trans h0.symm)
  · intro h; rw [h, h0]

/-- The order of the keys is the order of the values (R12's comparisons). -/
theorem ordKey_lt_iff (x y : F32) : ordKey x < ordKey y ↔ scaled x < scaled y := by
  have hlt : ∀ a b : Nat, magValue a < magValue b ↔ a < b := fun a b => magValue_strictMono.lt_iff_lt
  have h0 : ∀ a : Nat, a ≤ magValue a := fun a => magValue_strictMono.le_apply
  have hz : ∀ a : Nat, magValue a = 0 ↔ a = 0 := fun a => by
    have h := magValue_strictMono.injective.eq_iff (a := a) (b := 0)
    rwa [show magValue 0 = 0 by decide] at h
  have hxy := hlt (magOf x) (magOf y)
  have hyx := hlt (magOf y) (magOf x)
  have zx := hz (magOf x)
  have zy := hz (magOf y)
  simp only [ordKey, scaled, scaledMag_eq]
  cases negOf x <;> cases negOf y <;> simp <;> omega

end Sys2Proof.Machine
end

