-- ==== Sys2Proof/Laws/PerInstr.lean ====
section
/-! SUPPORT. A family of statements made per instruction: each instruction's word lies in its row of
spec/opcode_table.json. -/

namespace Sys2Proof.Laws

/-- A row's mask (30_encoding.md R112). -/
def rowMask : Instr → Word
  | .init => 0xFFFFFFFF
  | .noteOn _ _ => 0xFFFF0000
  | .noteOff _ _ => 0xFFFF0000
  | .kill => 0xFFFFFFFF
  | .setVolume => 0xFFFFFFFF
  | .setParam _ _ => 0xFF00F000
  | .sample => 0xFFFFFFFF

/-- A row's match value (R112: `OP << 28`). -/
def rowMatch : Instr → Word
  | .init => 0x10000000
  | .noteOn _ _ => 0x20000000
  | .noteOff _ _ => 0x30000000
  | .kill => 0x40000000
  | .setVolume => 0x50000000
  | .setParam _ _ => 0x60000000
  | .sample => 0x70000000

/-- The instruction's word, under its row's mask, is its row's match value. -/
def TableRow.Statement (i : Instr) : Prop := encode i &&& rowMask i = rowMatch i

/-- The fixed bits of a format N word, whatever its fields. -/
theorem encodeN_mask (op : BitVec 4) (note instr : BitVec 8) :
    encodeN op note instr &&& 0xFFFF0000 = op ++ 0#28 := by
  apply BitVec.eq_of_getLsbD_eq
  intro i hi
  simp only [encodeN, BitVec.getLsbD_and, BitVec.getLsbD_append]
  interval_cases i <;> simp

/-- The fixed bits of a format P word, whatever its fields. -/
theorem encodeP_mask (op : BitVec 4) (group : BitVec 8) (raw : BitVec 12) :
    encodeP op group raw &&& 0xFF00F000 = op ++ 0#28 := by
  apply BitVec.eq_of_getLsbD_eq
  intro i hi
  simp only [encodeP, BitVec.getLsbD_and, BitVec.getLsbD_append]
  interval_cases i <;> simp

theorem TableRow.init : TableRow.Statement .init := by unfold TableRow.Statement; decide
theorem TableRow.noteOn (note instr : BitVec 8) : TableRow.Statement (.noteOn note instr) :=
  (encodeN_mask 0x2#4 note instr).trans rfl
theorem TableRow.noteOff (note instr : BitVec 8) : TableRow.Statement (.noteOff note instr) :=
  (encodeN_mask 0x3#4 note instr).trans rfl
theorem TableRow.kill : TableRow.Statement .kill := by unfold TableRow.Statement; decide
theorem TableRow.setVolume : TableRow.Statement .setVolume := by unfold TableRow.Statement; decide
theorem TableRow.setParam (group : BitVec 8) (raw : BitVec 12) :
    TableRow.Statement (.setParam group raw) :=
  (encodeP_mask 0x6#4 group raw).trans rfl
theorem TableRow.sample : TableRow.Statement .sample := by unfold TableRow.Statement; decide

end Sys2Proof.Laws
end

