-- ==== Sys2Proof/Tests/Slice0.lean ====
section
/-! SUPPORT. The model's own tests. Expected values are the spec's: 95_test_vectors.md (V<section>) and the
worked examples of the rules. The second half shows, for every statement with hypotheses, concrete values
that meet them all. -/

namespace Sys2Proof.Tests

open Sys2Proof Sys2Proof.Machine Sys2Proof.Safety

/-! ### Well-formed configurations: TC is one, and each check refuses an ill-formed one -/

theorem test_tc_wellFormed : testCfg.wellFormed = true := by decide +kernel

theorem test_instr_wellFormed : (Instr.setParam 255 4095).wellFormed = true := by decide

theorem test_refuses_no_voices :
    voicesOk { testCfg with nVoices := 0 } = false := by decide +kernel
theorem test_refuses_256_voices :
    voicesOk { testCfg with nVoices := 256 } = false := by decide +kernel
theorem test_refuses_no_instruments :
    instrCountOk { testCfg with instrs := [] } = false := by decide +kernel
theorem test_refuses_256_knobs :
    knobCountOk { testCfg with knobs := List.replicate 256 (tcKnobs.headD default) } = false := by decide +kernel
theorem test_refuses_short_phase_table :
    phaseIncOk { testCfg with phaseInc := testCfg.phaseInc.drop 1 } = false := by decide +kernel
theorem test_refuses_increment_two :
    phaseIncOk { testCfg with phaseInc := fTwo :: testCfg.phaseInc.drop 1 } = false := by decide +kernel
theorem test_refuses_infinite_norm :
    dpwNormOk { testCfg with dpwNorm := ⟨0x7F800000#32⟩ :: testCfg.dpwNorm.drop 1 } = false := by decide +kernel
theorem test_refuses_long_norm_table :
    dpwNormOk { testCfg with dpwNorm := fOne :: testCfg.dpwNorm } = false := by decide +kernel
theorem test_refuses_zero_lfo :
    lfoOk { testCfg with lfoInc := fZero } = false := by decide +kernel
theorem test_refuses_nan_lfoNorm :
    lfoOk { testCfg with lfoNorm := ⟨0x7FC00000#32⟩ } = false := by decide +kernel
theorem test_refuses_zero_kCutoff :
    scalarsOk { testCfg with kCutoff := fZero } = false := by decide +kernel
theorem test_refuses_negative_headroom :
    scalarsOk { testCfg with headroom := fMinusOne } = false := by decide +kernel
theorem test_refuses_infinite_volume :
    scalarsOk { testCfg with volumeInit := ⟨0x7F800000#32⟩ } = false := by decide +kernel
theorem test_refuses_shift_24 :
    noiseOk { testCfg with xsB := 24 } = false := by decide +kernel
theorem test_refuses_zero_seed :
    noiseOk { testCfg with noiseSeed := 0 } = false := by decide +kernel
theorem test_refuses_base_not_aligned :
    baseOk { testCfg with base := 0x80 } = false := by decide +kernel

/-- A legal instrument for the checks on one instrument. -/
def goodDesc : InstrDesc := tcInstrs.headD default

theorem test_desc_good : instrDescOk goodDesc = true := by decide
theorem test_refuses_zero_attack : instrDescOk { goodDesc with attack := fZero } = false := by decide
theorem test_refuses_decay_above_one : instrDescOk { goodDesc with decay := fTwo } = false := by
  decide
theorem test_refuses_negative_release :
    instrDescOk { goodDesc with release := fMinusOne } = false := by decide
theorem test_refuses_sustain_above_one : instrDescOk { goodDesc with sustain := fTwo } = false := by
  decide
theorem test_refuses_noise_with_vibrato :
    instrDescOk { goodDesc with osc := .noise, vib := true } = false := by decide
theorem test_refuses_negative_cutoff :
    instrDescOk { goodDesc with cutoffInit := fMinusOne } = false := by decide
theorem test_refuses_duty_above_one : instrDescOk { goodDesc with dutyInit := fTwo } = false := by
  decide
theorem test_refuses_nan_depth :
    instrDescOk { goodDesc with depthInit := ⟨0x7FC00000#32⟩ } = false := by decide
theorem test_refuses_knob_of_no_instrument :
    knobDescOk 4 { instr := 4, tunable := .depth, lo := fZero, hi := fOne } = false := by decide
theorem test_refuses_infinite_knob :
    knobDescOk 4 { instr := 0, tunable := .depth, lo := fZero, hi := ⟨0x7F800000#32⟩ } = false := by
  decide
theorem test_refuses_negative_cutoff_knob :
    knobDescOk 4 { instr := 0, tunable := .cutoff, lo := fMinusOne, hi := fOne } = false := by decide
theorem test_refuses_duty_knob_above_one :
    knobDescOk 4 { instr := 0, tunable := .duty, lo := fZero, hi := fTwo } = false := by decide

/-! ### Decoding: one word of every row, written out from V6.1, and the illegal words of V6.1 -/

theorem test_decode_init : decode 0x10000000 = .ok .init := by decide
theorem test_decode_noteOn : decode 0x2000013C = .ok (.noteOn 60 1) := by decide
theorem test_decode_noteOff : decode 0x3000003F = .ok (.noteOff 63 0) := by decide
theorem test_decode_kill : decode 0x40000000 = .ok .kill := by decide
theorem test_decode_setVolume : decode 0x50000000 = .ok .setVolume := by decide
theorem test_decode_setParam : decode 0x60020800 = .ok (.setParam 2 2048) := by decide
theorem test_decode_sample : decode 0x70000000 = .ok .sample := by decide
theorem test_decode_zero : decode 0x00000000 = .error .unassignedOpcode := by decide
theorem test_decode_opcode15 : decode 0xF0000000 = .error .unassignedOpcode := by decide
theorem test_decode_reserved :
    decode 0x10000001 = .error .reservedBits ∧ decode 0x20010000 = .error .reservedBits ∧
      decode 0x61000000 = .error .reservedBits ∧ decode 0x60001000 = .error .reservedBits ∧
      decode 0x70000001 = .error .reservedBits := by decide
theorem test_encode_setParam : encode (.setParam 1 2048) = 0x60010800 := by decide
theorem test_table_word : decodeTableWord 32 0x6002FFFF = none := by decide

/-! ### Binary32 and the helpers -/

theorem test_cutoffCoef_1000 : (cutoffCoef testCfg ⟨0x447A0000#32⟩).bits = 0x3DED0D6E := by
  decide +kernel
theorem test_wrap_three : (wrap ⟨0x40400000#32⟩).bits = 0x3F800000 := by decide +kernel
theorem test_wrap_one : (wrap fOne).bits = 0xBF800000 := by decide +kernel
theorem test_sat16 :
    [0x3F7D70A4#32, 0xBFC00000#32, 0x46FFFDCD#32, 0x471C4000#32, 0xC7000100#32, 0x7FC00000#32].map
      (fun b => sat16Int ⟨b⟩) = [0, -1, 32766, 32767, -32768, 0] := by decide +kernel
theorem test_subnormal_half_to_even :
    (fMul ⟨0x00000001#32⟩ ⟨0x3F000000#32⟩).bits = 0x00000000 ∧
      (fMul ⟨0x00000003#32⟩ ⟨0x3F000000#32⟩).bits = 0x00000002 := by decide +kernel

/-! ### The voice's parts -/

/-- A Dead channel of instrument `i` and note `n`, made live. -/
def voice (i : BitVec 8) (n : BitVec 7) : Channel :=
  { channelZero with live := true, instr := i, note := n, vel := fOne, tgt := attackTarget, nz := 1 }

/-- V3.4 row 1: from 0.53125, rate 0.5, the second Release step kills and keeps its negative level. -/
theorem test_release_kills :
    ((envEval goodDesc { voice 0 63 with
        mode := .release, val := ⟨0x3DE36798#32⟩, tgt := ⟨0xBE9E4C34#32⟩ }).2.val.bits,
      (envEval goodDesc { voice 0 63 with
        mode := .release, val := ⟨0x3DE36798#32⟩, tgt := ⟨0xBE9E4C34#32⟩ }).2.mode)
      = (0xBDCAE49C, .killed) := by decide +kernel
/-- V3.1, k = 2: the step past 1.0 is clamped and ends Attack. -/
theorem test_attack_clamps :
    ((envEval goodDesc { voice 0 63 with val := ⟨0x3F4A7E36#32⟩ }).2.val.bits,
      (envEval goodDesc { voice 0 63 with val := ⟨0x3F4A7E36#32⟩ }).2.mode)
      = (0x3F800000, .decay) := by decide +kernel
/-- V4.4. -/
theorem test_xorshift : xorshift testCfg 1 = 0x000129 ∧ xorshift testCfg 0xFFFFFF = 0x0000E7 := by
  decide +kernel
theorem test_noiseOut : (noiseOut 0x000129).bits = 0xBF7FFDAE ∧ (noiseOut 0x800000).bits = 0 := by
  decide +kernel
/-- V4.5, k = 1: note 63 under vibrato of depth 0.5. -/
theorem test_vibrato_first_sample :
    (oscEval testCfg ((tcInstrs[3]?).getD default) ⟨fZero, fZero, ⟨0x3F000000#32⟩⟩ (voice 3 63)).1.bits
      = 0x3D800040 := by decide +kernel
/-- V4.3, k = 1: -0.5 from `p2` = 0.25. -/
theorem test_pulse_first_sample :
    (oscEval testCfg ((tcInstrs[1]?).getD default) ⟨fZero, ⟨0x3E800000#32⟩, fZero⟩
      { voice 1 127 with p2 := ⟨0x3E800000#32⟩ }).1.bits = 0xBF000000 := by decide +kernel
/-- V5, k = 2 of the step input 1.0. -/
theorem test_lowpass : (filtLp ⟨⟨0x3DED0D6E#32⟩, fZero, fZero⟩
    { voice 1 0 with fs := ⟨0x3DED0D6E#32⟩ } fOne).1.bits = 0x3E5F5550 := by decide +kernel
theorem test_highpass : (filtHp ⟨⟨0x3DED0D6E#32⟩, fZero, fZero⟩
    { voice 2 0 with fs := ⟨0xBDED0D70#32⟩ } fOne).1.bits = 0x3F482AAC := by decide +kernel

/-! ### One step of each command -/

/-- One field of the state after an outcome. -/
def after {α : Type} (o : Host.Outcome State Fault Refusal) (f : State → α) : Option α :=
  match o with
  | .next t => some (f t)
  | _ => none

/-- The reset state with `ARG` = 1.0 and one voice on note 63 of instrument 0. -/
def oneVoice : State :=
  { State.reset with
    arg := 0x3F800000, status := 0x00000101
    ch := voice 0 63 :: State.reset.ch.drop 1 }

/-- V6.5. -/
theorem test_init_keeps_arg : after (exec .init { oneVoice with vol := fTwo })
    (fun t => (t.status, t.arg, t.vol, liveCount t)) = some (0x1, 0x3F800000, fOne, 0) := by
  decide +kernel
/-- V2.3: the second voice goes to channel 1. -/
theorem test_noteOn_second_voice : after (exec (.noteOn 60 1) oneVoice)
    (fun t => (t.status, (t.ch[1]?).map fun c => (c.note, c.instr, c.p2.bits)))
      = some (0x201, some (60, 1, 0x3E800000)) := by decide +kernel
/-- V6.2 row 4. -/
theorem test_noteOn_note_128 : after (exec (.noteOn 128 0) oneVoice) (·.status) = some 0x140 := by
  decide +kernel
theorem test_noteOff_marks : after (exec (.noteOff 63 0) oneVoice)
    (fun t => (t.status, (t.ch[0]?).map (·.released))) = some (0x101, some true) := by decide +kernel
theorem test_noteOff_no_match : after (exec (.noteOff 61 0) oneVoice) (·.status) = some 0x120 := by
  decide +kernel
theorem test_kill : after (exec .kill oneVoice)
    (fun t => (t.status, (t.ch[0]?).map fun c => (c.live, c.note))) = some (0x1, some (false, 63)) := by
  decide +kernel
theorem test_setVolume_half : after (exec .setVolume { oneVoice with arg := 0x3F000000 })
    (fun t => (t.status, t.vol.bits)) = some (0x101, 0x3F000000) := by decide +kernel
/-- V6.2 row 9. -/
theorem test_setVolume_infinite : after (exec .setVolume { oneVoice with arg := 0x7F800000 })
    (fun t => (t.status, t.vol)) = some (0x140, fOne) := by decide +kernel
/-- V6.4. -/
theorem test_setParam_cutoff : after (exec (.setParam 0 4095) State.reset)
    (fun t => (t.inst[1]?).map (·.coef.bits)) = some (some 0x3F393E18) := by decide +kernel
theorem test_setParam_duty : after (exec (.setParam 1 2048) State.reset)
    (fun t => (t.inst[1]?).map (·.duty.bits)) = some (some 0x3F000801) := by decide +kernel
/-- R255's example, first sample. -/
theorem test_sample_first : after (exec .sample oneVoice) (·.out) = some 202 := by decide +kernel
/-- V7, k = 1: two voices, the second of velocity 0.5 as in R258's example. -/
theorem test_sample_two_voices : after (exec .sample { oneVoice with
      ch := [voice 0 63, { voice 0 31 with vel := ⟨0x3F000000#32⟩ }] }) (·.out) = some 253 := by
  decide +kernel

/-! ### The window and the scripts -/

/-- V8. -/
theorem test_read_config : memRead State.reset 0x18 = 0x01030408 := by decide +kernel
theorem test_read_info :
    channelInfo { voice 0 63 with released := true, mode := .release } = 0x00003F0B := by decide
theorem test_misaligned_write_ignored :
    after (takeEvent oneVoice (.write 2 32 0x70000000)) (fun t => decide (t = oneVoice))
      = some true := by decide +kernel
theorem test_chanSel_low_bits :
    after (takeEvent oneVoice (.write 0x10 32 0xFFFFFFFF)) (·.chanSel) = some 0xFF := by
  decide +kernel
theorem test_read_line : readLine ['w', 'r', ' ', 'C', 'M', 'D', ',', ' ', '0', 'x', '7', '_', '0', ';']
    = .op (.wr .cmd 0x70) := by decide
theorem test_read_note_on :
    readLine ['n', 'o', 't', 'e', '_', 'o', 'n', ' ', '6', '3', ',', ' ', '0', ',', ' ', '0', '.', '8']
      = .op (.noteOn 63 0 ⟨false, 8, 1⟩) := by decide
theorem test_literal : (Decimal.toF32 ⟨false, 8, 1⟩).bits = 0x3F4CCCCD := by decide +kernel

/-! ### Values that meet the hypotheses of the statements -/

/-- The one-voice state with this host event pending. -/
def placed (e : HostEvent) : State := { oneVoice with pending := [e] }

theorem wit_DecodeInvertsEncode :
    (Instr.noteOn 255 255).wellFormed = true ∧ (Instr.setParam 255 4095).wellFormed = true ∧
      Instr.sample.wellFormed = true := by decide
theorem wit_EncodeInvertsDecode : decode 0x60FF0FFF = .ok (.setParam 255 4095) := by decide
theorem wit_StepRunsTheDecodedCommand :
    (placed (.write 0 32 0x2000003C)).cfg.wellFormed = true ∧
      (placed (.write 0 32 0x2000003C)).pending
        = .write (placed (.write 0 32 0x2000003C)).cfg.base 32 0x2000003C :: [] ∧
      decode 0x2000003C = .ok (.noteOn 60 0) :=
  ⟨test_tc_wellFormed, rfl, by decide⟩
theorem wit_PlacedInstructionRunsNext : oneVoice.cfg.wellFormed = true := test_tc_wellFormed
theorem wit_IllegalWordOnlyReports :
    (placed (.write 0 32 0x70000001)).cfg.wellFormed = true ∧
      (placed (.write 0 32 0x70000001)).pending
        = .write (placed (.write 0 32 0x70000001)).cfg.base 32 0x70000001 :: [] ∧
      ¬ legalWord 0x70000001 ∧ ¬ legalWord 0x0FFFFFFF ∧ ¬ legalWord 0x80000000 :=
  ⟨test_tc_wellFormed, rfl, by unfold legalWord; decide, by unfold legalWord; decide,
    by unfold legalWord; decide⟩
theorem wit_StepStops_badConfig : ({ testCfg with nVoices := 0 } : Cfg).wellFormed = false := by
  simp [Cfg.wellFormed, cfgOk, voicesOk]
theorem wit_StepStops_outside : (placed (.read 256 32)).cfg.wellFormed = true ∧
    ∃ e, (placed (.read 256 32)).pending.head? = some e ∧
      ¬ Reaches (placed (.read 256 32)).cfg e :=
  ⟨test_tc_wellFormed, _, rfl, fun h => absurd h.2 (by decide)⟩
theorem wit_StepStops_inside : (placed (.read 255 8)).cfg.wellFormed = true ∧
    ∀ e, (placed (.read 255 8)).pending.head? = some e → Reaches (placed (.read 255 8)).cfg e :=
  ⟨test_tc_wellFormed, fun e h => by
    obtain rfl : HostEvent.read 255 8 = e := Option.some.inj h
    exact ⟨by decide, by decide⟩⟩
theorem wit_RunTakesEveryEventOfTheStream :
    (placed (.write 0 32 0x70000000)).cfg.wellFormed = true ∧
      ∀ e ∈ (placed (.write 0 32 0x70000000)).pending,
        Reaches (placed (.write 0 32 0x70000000)).cfg e :=
  ⟨test_tc_wellFormed, fun e h => by
    obtain rfl : e = .write 0 32 0x70000000 := List.mem_singleton.1 h
    exact ⟨by decide, by decide⟩⟩
/-- A step that answers a next state: `SAMPLE` over a live voice (also for the invariants,
`LiveFieldCountsTheVoices` and `NoStepChangesTheConfiguration`). -/
theorem wit_step_next : ∃ t, step (placed (.write 0 32 0x70000000)) = .next t := by
  unfold step
  rw [show (placed (.write 0 32 0x70000000)).cfg.wellFormed = true from test_tc_wellFormed]
  exact ⟨_, rfl⟩
theorem wit_AlignedReadReturnsTheRegister :
    (placed (.read 0xFC 32)).cfg.wellFormed = true ∧
      (placed (.read 0xFC 32)).ch.length = (placed (.read 0xFC 32)).cfg.nVoices ∧
      0xFC < 256 ∧ 0xFC % 4 = 0 ∧ (placed (.read 0xFC 32)).pending
        = .read ((placed (.read 0xFC 32)).cfg.base + 0xFC) 32 :: [] :=
  ⟨test_tc_wellFormed, rfl, by decide, by decide, rfl⟩
theorem wit_AlignedWriteDoesWhatTheMapSays :
    ∀ off ∈ [0x00, 0x04, 0x10, 0xFC],
      (placed (.write off 32 0xFFFFFFFF)).cfg.wellFormed = true ∧ off < 256 ∧ off % 4 = 0 ∧
        (placed (.write off 32 0xFFFFFFFF)).pending
          = .write ((placed (.write off 32 0xFFFFFFFF)).cfg.base + off) 32 0xFFFFFFFF :: [] := by
  intro off h
  refine ⟨test_tc_wellFormed, ?_, ?_, ?_⟩
  · revert off; decide
  · revert off; decide
  · simp [placed, oneVoice, State.reset, State.resetOf, testCfg]
theorem wit_OtherAccessesAreIgnored :
    (placed (.write 0 16 0x7000)).cfg.wellFormed = true ∧ ¬ (16 = 32 ∧ 0 % 4 = 0) ∧
      ¬ (32 = 32 ∧ 255 % 4 = 0) ∧
      (placed (.write 0 16 0x7000)).pending
        = .write ((placed (.write 0 16 0x7000)).cfg.base + 0) 16 0x7000 :: [] ∧
      (placed (.read 255 32)).pending
        = .read ((placed (.read 255 32)).cfg.base + 255) 32 :: [] :=
  ⟨test_tc_wellFormed, by decide, by decide, rfl, rfl⟩
theorem wit_ReadsDoNotShowHiddenState :
    oneVoice ≠ { oneVoice with vol := fTwo } ∧
      oneVoice.ch.map shown = ({ oneVoice with vol := fTwo } : State).ch.map shown :=
  ⟨fun h => absurd (congrArg State.vol h) (by decide), rfl⟩
theorem wit_InitGivesTheResetState :
    (placed .reset).cfg.wellFormed = true ∧ (placed .reset).pending = .reset :: [] :=
  ⟨test_tc_wellFormed, rfl⟩
theorem wit_ZWords : (0x1FFFFFFF : Word).toNat / 2 ^ 28 = 1 ∧ (0x40000000 : Word).toNat / 2 ^ 28 = 4 ∧
    (0x50000001 : Word).toNat / 2 ^ 28 = 5 ∧ (0x70000000 : Word).toNat / 2 ^ 28 = 7 := by decide
theorem wit_NWords_PWords : (0x2000FFFF : Word).toNat / 2 ^ 28 = 2 ∧
    (0x3FFFFFFF : Word).toNat / 2 ^ 28 = 3 ∧ (0x60FF0FFF : Word).toNat / 2 ^ 28 = 6 := by decide
theorem wit_CommandsEndWithTheTabledCode_write :
    ¬ (32 = 32 ∧ 0x104 % 256 = 0) ∧ ∃ t, takeEvent oneVoice (.write 0x04 32 7) = .next t :=
  ⟨by decide, _, rfl⟩
theorem wit_CommandsEndWithTheTabledCode_read :
    ∃ t, takeEvent oneVoice (.read 0x08 32) = .next t := ⟨_, rfl⟩
theorem wit_FailedCommandsChangeOnlyStatus :
    after (execute oneVoice 0x00000000) (fun t => t.status.toNat % 2) = some 0 := by decide +kernel
theorem wit_EachRegisterHasItsOnlyWriters : ∃ t, exec .kill oneVoice = .next t := ⟨_, rfl⟩
theorem wit_NoteOnBindsTheFirstDeadChannel :
    (127#8).toNat ≤ 127 ∧ (∃ d, oneVoice.cfg.instrs[(3#8).toNat]? = some d) ∧
      (∃ t, oneVoice.inst[(3#8).toNat]? = some t) ∧ fLe fZero ⟨oneVoice.arg⟩ = true ∧
      fLe ⟨oneVoice.arg⟩ fOne = true ∧ oneVoice.ch[1]? = some channelZero ∧
      channelZero.live = false ∧ (∀ j < 1, ∀ b, oneVoice.ch[j]? = some b → b.live = true) :=
  ⟨by decide, ⟨_, rfl⟩, ⟨_, rfl⟩, by decide, by decide, rfl, rfl, fun j hj b h => by
    obtain rfl : j = 0 := by omega
    obtain rfl : voice 0 63 = b := Option.some.inj h
    rfl⟩
theorem wit_NoteOnFails_operand : 127 < (128#8).toNat ∧ oneVoice.cfg.nInstr ≤ (4#8).toNat ∧
    ¬ (fLe fZero ⟨0xBF800000#32⟩ = true ∧ fLe ⟨0xBF800000#32⟩ fOne = true) ∧
    ¬ (fLe fZero ⟨0x7FC00000#32⟩ = true ∧ fLe ⟨0x7FC00000#32⟩ fOne = true) := by decide
/-- A full pool. -/
def fullPool : State := { oneVoice with ch := List.replicate 8 (voice 0 63), status := 0x801 }
theorem wit_NoteOnFails_full : (127#8).toNat ≤ 127 ∧ (3#8).toNat < fullPool.cfg.nInstr ∧
    fLe fZero ⟨fullPool.arg⟩ = true ∧ fLe ⟨fullPool.arg⟩ fOne = true ∧
    ∀ c ∈ fullPool.ch, c.live = true := by decide
/-- Both infinities, a NaN, the number just below 0 and the number just above 1. -/
theorem wit_NoteOnFails_velocity : isFinite ⟨0x7F800000#32⟩ = false ∧
    isFinite ⟨0xFF800000#32⟩ = false ∧ isFinite ⟨0x7FC00000#32⟩ = false ∧
    scaled ⟨0x80000001#32⟩ < 0 ∧ 1 * 2 ^ 149 < scaled ⟨0x3F800001#32⟩ := by decide +kernel
theorem wit_NoteOffReleases_match : (63#8).toNat ≤ 127 ∧ (0#8).toNat < oneVoice.cfg.nInstr ∧
    oneVoice.ch[0]? = some (voice 0 63) ∧ (voice 0 63).live = true ∧
    (voice 0 63).released = false ∧ (voice 0 63).note.toNat = (63#8).toNat ∧
    (voice 0 63).instr = 0#8 := by decide
theorem wit_NoteOffReleases_no_match : (127#8).toNat ≤ 127 ∧ (3#8).toNat < oneVoice.cfg.nInstr ∧
    ∀ b ∈ oneVoice.ch, ¬ (b.live = true ∧ b.released = false ∧ b.note.toNat = (127#8).toNat ∧
      b.instr = 3#8) := by decide
theorem wit_NoteOffReleases_operand : 127 < (128#8).toNat ∧ oneVoice.cfg.nInstr ≤ (4#8).toNat := by
  decide
theorem wit_ChannelLifecycle_dies :
    (∃ t, exec .sample { oneVoice with ch := [{ voice 0 63 with
        mode := .release, val := ⟨0x3DE36798#32⟩, tgt := ⟨0xBE9E4C34#32⟩ }] } = .next t) ∧
      after (exec .sample { oneVoice with ch := [{ voice 0 63 with
        mode := .release, val := ⟨0x3DE36798#32⟩, tgt := ⟨0xBE9E4C34#32⟩ }] })
        (fun t => (t.ch[0]?).map fun c => (c.live, c.mode)) = some (some (false, .killed)) :=
  ⟨⟨_, rfl⟩, by decide +kernel⟩
theorem wit_ChannelLifecycle_born_and_released :
    after (exec (.noteOn 60 0) oneVoice) (fun t => (t.ch[1]?).map (·.live)) = some (some true) ∧
      after (exec (.noteOff 63 0) oneVoice) (fun t => (t.ch[0]?).map (·.released))
        = some (some true) ∧
      ∃ t, takeEvent oneVoice .reset = .next t := ⟨by decide +kernel, by decide +kernel, _, rfl⟩
theorem wit_SetVolume : isFinite ⟨0x7F7FFFFF#32⟩ = true ∧ isFinite ⟨0x80000000#32⟩ = true ∧
    isFinite ⟨0x7F800000#32⟩ = false ∧ isFinite ⟨0xFFC00000#32⟩ = false := by decide
theorem wit_SetParam_knobs : ∀ g ∈ [0#8, 1#8, 2#8],
    ∃ kn t, oneVoice.cfg.knobs[g.toNat]? = some kn ∧ oneVoice.inst[kn.instr]? = some t := by
  intro g h
  simp only [List.mem_cons, List.not_mem_nil, or_false] at h
  rcases h with rfl | rfl | rfl <;> exact ⟨_, _, rfl, rfl⟩
theorem wit_SetParam_no_knob : oneVoice.cfg.nKnob ≤ (3#8).toNat := by decide
theorem wit_KnobAtZeroGivesLo : ∀ kn ∈ tcKnobs,
    isFinite kn.lo = true ∧ isFinite (fSub kn.hi kn.lo) = true := by decide +kernel
theorem wit_SampleOfNoVoicesIsZero : ∀ c ∈ State.reset.ch, c.live = false := by decide
theorem wit_Sat16_bounds : isNaN ⟨0x7FC00000#32⟩ = true ∧
    fLe ⟨0x46FFFE00#32⟩ ⟨0x46FFFE00#32⟩ = true ∧ fLe ⟨0xC7000000#32⟩ ⟨0xC7000000#32⟩ = true ∧
    isFinite ⟨0x46FFFDFF#32⟩ = true ∧ -32768 * 2 ^ 149 < scaled ⟨0x46FFFDFF#32⟩ ∧
    scaled ⟨0x46FFFDFF#32⟩ < 32767 * 2 ^ 149 := by decide +kernel
theorem wit_Sat16_saturation : isInf ⟨0x7F800000#32⟩ = true ∧ isInf ⟨0xFF800000#32⟩ = true ∧
    isFinite ⟨0x46FFFE00#32⟩ = true ∧ 32767 * 2 ^ 149 ≤ scaled ⟨0x46FFFE00#32⟩ ∧
    isFinite ⟨0xC7000000#32⟩ = true ∧ scaled ⟨0xC7000000#32⟩ ≤ -32768 * 2 ^ 149 := by
  rw [show scaled ⟨0x46FFFE00#32⟩ = 32767 * 2 ^ 149 from rfl,
    show scaled ⟨0xC7000000#32⟩ = -32768 * 2 ^ 149 from rfl]
  exact ⟨by decide, by decide, by decide, le_refl _, by decide, le_refl _⟩
/-- Two channels, and two tunables, that differ but agree on all that any evaluation reads. -/
theorem wit_EachEvaluation_agree : ∃ (c b : Channel) (t u : Tunables), c ≠ b ∧ b.nz = c.nz ∧
    b.note = c.note ∧ b.phi = c.phi ∧ b.p1 = c.p1 ∧ b.p2 = c.p2 ∧ b.lphi = c.lphi ∧ b.lp = c.lp ∧
    b.fs = c.fs ∧ b.released = c.released ∧ b.mode = c.mode ∧ b.val = c.val ∧ b.tgt = c.tgt ∧
    u.coef = t.coef ∧ u.duty = t.duty ∧ u.depth = t.depth :=
  ⟨voice 0 63, { voice 0 63 with vel := fZero }, default, default, by decide⟩
theorem wit_EachEvaluationKeepsToItsFields : ∃ a b c : InstrDesc,
    a ∈ tcInstrs ∧ b ∈ tcInstrs ∧ c ∈ tcInstrs ∧ a.osc = .noise ∧ b.osc = .saw ∧ b.vib = true ∧
      c.osc = .pulse ∧ c.vib = false ∧ b.filt = .none :=
  ⟨(tcInstrs[2]?).getD default, (tcInstrs[3]?).getD default, (tcInstrs[1]?).getD default,
    by decide⟩
theorem wit_ReleaseLevelNeverRises : rateOk goodDesc.release = true ∧ inUnit fOne = true ∧
    fLe fMinusOne releaseFactor = true ∧ fLe releaseFactor fZero = true := by decide
theorem wit_ZeroLevelReleaseNeverEnds : ∃ c d : Channel, rateOk goodDesc.release = true ∧
    c.released = true ∧ c.mode = .attack ∧ c.val = fZero ∧
    d.mode = .release ∧ d.val = fZero ∧ d.tgt = ⟨0x80000000#32⟩ :=
  ⟨{ voice 0 63 with released := true },
    { voice 0 63 with mode := .release, tgt := ⟨0x80000000#32⟩ }, by decide⟩
theorem wit_AttackRateOneEndsAtOnce : ∃ d ∈ tcInstrs, d.attack = ⟨0x3F800000#32⟩ ∧
    (voice 3 63).released = false := ⟨(tcInstrs[3]?).getD default, by decide⟩
theorem wit_finite_numbers : isFinite ⟨0x7F7FFFFF#32⟩ = true ∧ isFinite ⟨0x00000001#32⟩ = true ∧
    isFinite (fAdd fOne fTwo) = true ∧ isFinite (fSub fOne fTwo) = true ∧
    isFinite (fMul fTwo fTwo) = true ∧ isFinite (fDiv fOne f4095) = true ∧
    isZero f4095 = false := by decide +kernel
theorem wit_OverflowGivesInfinity : isInf (fAdd ⟨0x7F7FFFFF#32⟩ ⟨0x73000000#32⟩) = true ∧
    isInf (fSub ⟨0xFF7FFFFF#32⟩ ⟨0x73000000#32⟩) = true ∧
    isInf (fMul ⟨0x7F7FFFFF#32⟩ fTwo) = true ∧
    isInf (fDiv ⟨0x7F7FFFFF#32⟩ ⟨0x3F000000#32⟩) = true ∧ isZero ⟨0x3F000000#32⟩ = false ∧
    isZero ⟨0x80000000#32⟩ = true ∧ isZero fOne = false := by decide +kernel
/-- Just below the midpoint there is no overflow. -/
theorem test_no_overflow_below_midpoint :
    (fAdd ⟨0x7F7FFFFF#32⟩ ⟨0x72FFFFFF#32⟩).bits = 0x7F7FFFFF := by decide +kernel
theorem wit_InfinitiesAndSignsFollowIeee : isInf ⟨0x7F800000#32⟩ = true ∧
    isInf ⟨0xFF800000#32⟩ = true ∧ isFinite ⟨0x80000000#32⟩ = true ∧
    isNaN (fMul fOne fMinusOne) = false ∧ isNaN (fDiv fOne ⟨0x80000000#32⟩) = false ∧
    scaled fOne + scaled fMinusOne = 0 ∧ scaled fOne - scaled fOne = 0 := by decide +kernel
theorem wit_ComparisonsFollowTheValues : isNaN ⟨0xFF800001#32⟩ = true ∧
    isFinite ⟨0x80000000#32⟩ = true ∧ isInf ⟨0x7F800000#32⟩ = true ∧
    isInf ⟨0xFF800000#32⟩ = true := by decide
theorem wit_NoiseOutputIsExact : (1#24 : BitVec 24) ≠ 0#24 ∧ (0xFFFFFF#24 : BitVec 24) ≠ 0#24 := by
  decide
theorem wit_WrapBringsThePhaseIntoRange_low : isFinite ⟨0xC0400000#32⟩ = true ∧
    -3 * 2 ^ 149 ≤ scaled ⟨0xC0400000#32⟩ ∧ scaled ⟨0xC0400000#32⟩ < 3 * 2 ^ 149 := by
  rw [show scaled ⟨0xC0400000#32⟩ = -3 * 2 ^ 149 from rfl]
  exact ⟨by decide, by norm_num, by norm_num⟩
theorem wit_WrapBringsThePhaseIntoRange_high : isFinite ⟨0x403FFFFF#32⟩ = true ∧
    -3 * 2 ^ 149 ≤ scaled ⟨0x403FFFFF#32⟩ ∧ scaled ⟨0x403FFFFF#32⟩ < 3 * 2 ^ 149 := by
  rw [show scaled ⟨0x403FFFFF#32⟩ = 0xBFFFFF * 2 ^ 127 from rfl]
  exact ⟨by decide, by norm_num, by norm_num⟩
theorem wit_VibratoLeavesAlone : testCfg.wellFormed = true ∧ isFinite (fMul fOne fOne) = true ∧
    isFinite fOne = true ∧ isZero fZero = true :=
  ⟨test_tc_wellFormed, by decide +kernel, by decide, by decide⟩
theorem wit_ZeroCoefficientFilters : ∃ (t : Tunables) (c : Channel),
    isFinite fMinusOne = true ∧ t.coef = fZero ∧ c.fs = fZero :=
  ⟨⟨fZero, fZero, fZero⟩, voice 2 0, by decide⟩
theorem wit_CutoffCoefficientIsBelowOne : positiveOk fOne = true ∧ cutoffOk f8388608 = true ∧
    fLe (fMul fOne f8388608) f8388608 = true := by decide +kernel
theorem wit_CutoffCoefficientForEveryCutoff :
    testCfg.wellFormed = true ∧ cutoffOk ⟨0x7F000000#32⟩ = true :=
  ⟨test_tc_wellFormed, by decide⟩
/-- The instruments of TC that are SAW, SAW with vibrato, PULSE, NOISE, and those with LP and HP. -/
theorem wit_FollowTheirEquations : testCfg.wellFormed = true ∧
    testCfg.instrs.map (fun d => (d.osc, d.vib, d.filt)) =
      [(.saw, false, .none), (.pulse, false, .lp), (.noise, false, .hp), (.saw, true, .none)] :=
  ⟨test_tc_wellFormed, by decide⟩
/-- A value for each way `wrap` goes, 1.0 and -1.0 among them. -/
theorem wit_WrapRule : WrapRule fOne fMinusOne ∧ WrapRule ⟨0xBF800001#32⟩ ⟨0x3F7FFFFE#32⟩ ∧
    WrapRule fMinusOne fMinusOne := by
  unfold WrapRule
  decide +kernel
theorem wit_EnvelopeFollowsItsEquations :
    fLe fOne (stepped goodDesc.attack ⟨0x3F4A7E36#32⟩ attackTarget) = true ∧
    fLe fOne (stepped goodDesc.attack fZero attackTarget) = false ∧
    fLt (stepped goodDesc.release ⟨0x3DE36798#32⟩ ⟨0xBE9E4C34#32⟩) fZero = true ∧
    fLt (stepped goodDesc.release fOne (fMul releaseFactor fOne)) fZero = false := by
  decide +kernel
theorem wit_ScriptLiteral : isFinite (Decimal.toF32 ⟨true, 5, 1⟩) = true := by decide +kernel

/-- The only live channel of the one-voice state is its voice. -/
theorem live_of_placed {e : HostEvent} {c : Channel} (h : c ∈ (placed e).ch) (hl : c.live = true) :
    c = voice 0 63 := by
  have : ∀ b ∈ oneVoice.ch, b.live = true → b = voice 0 63 := by decide
  exact this c h hl

/-- The one-voice state meets the invariants, whatever is pending (for every statement that asks them). -/
theorem wit_Inv (e : HostEvent) : Inv (placed e) where
  cfg_ok := test_tc_wellFormed
  ch_length := rfl
  inst_length := rfl
  voices := fun c h hl => by
    obtain rfl := live_of_placed h hl
    refine ⟨?_, by decide, by decide, ?_⟩
    · show _ < testCfg.nInstr; decide
    · show (instrDesc testCfg _).osc = _ → _; decide
  status_eq := ⟨.ok, by show (0x101 : Word) = resultWord (liveVoices oneVoice) 0 true; decide⟩
  chanSel_lt := by show (0 : Word).toNat < 256; decide
  out_sext := ⟨0, by show (0 : Word) = _; decide⟩

theorem wit_LevelInv (e : HostEvent) : LevelInv (placed e) := fun c h hl => by
  obtain rfl := live_of_placed h hl
  exact ⟨by decide, by decide, rfl, by decide⟩

theorem wit_ResetMeetsTheInvariants : testCfg.wellFormed = true := test_tc_wellFormed
theorem wit_StepKeepsTheInvariants : Inv (placed (.write 0 32 0x70000000)) ∧
    LevelInv (placed (.write 0 32 0x70000000)) ∧
    ∃ t, step (placed (.write 0 32 0x70000000)) = .next t :=
  ⟨wit_Inv _, wit_LevelInv _, wit_step_next⟩

end Sys2Proof.Tests
end

section
/-! What a command, an access and a step of the machine end in: every path inside the window answers a
next state, and none touches the configuration. -/

namespace Sys2Proof.Proofs

open Sys2Proof.Machine Sys2Proof.Safety

/-- The outcome is a next state, and its configuration is that of `s`. -/
def NextKeepsCfg (s : State) (o : Host.Outcome State Fault Refusal) : Prop :=
  ∃ t, o = .next t ∧ t.cfg = s.cfg

theorem NextKeepsCfg.of_next {s t : State} (h : t.cfg = s.cfg) : NextKeepsCfg s (.next t) :=
  ⟨t, rfl, h⟩

/-- A command answers a next state, whatever its operands and the state (60_exceptions.md R316). -/
theorem exec_nextKeepsCfg (i : Instr) (s : State) : NextKeepsCfg s (exec i s) := by
  cases i with
  | init => exact .of_next rfl
  | kill => exact .of_next rfl
  | sample => exact .of_next rfl
  | noteOn note instr =>
    show NextKeepsCfg s (execNoteOn note instr s)
    rcases execNoteOn_cases note instr s with ⟨-, h⟩ | ⟨-, -, h⟩ | ⟨-, i, -, h⟩ <;>
      exact h ▸ .of_next rfl
  | noteOff note instr =>
    show NextKeepsCfg s (execNoteOff note instr s)
    rcases execNoteOff_cases note instr s with ⟨-, h⟩ | ⟨-, -, h⟩ | ⟨-, i, -, h⟩ <;>
      exact h ▸ .of_next rfl
  | setVolume =>
    show NextKeepsCfg s (execSetVolume s)
    rcases execSetVolume_cases s with ⟨-, h⟩ | ⟨-, h⟩ <;> exact h ▸ .of_next rfl
  | setParam group raw =>
    show NextKeepsCfg s (execSetParam group raw s)
    rcases execSetParam_cases group raw s with ⟨-, h⟩ | ⟨kn, -, h⟩ <;> exact h ▸ .of_next rfl

/-- A word written to `CMD` runs its command or reports ILLEGAL (30_encoding.md R112). -/
theorem execute_nextKeepsCfg (s : State) (w : Word) : NextKeepsCfg s (execute s w) := by
  unfold execute
  cases decode w with
  | ok i => exact exec_nextKeepsCfg i s
  | error _ => exact .of_next rfl

theorem writeReg_nextKeepsCfg (s : State) (v : Word) (r : HostReg) :
    NextKeepsCfg s (writeReg s v r) := by
  cases r with
  | cmd =>
    obtain ⟨t, ht, hcfg⟩ := execute_nextKeepsCfg s v
    exact ⟨observe t (.command t.status t.out), by rw [writeReg, ht, noteCommand_next], hcfg⟩
  | arg | chanSel | status | out | chanInfo | config | chanEnv => exact .of_next rfl

theorem busWrite_nextKeepsCfg (s : State) (addr width : Nat) (v : Word) :
    NextKeepsCfg s (busWrite s addr width v) := by
  unfold busWrite memWrite
  split
  · cases regAt (offsetOf addr) with
    | some r => exact writeReg_nextKeepsCfg s v r
    | none => exact .of_next rfl
  · exact .of_next rfl

theorem inWindow_iff (s : State) (addr : Nat) :
    inWindow s addr = true ↔ s.cfg.base ≤ addr ∧ addr < s.cfg.base + 256 := by
  simp [inWindow]

/-- An event that reaches SVE is taken (20_memory.md R75). -/
theorem takeEvent_of_reaches {s : State} {e : HostEvent} (h : Reaches s.cfg e) :
    NextKeepsCfg s (takeEvent s e) := by
  cases e with
  | read addr width => rw [takeEvent, if_pos ((inWindow_iff s addr).2 h)]; exact .of_next rfl
  | write addr width v =>
    rw [takeEvent, if_pos ((inWindow_iff s addr).2 h)]
    exact busWrite_nextKeepsCfg s addr width v
  | reset => exact .of_next rfl

/-- An access outside the window faults (notes/assumptions/3.md). -/
theorem takeEvent_of_not_reaches {s : State} {e : HostEvent} (h : ¬ Reaches s.cfg e) :
    takeEvent s e = .fault .outsideWindow := by
  cases e with
  | read addr width => rw [takeEvent, if_neg fun hw => h ((inWindow_iff s addr).1 hw)]
  | write addr width v => rw [takeEvent, if_neg fun hw => h ((inWindow_iff s addr).1 hw)]
  | reset => exact absurd trivial h

/-- What a step ends in: refused for the configuration, stopped at an access outside the window, or a
next state of the same configuration. -/
theorem step_ends (s : State) :
    (s.cfg.wellFormed = false ∧ step s = .refused .badConfig) ∨
    (s.cfg.wellFormed = true ∧ (∃ e, s.pending.head? = some e ∧ ¬ Reaches s.cfg e) ∧
      step s = .fault .outsideWindow) ∨
    (s.cfg.wellFormed = true ∧ (∀ e, s.pending.head? = some e → Reaches s.cfg e) ∧
      NextKeepsCfg s (step s)) := by
  rcases step_cases s with ⟨hw, hs⟩ | ⟨hw, hp, hs⟩ | ⟨hw, e, rest, hp, hs⟩
  · exact .inl ⟨hw, hs⟩
  · exact .inr (.inr ⟨hw, by simp [hp], hs ▸ .of_next rfl⟩)
  · by_cases hr : Reaches s.cfg e
    · refine .inr (.inr ⟨hw, by simpa [hp] using hr, ?_⟩)
      rw [hs]
      exact takeEvent_of_reaches (s := withPending s rest) hr
    · refine .inr (.inl ⟨hw, ⟨e, by simp [hp], hr⟩, ?_⟩)
      rw [hs]
      exact takeEvent_of_not_reaches (s := withPending s rest) hr

/-- Settles O8: the three ends of a step have exclusive conditions and exclusive outcomes. -/
theorem stepStopsOnlyOnBadConfigOrOutsideAccess :
    Obligations.StepStopsOnlyOnBadConfigOrOutsideAccess := by
  intro s
  unfold Completes
  rcases step_ends s with ⟨hw, hs⟩ | ⟨hw, ⟨e, he, hr⟩, hs⟩ | ⟨hw, hr, t, hs, -⟩
  · simp [hw, hs]
  · simp [hw, hs, he, hr]
  · simp only [hs, hw]
    exact ⟨by simp, by simpa using hr, by simpa using hr⟩

/-- Settles O10, from what a step can end in. -/
theorem noStepChangesTheConfiguration : Obligations.NoStepChangesTheConfiguration := by
  intro s t ht
  rcases step_ends s with ⟨-, hs⟩ | ⟨-, -, hs⟩ | ⟨-, -, u, hs, hcfg⟩
  · simp [hs] at ht
  · simp [hs] at ht
  · obtain rfl : u = t := by simpa [hs] using ht
    exact hcfg

end Sys2Proof.Proofs
end

section
/-! Binary32 values as signed magnitudes, and what one rounding of an exact result gives: the layer that
the statements about the operations share. -/

namespace Sys2Proof.Proofs

open Sys2Proof.Machine Sys2Proof.Laws Sys2Proof.Safety

/-! ### Sign and magnitude -/

/-- The integer of this sign and absolute value. -/
def signed (neg : Bool) (n : Nat) : Int := if neg then -(n : Int) else n

@[simp] theorem signed_true (n : Nat) : signed true n = -(n : Int) := rfl
@[simp] theorem signed_false (n : Nat) : signed false n = n := rfl

theorem scaled_eq_signed (x : F32) : scaled x = signed (negOf x) (scaledMag x) := rfl

theorem scaled_pack (neg : Bool) {m : Nat} (h : m < 2 ^ 31) :
    scaled (pack neg m) = signed neg (magValue m) := by
  rw [scaled_eq_signed, scaledMag_eq, negOf_pack _ _ h, magOf_pack _ _ h]

@[simp] theorem natAbs_signed (neg : Bool) (n : Nat) : (signed neg n).natAbs = n := by
  cases neg <;> simp

theorem signed_lt_zero_iff (neg : Bool) (n : Nat) : signed neg n < 0 ↔ neg = true ∧ 0 < n := by
  cases neg <;> simp

theorem signed_mul_signed (a b : Bool) (m n : Nat) :
    signed a m * signed b n = signed (a != b) (m * n) := by
  cases a <;> cases b <;> simp

theorem signed_mul_natCast (a : Bool) (m n : Nat) : signed a m * (n : Int) = signed a (m * n) := by
  cases a <;> simp

/-- Every integer has a sign and an absolute value; zero has both signs. -/
theorem signed_natAbs {neg : Bool} {t : Int} (h : t ≠ 0 → (neg = true ↔ t < 0)) :
    t = signed neg t.natAbs := by
  rcases eq_or_ne t 0 with rfl | h0
  · cases neg <;> rfl
  · cases neg with
    | true =>
      have hlt : t < 0 := (h h0).1 rfl
      rw [signed_true]; omega
    | false =>
      have hge : ¬ t < 0 := fun ht => Bool.false_ne_true ((h h0).2 ht)
      rw [signed_false]; omega

/-- Of two signed numbers, the sign of the one with the greater absolute value decides the order. -/
theorem signed_order_of_lt (a b : Bool) {m n : Nat} (h : n < m) :
    (signed a m < signed b n ↔ a = true) ∧ (signed a m ≤ signed b n ↔ a = true) ∧
      (signed b n < signed a m ↔ a = false) ∧ (signed b n ≤ signed a m ↔ a = false) := by
  cases a <;> cases b <;> simp <;> omega

/-- Between two signed numbers of one absolute value the signs decide the order. -/
theorem signed_order_of_eq (a b : Bool) {m : Nat} (h : 0 < m) :
    (signed a m < signed b m ↔ a = true ∧ b = false) ∧
      (signed a m ≤ signed b m ↔ a = true ∨ b = false) := by
  cases a <;> cases b <;> simp <;> omega

/-- The distance of two signed multiples: the difference or the sum of the absolute values. -/
theorem abs_signed_sub_signed (a b : Bool) (m n : Nat) :
    |signed a m - signed b n| = if a = b then |(m : Int) - n| else (m : Int) + n := by
  cases a <;> cases b <;> simp only [signed_true, signed_false, reduceIte, reduceCtorEq]
  all_goals simp only [Int.abs_eq_natAbs]; omega

/-! ### The kinds of a number -/

theorem not_isNaN_of_isFinite {x : F32} (h : isFinite x = true) : isNaN x = false := by
  rw [isFinite_iff] at h
  simpa [isNaN] using h.le

theorem not_isInf_of_isFinite {x : F32} (h : isFinite x = true) : isInf x = false := by
  rw [isFinite_iff] at h
  simpa [isInf] using h.ne

theorem not_isNaN_of_isInf {x : F32} (h : isInf x = true) : isNaN x = false := by
  rw [isInf_iff] at h
  simpa [isNaN] using h.le

theorem not_isZero_of_isInf {x : F32} (h : isInf x = true) : isZero x = false := by
  simp [isZero, (isInf_iff x).1 h, infMag]

theorem isFinite_of_isZero {x : F32} (h : isZero x = true) : isFinite x = true := by
  simp [isFinite, (isZero_iff x).1 h, infMag]

@[simp] theorem isNaN_fNeg (x : F32) : isNaN (fNeg x) = isNaN x := by simp [isNaN]
@[simp] theorem isInf_fNeg (x : F32) : isInf (fNeg x) = isInf x := by simp [isInf]
@[simp] theorem isFinite_fNeg (x : F32) : isFinite (fNeg x) = isFinite x := by simp [isFinite]
@[simp] theorem isZero_fNeg (x : F32) : isZero (fNeg x) = isZero x := by simp [isZero]

theorem scaledMag_pos_iff (x : F32) : 0 < scaledMag x ↔ isZero x = false := by
  have h := scaledMag_eq_zero_iff x
  simp only [isZero, decide_eq_false_iff_not]
  omega

/-- The value at the encoding of infinity is 2^128 (in units of 2^-149). -/
theorem magValue_infMag : magValue infMag = 2 ^ 24 * 2 ^ 253 :=
  magValue_binade 253 (2 ^ 24) le_rfl (.inr (by norm_num))

theorem scaledMag_of_isInf {x : F32} (h : isInf x = true) : scaledMag x = magValue infMag := by
  rw [scaledMag_eq, (isInf_iff x).1 h]

theorem scaledMag_lt_of_isFinite {x : F32} (h : isFinite x = true) :
    scaledMag x < magValue infMag :=
  magValue_strictMono ((isFinite_iff x).1 h)

/-! ### The comparisons -/

/-- `x < y` compares the values, an infinity's being `magValue infMag`; a NaN compares with nothing. -/
theorem fLt_iff (x y : F32) :
    fLt x y = true ↔ isNaN x = false ∧ isNaN y = false ∧ scaled x < scaled y := by
  simp [fLt, ordKey_lt_iff, and_assoc]

theorem fLe_iff (x y : F32) :
    fLe x y = true ↔ isNaN x = false ∧ isNaN y = false ∧ scaled x ≤ scaled y := by
  have h : ordKey x ≤ ordKey y ↔ scaled x ≤ scaled y := by
    rw [← not_lt, ← not_lt, ordKey_lt_iff]
  simp [fLe, h, and_assoc]

/-- On numbers that are not NaN the comparisons are those of the values. -/
theorem compare_iff {x y : F32} (hx : isNaN x = false) (hy : isNaN y = false) :
    (fLt x y = true ↔ scaled x < scaled y) ∧ (fLe x y = true ↔ scaled x ≤ scaled y) := by
  simp [fLt_iff, fLe_iff, hx, hy]

/-! ### One rounding -/

/-- A rounded encoding against the encodings of other numbers: none is nearer to `num / den`, and where
another is as near the rounded one is even. -/
theorem roundMag_nearest {num den : Nat} (hd : 0 < den) (hk : roundMag num den < infMag) (j : Nat) :
    |((magValue (roundMag num den) * den : Nat) : Int) - num|
        ≤ |((magValue j * den : Nat) : Int) - num| ∧
      (|((magValue (roundMag num den) * den : Nat) : Int) - num|
          = |((magValue j * den : Nat) : Int) - num| →
        j ≠ roundMag num den → roundMag num den % 2 = 0) := by
  have hmono : ∀ {a b : Nat}, a ≤ b → magValue a * den ≤ magValue b * den :=
    fun h => Nat.mul_le_mul_right den (magValue_strictMono.monotone h)
  have hstrict : ∀ {a b : Nat}, a < b → magValue a * den < magValue b * den :=
    fun h => Nat.mul_lt_mul_of_pos_right (magValue_strictMono h) hd
  have hup := (roundMag_le_iff num den _ hd hk).1 le_rfl
  have hlo : 0 < roundMag num den → ¬ roundMag num den ≤ roundMag num den - 1 := by omega
  rw [roundMag_le_iff num den _ hd (by omega)] at hlo
  generalize roundMag num den = k at *
  rw [add_mul] at hup hlo
  simp only [Int.abs_eq_natAbs]
  rcases lt_trichotomy j k with h | rfl | h
  · have hj := hmono (show j ≤ k - 1 by omega)
    have hkk := hstrict (show k - 1 < k by omega)
    have := hlo (by omega)
    rw [Nat.sub_add_cancel (show 1 ≤ k by omega)] at this
    omega
  · exact ⟨le_rfl, fun _ h => absurd rfl h⟩
  · have hj := hmono (show k + 1 ≤ j by omega)
    have hkk := hstrict (Nat.lt_add_one k)
    rcases Nat.eq_zero_or_pos k with rfl | h0
    · have h0 : magValue 0 * den = 0 := by rw [show magValue 0 = 0 by decide, zero_mul]
      omega
    · have := hlo h0
      rw [Nat.sub_add_cancel h0] at this
      omega

/-- Rounding overflows exactly from the midpoint above the greatest finite number (00_scope.md R12). -/
theorem roundMag_eq_infMag_iff {num den : Nat} (hd : 0 < den) :
    roundMag num den = infMag ↔ (2 ^ 25 - 1) * 2 ^ 252 * den ≤ num := by
  have hmid : magValue (infMag - 1) + magValue infMag = 2 * ((2 ^ 25 - 1) * 2 ^ 252) := by
    rw [magValue_infMag, show infMag - 1 = 253 * 2 ^ 23 + (2 ^ 24 - 1) by norm_num [infMag],
      magValue_binade 253 (2 ^ 24 - 1) (by norm_num) (.inr (by norm_num))]
    norm_num
  have h := roundMag_le_iff num den (infMag - 1) hd (by norm_num [infMag])
  rw [show infMag - 1 + 1 = infMag by norm_num [infMag], hmid, mul_assoc 2] at h
  have hle := roundMag_le_infMag num den
  have hodd : (infMag - 1) % 2 = 1 := by norm_num [infMag]
  have hpos : 0 < infMag := by norm_num [infMag]
  generalize (2 ^ 25 - 1) * 2 ^ 252 * den = b at *
  omega

/-- Every significand of at most 24 bits, at every place, is representable. -/
theorem exists_magValue_eq (a j : Nat) (ha : a ≤ 2 ^ 24) : ∃ k, magValue k = a * 2 ^ j := by
  induction j generalizing a with
  | zero => exact ⟨0 * 2 ^ 23 + a, magValue_binade 0 a ha (.inl rfl)⟩
  | succ j ih =>
    by_cases h : 2 ^ 23 ≤ a
    · exact ⟨_, magValue_binade (j + 1) a ha (.inr h)⟩
    · obtain ⟨k, hk⟩ := ih (2 * a) (by omega)
      exact ⟨k, hk.trans (by ring)⟩

/-- `r` is `num / den` units of 2^-149 rounded once: the rounded absolute value with the sign of `num`,
and either sign where `num` is zero. -/
def Rounds (num : Int) (den : Nat) (r : F32) : Prop :=
  ∃ neg, num = signed neg num.natAbs ∧ r = pack neg (roundMag num.natAbs den)

theorem roundMag_lt (num den : Nat) : roundMag num den < 2 ^ 31 :=
  lt_of_le_of_lt (roundMag_le_infMag num den) (by norm_num [infMag])

section
variable {num : Int} {den : Nat} {r : F32}

theorem Rounds.magOf_eq (h : Rounds num den r) : magOf r = roundMag num.natAbs den := by
  obtain ⟨neg, -, rfl⟩ := h
  exact magOf_pack _ _ (roundMag_lt _ _)

theorem Rounds.not_isNaN (h : Rounds num den r) : isNaN r = false := by
  have := roundMag_le_infMag num.natAbs den
  simpa [isNaN, h.magOf_eq] using this

theorem Rounds.isInf_iff (hd : 0 < den) (h : Rounds num den r) :
    isInf r = true ↔ (2 ^ 25 - 1) * 2 ^ 252 * (den : Int) ≤ |num| := by
  rw [Machine.isInf_iff, h.magOf_eq, roundMag_eq_infMag_iff hd, Int.abs_eq_natAbs, ← Int.ofNat_le]
  push_cast
  norm_num

theorem Rounds.negOf_iff (h : Rounds num den r) (h0 : num ≠ 0) : negOf r = true ↔ num < 0 := by
  obtain ⟨neg, hs, rfl⟩ := h
  rw [negOf_pack _ _ (roundMag_lt _ _)]
  conv_rhs => rw [hs, signed_lt_zero_iff]
  exact ⟨fun hn => ⟨hn, by omega⟩, fun hn => hn.1⟩

/-- An infinity that a rounding gives has the sign of the exact result. -/
theorem Rounds.negOf_iff_of_isInf (hd : 0 < den) (h : Rounds num den r) (hi : isInf r = true) :
    negOf r = true ↔ num < 0 := by
  refine h.negOf_iff fun h0 => ?_
  have hle := (h.isInf_iff hd).1 hi
  rw [h0, abs_zero] at hle
  exact absurd hle (not_le.2 (by positivity))

/-- What is representable is not changed by rounding. -/
theorem Rounds.exact {k : Nat} (hd : 0 < den) (h : Rounds num den r) (hk : k < infMag)
    (hnum : num.natAbs = magValue k * den) : isFinite r = true ∧ scaled r * den = num := by
  have hround : roundMag num.natAbs den = k := hnum ▸ roundMag_exact den k hd hk.le
  refine ⟨(isFinite_iff r).2 (by rw [h.magOf_eq, hround]; exact hk), ?_⟩
  obtain ⟨neg, hs, rfl⟩ := h
  rw [scaled_pack _ (roundMag_lt _ _), hround, hs, hnum]
  cases neg <;> simp

/-- A finite result of one rounding is nearest, ties to even: the numbers of the result's sign by
`roundMag_nearest`, and those of the other sign because zero is nearer than they are. -/
theorem Rounds.nearestEven (hd : 0 < den) (h : Rounds num den r) (hf : isFinite r = true) :
    NearestEven num den r := by
  refine ⟨hf, fun z _ => ?_⟩
  have hk : roundMag num.natAbs den < infMag := by rwa [← h.magOf_eq, ← isFinite_iff]
  have hmag := h.magOf_eq
  have hnear := roundMag_nearest hd hk
  obtain ⟨neg, hs, rfl⟩ := h
  rw [hmag, scaled_pack _ (roundMag_lt _ _), scaled_eq_signed z, scaledMag_eq, signed_mul_natCast,
    signed_mul_natCast]
  rw [hs, natAbs_signed, abs_signed_sub_signed, abs_signed_sub_signed, if_pos rfl]
  generalize num.natAbs = n at *
  by_cases hz : negOf z = neg
  · rw [if_pos hz, hz]
    obtain ⟨hle, heven⟩ := hnear (magOf z)
    exact ⟨hle, fun heq hne => heven heq fun hj => hne (by rw [hj])⟩
  · rw [if_neg hz]
    obtain ⟨hle, heven⟩ := hnear 0
    simp only [show magValue 0 = 0 by decide, zero_mul, Nat.cast_zero, zero_sub, abs_neg,
      Nat.abs_cast] at hle heven
    refine ⟨by omega, fun heq hne => heven (by omega) fun h0 => hne ?_⟩
    have hz0 : magValue (magOf z) * den = 0 := by omega
    have hz0 : magValue (magOf z) = 0 := by simpa [hd.ne'] using hz0
    rw [hz0, ← h0, show magValue 0 = 0 by decide]
    cases negOf z <;> cases neg <;> rfl

end

/-- Nearness does not depend on which of numerator and denominator carries the sign. -/
theorem nearestEven_neg_neg (num den : Int) (r : F32) :
    NearestEven (-num) (-den) r ↔ NearestEven num den r := by
  have h : ∀ v : Int, |v * -den - -num| = |v * den - num| := fun v => by
    rw [← abs_neg]; congr 1; ring
  simp only [NearestEven, h]

/-- A divisor's sign may be moved to the numerator. -/
theorem nearestEven_signed_iff (a b : Bool) (n d : Nat) (r : F32) :
    NearestEven (signed (a != b) n) d r ↔ NearestEven (signed a n) (signed b d) r := by
  cases b with
  | false => simp
  | true =>
    rw [← nearestEven_neg_neg (signed a n)]
    cases a <;> simp

end Sys2Proof.Proofs
end

section
/-! The four operations by the kinds of their operands: which results are one rounding of the exact one,
which are an infinity or a zero, which are NaN, and their signs. -/

namespace Sys2Proof.Proofs

open Sys2Proof.Machine Sys2Proof.Laws Sys2Proof.Safety

theorem not_isNaN_pack (neg : Bool) {m : Nat} (h : m ≤ infMag) : isNaN (pack neg m) = false := by
  have : m < 2 ^ 31 := lt_of_le_of_lt h (by norm_num [infMag])
  rw [isNaN, magOf_pack neg m this]
  simpa using h

theorem isInf_pack_infMag (neg : Bool) : isInf (pack neg infMag) = true := by
  rw [isInf_iff, magOf_pack _ _ (by norm_num [infMag])]

theorem isZero_pack_zero (neg : Bool) : isZero (pack neg 0) = true := by
  rw [isZero_iff, magOf_pack _ _ (by norm_num)]

/-! ### Sums and differences -/

theorem addCore_of_isFinite (op : FloatOp) {x y : F32} (hx : isFinite x = true)
    (hy : isFinite y = true) : addCore op x y = addFinite x y := by
  simp [addCore, not_isNaN_of_isFinite, not_isInf_of_isFinite, hx, hy]

theorem addCore_of_isInf_left (op : FloatOp) {x y : F32} (hx : isInf x = true)
    (hy : isNaN y = false) (h : isInf y = true → negOf x = negOf y) : addCore op x y = x := by
  simpa [addCore, not_isNaN_of_isInf, hx, hy] using fun hi hne => absurd (h hi) hne

theorem addCore_of_isInf_right (op : FloatOp) {x y : F32} (hx : isFinite x = true)
    (hy : isInf y = true) : addCore op x y = y := by
  simp [addCore, not_isNaN_of_isFinite, not_isInf_of_isFinite, not_isNaN_of_isInf, hx, hy]

theorem addFinite_of_sum_eq_zero {x y : F32} (h : scaled x + scaled y = 0) :
    addFinite x y = pack (negOf x && negOf y) 0 := by
  simp [addFinite, h]

/-- The sum of two finite numbers is rounded once. -/
theorem rounds_addFinite (x y : F32) : Rounds (scaled x + scaled y) 1 (addFinite x y) := by
  by_cases h : scaled x + scaled y = 0
  · refine ⟨negOf x && negOf y, signed_natAbs fun h0 => absurd h h0, ?_⟩
    rw [addFinite_of_sum_eq_zero h, h]
    rfl
  · exact ⟨decide (scaled x + scaled y < 0), signed_natAbs fun _ => decide_eq_true_iff,
      by simp [addFinite, h]⟩

theorem rounds_fAdd {x y : F32} (hx : isFinite x = true) (hy : isFinite y = true) :
    Rounds (scaled x + scaled y) 1 (fAdd x y) := by
  rw [fAdd, addCore_of_isFinite _ hx hy]
  exact rounds_addFinite x y

theorem rounds_fSub {x y : F32} (hx : isFinite x = true) (hy : isFinite y = true) :
    Rounds (scaled x - scaled y) 1 (fSub x y) := by
  rw [fSub, addCore_of_isFinite _ hx (by simpa using hy), sub_eq_add_neg, ← scaled_fNeg]
  exact rounds_addFinite x (fNeg y)

/-- A sum is a NaN for a NaN operand and for infinities that cancel. -/
theorem isNaN_addCore_iff (op : FloatOp) (x y : F32) :
    isNaN (addCore op x y) = true ↔ isNaN x = true ∨ isNaN y = true ∨
      (isInf x = true ∧ isInf y = true ∧ negOf x ≠ negOf y) := by
  by_cases hn : isNaN x = true ∨ isNaN y = true
  · have : isNaN (addCore op x y) = true := by simp [addCore, hn, isNaN_nanResult]
    tauto
  have hx : isNaN x = false := by simpa using mt Or.inl hn
  have hy : isNaN y = false := by simpa using mt Or.inr hn
  rcases kind_cases x with ⟨fx, ix, -⟩ | ⟨-, ix, -⟩ | ⟨-, -, nx⟩
  · rcases kind_cases y with ⟨fy, iy, -⟩ | ⟨-, iy, -⟩ | ⟨-, -, ny⟩
    · simp [addCore_of_isFinite op fx fy, (rounds_addFinite x y).not_isNaN, hx, hy, ix]
    · simp [addCore_of_isInf_right op fx iy, hx, hy, ix]
    · simp [hy] at ny
  · by_cases hc : isInf y = true ∧ negOf x ≠ negOf y
    · have : isNaN (addCore op x y) = true := by simp [addCore, hx, hy, ix, hc, isNaN_nanResult]
      simp [this, ix, hc]
    · rw [addCore_of_isInf_left op ix hy (by tauto)]
      simp only [hx, hy, ix]
      tauto
  · simp [hx] at nx

/-! ### Products -/

theorem fMul_of_isFinite {x y : F32} (hx : isFinite x = true) (hy : isFinite y = true) :
    fMul x y = pack (negOf x != negOf y) (roundMag (scaledMag x * scaledMag y) (2 ^ 149)) := by
  simp only [fMul, not_isNaN_of_isFinite, not_isInf_of_isFinite, hx, hy, Bool.or_self,
    Bool.false_eq_true, if_false]

/-- The product of two finite numbers is rounded once. -/
theorem rounds_fMul {x y : F32} (hx : isFinite x = true) (hy : isFinite y = true) :
    Rounds (scaled x * scaled y) (2 ^ 149) (fMul x y) := by
  rw [scaled_eq_signed, scaled_eq_signed, signed_mul_signed]
  exact ⟨negOf x != negOf y, by rw [natAbs_signed], by rw [natAbs_signed, fMul_of_isFinite hx hy]⟩

theorem fMul_of_isInf {x y : F32} (h : isInf x = true ∨ isInf y = true) (hx : isNaN x = false)
    (hy : isNaN y = false) (zx : isZero x = false) (zy : isZero y = false) :
    fMul x y = pack (negOf x != negOf y) infMag := by
  simp [fMul, h, hx, hy, zx, zy]

/-- A product is a NaN for a NaN operand and for zero times infinity. -/
theorem isNaN_fMul_iff (x y : F32) :
    isNaN (fMul x y) = true ↔ isNaN x = true ∨ isNaN y = true ∨
      (isInf x = true ∧ isZero y = true) ∨ (isZero x = true ∧ isInf y = true) := by
  have hx : isInf x = true → ¬ isZero x = true := fun h => by simp [not_isZero_of_isInf h]
  have hy : isInf y = true → ¬ isZero y = true := fun h => by simp [not_isZero_of_isInf h]
  simp only [fMul, Bool.or_eq_true]
  split_ifs with hn hi hz
  · simp only [isNaN_nanResult]; tauto
  · simp only [isNaN_nanResult]; tauto
  · simp only [not_isNaN_pack _ le_rfl, Bool.false_eq_true]; tauto
  · simp only [not_isNaN_pack _ (roundMag_le_infMag _ _), Bool.false_eq_true]; tauto

theorem negOf_fMul {x y : F32} (h : isNaN (fMul x y) = false) :
    negOf (fMul x y) = (negOf x != negOf y) := by
  simp only [fMul] at h ⊢
  split_ifs at h ⊢
  · simp [isNaN_nanResult] at h
  · simp [isNaN_nanResult] at h
  · exact negOf_pack _ _ (by norm_num [infMag])
  · exact negOf_pack _ _ (roundMag_lt _ _)

/-! ### Quotients -/

theorem fDiv_of_isFinite {x y : F32} (hx : isFinite x = true) (hy : isFinite y = true)
    (hz : isZero y = false) :
    fDiv x y = pack (negOf x != negOf y) (roundMag (scaledMag x * 2 ^ 149) (scaledMag y)) := by
  simp only [fDiv, not_isNaN_of_isFinite, not_isInf_of_isFinite, hx, hy, hz, Bool.or_self,
    Bool.false_eq_true, if_false]

/-- The quotient of two finite numbers is rounded once. -/
theorem rounds_fDiv {x y : F32} (hx : isFinite x = true) (hy : isFinite y = true)
    (hz : isZero y = false) :
    Rounds (signed (negOf x != negOf y) (scaledMag x * 2 ^ 149)) (scaledMag y) (fDiv x y) :=
  ⟨negOf x != negOf y, by rw [natAbs_signed], by rw [natAbs_signed, fDiv_of_isFinite hx hy hz]⟩

theorem fDiv_of_isInf_left {x y : F32} (hx : isInf x = true) (hy : isFinite y = true) :
    fDiv x y = pack (negOf x != negOf y) infMag := by
  simp [fDiv, not_isNaN_of_isInf, not_isNaN_of_isFinite, not_isInf_of_isFinite, hx, hy]

theorem fDiv_of_isInf_right {x y : F32} (hx : isFinite x = true) (hy : isInf y = true) :
    fDiv x y = pack (negOf x != negOf y) 0 := by
  simp [fDiv, not_isNaN_of_isInf, not_isNaN_of_isFinite, not_isInf_of_isFinite, hx, hy]

theorem fDiv_of_isZero_right {x y : F32} (hx : isFinite x = true) (zx : isZero x = false)
    (hy : isZero y = true) : fDiv x y = pack (negOf x != negOf y) infMag := by
  have fy := isFinite_of_isZero hy
  simp [fDiv, not_isNaN_of_isFinite, not_isInf_of_isFinite, hx, zx, fy, hy]

/-- A quotient is a NaN for a NaN operand, for infinity by infinity and for zero by zero. -/
theorem isNaN_fDiv_iff (x y : F32) :
    isNaN (fDiv x y) = true ↔ isNaN x = true ∨ isNaN y = true ∨
      (isInf x = true ∧ isInf y = true) ∨ (isZero x = true ∧ isZero y = true) := by
  have hx : isInf x = true → ¬ isZero x = true := fun h => by simp [not_isZero_of_isInf h]
  have hy : isInf y = true → ¬ isZero y = true := fun h => by simp [not_isZero_of_isInf h]
  simp only [fDiv, Bool.or_eq_true]
  split_ifs with hn ix iy iy zy zx
  · simp only [isNaN_nanResult]; tauto
  · simp only [isNaN_nanResult]; tauto
  · simp only [not_isNaN_pack _ le_rfl, Bool.false_eq_true]; tauto
  · simp only [not_isNaN_pack _ (Nat.zero_le _), Bool.false_eq_true]; tauto
  · simp only [isNaN_nanResult]; tauto
  · simp only [not_isNaN_pack _ le_rfl, Bool.false_eq_true]; tauto
  · simp only [not_isNaN_pack _ (roundMag_le_infMag _ _), Bool.false_eq_true]; tauto

theorem negOf_fDiv {x y : F32} (h : isNaN (fDiv x y) = false) :
    negOf (fDiv x y) = (negOf x != negOf y) := by
  simp only [fDiv] at h ⊢
  split_ifs at h ⊢
  · simp [isNaN_nanResult] at h
  · simp [isNaN_nanResult] at h
  · exact negOf_pack _ _ (by norm_num [infMag])
  · exact negOf_pack _ _ (by norm_num)
  · simp [isNaN_nanResult] at h
  · exact negOf_pack _ _ (by norm_num [infMag])
  · exact negOf_pack _ _ (roundMag_lt _ _)

/-- The exact quotient's sign is that of the product. -/
theorem scaled_mul_neg_iff {x y : F32} {n : Nat} (hn : 0 < n) (hy : isZero y = false) :
    signed (negOf x != negOf y) (scaledMag x * n) < 0 ↔ scaled x * scaled y < 0 := by
  rw [scaled_eq_signed x, scaled_eq_signed y, signed_mul_signed, signed_lt_zero_iff,
    signed_lt_zero_iff, Nat.mul_pos_iff_of_pos_right hn,
    Nat.mul_pos_iff_of_pos_right ((scaledMag_pos_iff y).2 hy)]

end Sys2Proof.Proofs
end

section
/-! The statements about binary32 arithmetic (00_scope.md R12), each from what its operation gives. -/

namespace Sys2Proof.Proofs

open Sys2Proof.Machine Sys2Proof.Laws Sys2Proof.Safety

/-- Settles O47, from each operation's condition; `x - y` is `x + (-y)`. -/
theorem naNOnlyFromNaNOrInvalidOperation : Obligations.NaNOnlyFromNaNOrInvalidOperation := by
  intro x y
  refine ⟨isNaN_addCore_iff .add x y, ?_, isNaN_fMul_iff x y, isNaN_fDiv_iff x y⟩
  rw [fSub, isNaN_addCore_iff]
  simp

/-- Settles O44: each is one rounding of the exact result. -/
theorem addAndSubRoundToNearestEven : Obligations.AddAndSubRoundToNearestEven := fun _ _ hx hy =>
  ⟨(rounds_fAdd hx hy).nearestEven Nat.one_pos, (rounds_fSub hx hy).nearestEven Nat.one_pos⟩

/-- Settles O45: each is one rounding of the exact result, a quotient's with the divisor's sign moved to
the numerator. -/
theorem mulAndDivRoundToNearestEven : Obligations.MulAndDivRoundToNearestEven := by
  intro x y hx hy
  refine ⟨fun hf => ?_, fun hf hz => ?_⟩
  · have h := (rounds_fMul hx hy).nearestEven (Nat.two_pow_pos 149) hf
    rwa [Nat.cast_pow, Nat.cast_ofNat] at h
  · have h := (rounds_fDiv hx hy hz).nearestEven ((scaledMag_pos_iff y).2 hz) hf
    have hnum : scaled x * 2 ^ 149 = signed (negOf x) (scaledMag x * 2 ^ 149) := by
      rw [← signed_mul_natCast, Nat.cast_pow, Nat.cast_ofNat, scaled_eq_signed]
    rwa [nearestEven_signed_iff, ← hnum, ← scaled_eq_signed] at h

/-- Settles O46: where one rounding of the exact result overflows, and division by zero. -/
theorem overflowGivesInfinity : Obligations.OverflowGivesInfinity := by
  intro x y hx hy
  have hadd := rounds_fAdd hx hy
  have hsub := rounds_fSub hx hy
  have hmul := rounds_fMul hx hy
  have h149 : 0 < 2 ^ 149 := Nat.two_pow_pos 149
  refine ⟨by simpa using hadd.isInf_iff Nat.one_pos, hadd.negOf_iff_of_isInf Nat.one_pos,
    by simpa using hsub.isInf_iff Nat.one_pos, hsub.negOf_iff_of_isInf Nat.one_pos,
    ?_, hmul.negOf_iff_of_isInf h149, fun hz => ?_, fun hz zx => ?_⟩
  · rw [hmul.isInf_iff h149, Nat.cast_pow, Nat.cast_ofNat, mul_assoc, ← pow_add]
  · have hd := (scaledMag_pos_iff y).2 hz
    have hdiv := rounds_fDiv hx hy hz
    refine ⟨?_, fun hi => (hdiv.negOf_iff_of_isInf hd hi).trans (scaled_mul_neg_iff h149 hz)⟩
    rw [hdiv.isInf_iff hd, Int.abs_eq_natAbs, Int.abs_eq_natAbs, Int.abs_eq_natAbs,
      scaled_eq_signed x, scaled_eq_signed y, natAbs_signed, natAbs_signed, natAbs_signed]
    push_cast
    rfl
  · rw [fDiv_of_isZero_right hx zx hz]
    exact ⟨isInf_pack_infMag _, by simp [negOf_pack _ infMag (by norm_num [infMag])]⟩

/-- Settles O48: the comparisons are those of the values, an infinity's lying beyond every finite one. -/
theorem comparisonsFollowTheValues : Obligations.ComparisonsFollowTheValues := by
  intro x y
  refine ⟨fun hx hy => compare_iff (not_isNaN_of_isFinite hx) (not_isNaN_of_isFinite hy),
    fun hx hy => ?_, fun hx hy => ?_, fun hn => ?_⟩
  · have nx := not_isNaN_of_isInf hx
    have ny := not_isNaN_of_isFinite hy
    have hlt : scaledMag y < scaledMag x :=
      scaledMag_of_isInf hx ▸ scaledMag_lt_of_isFinite hy
    rw [(compare_iff nx ny).1, (compare_iff nx ny).2, (compare_iff ny nx).1, (compare_iff ny nx).2]
    exact signed_order_of_lt (negOf x) (negOf y) hlt
  · have hpos : 0 < magValue infMag := by rw [magValue_infMag]; positivity
    obtain ⟨hlt, hle⟩ := compare_iff (not_isNaN_of_isInf hx) (not_isNaN_of_isInf hy)
    rw [hlt, hle, scaled_eq_signed x, scaled_eq_signed y, scaledMag_of_isInf hx,
      scaledMag_of_isInf hy]
    exact signed_order_of_eq (negOf x) (negOf y) hpos
  · rcases hn with hn | hn <;> simp [fLt, fLe, hn]

/-- Settles O58, by the operands' kinds. -/
theorem infinitiesAndSignsFollowIeee : Obligations.InfinitiesAndSignsFollowIeee := by
  intro x y
  refine ⟨fun hx hy => ?_, fun hx hy => ?_, fun h => by simp [negOf_fMul h],
    fun h => by simp [negOf_fDiv h], fun hx hy h => ?_, fun hx hy h => ?_⟩
  · have nx := not_isNaN_of_isInf hx
    have ny := not_isNaN_of_isFinite hy
    have iy := not_isInf_of_isFinite hy
    have zx := not_isZero_of_isInf hx
    refine ⟨addCore_of_isInf_left _ hx ny (by simp [iy]), addCore_of_isInf_right _ hy hx,
      addCore_of_isInf_left _ hx (by simpa using ny) (by simp [iy]),
      addCore_of_isInf_right _ hy (by simpa using hx), ?_, ?_, fun zy => ?_⟩
    · rw [fDiv_of_isInf_left hx hy]; exact isInf_pack_infMag _
    · rw [fDiv_of_isInf_right hy hx]; exact isZero_pack_zero _
    · rw [fMul_of_isInf (.inl hx) nx ny zx zy, fMul_of_isInf (.inr hx) ny nx zy zx]
      exact ⟨isInf_pack_infMag _, isInf_pack_infMag _⟩
  · have nx := not_isNaN_of_isInf hx
    have ny := not_isNaN_of_isInf hy
    refine ⟨?_, fun h => addCore_of_isInf_left _ hx ny fun _ => h,
      fun h => addCore_of_isInf_left _ hx (by simpa using ny) fun _ => ?_⟩
    · rw [fMul_of_isInf (.inl hx) nx ny (not_isZero_of_isInf hx) (not_isZero_of_isInf hy)]
      exact isInf_pack_infMag _
    · rw [negOf_fNeg]
      exact Bool.eq_not_iff.2 h
  · rw [fAdd, addCore_of_isFinite _ hx hy, addFinite_of_sum_eq_zero h]
    exact ⟨isZero_pack_zero _, by simp⟩
  · rw [fSub, addCore_of_isFinite _ hx (by simpa using hy),
      addFinite_of_sum_eq_zero (by rw [scaled_fNeg]; omega)]
    exact ⟨isZero_pack_zero _, by simp⟩

end Sys2Proof.Proofs
end

section
/-! The helpers `sat16` and `wrap` (00_scope.md R15) and the statements about them. -/

namespace Sys2Proof.Proofs

open Sys2Proof.Machine Sys2Proof.Laws Sys2Proof.Safety

/-! ### sat16 -/

theorem truncToInt_eq_signed (y : F32) :
    truncToInt y = signed (negOf y) (scaledMag y / 2 ^ 149) := rfl

/-- Rounding toward zero is the division that truncates. -/
theorem truncToInt_eq (y : F32) : truncToInt y = Int.tdiv (scaled y) (2 ^ 149) := by
  rw [truncToInt_eq_signed, scaled_eq_signed]
  cases negOf y
  · simp only [signed_false]; rfl
  · simp only [signed_true, Int.neg_tdiv]; rfl

theorem scaled_f32767 : scaled f32767 = 32767 * 2 ^ 149 := by decide +kernel
theorem scaled_fMinus32768 : scaled fMinus32768 = -32768 * 2 ^ 149 := by decide +kernel

theorem fLe_f32767_iff {y : F32} (hy : isNaN y = false) :
    fLe f32767 y = true ↔ 32767 * 2 ^ 149 ≤ scaled y := by
  rw [(compare_iff (by decide) hy).2, scaled_f32767]

theorem fLe_fMinus32768_iff {y : F32} (hy : isNaN y = false) :
    fLe y fMinus32768 = true ↔ scaled y ≤ -32768 * 2 ^ 149 := by
  rw [(compare_iff hy (by decide)).2, scaled_fMinus32768]

theorem sat16Int_of_isNaN {y : F32} (h : isNaN y = true) : sat16Int y = 0 := by simp [sat16Int, h]

theorem sat16Int_of_ge {y : F32} (hn : isNaN y = false) (h : 32767 * 2 ^ 149 ≤ scaled y) :
    sat16Int y = 32767 := by
  simp [sat16Int, hn, (fLe_f32767_iff hn).2 h]

theorem sat16Int_of_le {y : F32} (hn : isNaN y = false) (h : scaled y ≤ -32768 * 2 ^ 149) :
    sat16Int y = -32768 := by
  have h1 : ¬ fLe f32767 y = true := by rw [fLe_f32767_iff hn]; omega
  simp [sat16Int, hn, h1, (fLe_fMinus32768_iff hn).2 h]

theorem sat16Int_of_between {y : F32} (hn : isNaN y = false) (h1 : -32768 * 2 ^ 149 < scaled y)
    (h2 : scaled y < 32767 * 2 ^ 149) : sat16Int y = Int.tdiv (scaled y) (2 ^ 149) := by
  have h1' : ¬ fLe y fMinus32768 = true := by rw [fLe_fMinus32768_iff hn]; omega
  have h2' : ¬ fLe f32767 y = true := by rw [fLe_f32767_iff hn]; omega
  simp only [sat16Int, hn, h1', h2', truncToInt_eq]
  rfl

/-- A sample fits 16 bits. -/
theorem sat16Int_bounds (y : F32) : -32768 ≤ sat16Int y ∧ sat16Int y ≤ 32767 := by
  cases hn : isNaN y with
  | true => rw [sat16Int_of_isNaN hn]; omega
  | false =>
    rcases le_or_gt (32767 * 2 ^ 149) (scaled y) with h2 | h2
    · rw [sat16Int_of_ge hn h2]; omega
    rcases le_or_gt (scaled y) (-32768 * 2 ^ 149) with h1 | h1
    · rw [sat16Int_of_le hn h1]; omega
    · rw [sat16Int_of_between hn h1 h2]
      rw [← truncToInt_eq, truncToInt_eq_signed]
      rw [scaled_eq_signed] at h1 h2
      cases hs : negOf y <;> simp only [hs, signed_true, signed_false] at h1 h2 ⊢ <;> omega

/-- `OUT` reads back as the sample. -/
theorem outWord_toInt (y : F32) : (outWord y).toInt = sat16Int y := by
  obtain ⟨h1, h2⟩ := sat16Int_bounds y
  rw [outWord, BitVec.toInt_signExtend_of_le (by norm_num), sat16, BitVec.toInt_ofInt]
  exact Int.bmod_eq_of_le (by omega) (by omega)

/-- An infinity lies beyond the bounds. -/
theorem scaled_of_isInf {y : F32} (h : isInf y = true) :
    scaled y = signed (negOf y) (2 ^ 24 * 2 ^ 253) := by
  rw [scaled_eq_signed, scaledMag_of_isInf h, magValue_infMag]

/-- Settles O31: the sample by the value of `y`, the comparisons being those of the values. -/
theorem sat16TruncatesAndSaturates : Obligations.Sat16TruncatesAndSaturates := by
  intro y
  rw [outWord_toInt]
  refine ⟨sat16Int_of_isNaN, fun h => ?_, fun h => ?_, fun h => ?_,
    fun h => sat16Int_of_ge (not_isNaN_of_isFinite h),
    fun h => sat16Int_of_le (not_isNaN_of_isFinite h),
    fun h => sat16Int_of_between (not_isNaN_of_isFinite h)⟩
  · have hn := ((fLe_iff _ _).1 h).2.1
    exact sat16Int_of_ge hn ((fLe_f32767_iff hn).1 h)
  · have hn := ((fLe_iff _ _).1 h).1
    exact sat16Int_of_le hn ((fLe_fMinus32768_iff hn).1 h)
  · have hn := not_isNaN_of_isInf h
    have hs := scaled_of_isInf h
    cases hneg : negOf y with
    | true => exact sat16Int_of_le hn (by rw [hs, hneg, signed_true]; omega)
    | false => exact sat16Int_of_ge hn (by rw [hs, hneg, signed_false]; omega)

/-! ### wrap -/

/-- The numbers from 1.0 up are whole multiples of 2^-23. -/
theorem two_pow_dvd_magValue {m : Nat} (h : 2 ^ 149 ≤ magValue m) : 2 ^ 126 ∣ magValue m := by
  obtain ⟨sh, a, rfl, ha, hlo⟩ := exists_binade m
  rw [magValue_binade sh a ha.le hlo] at h ⊢
  have hsh : 126 ≤ sh := by
    by_contra hc
    have hle : 2 ^ sh ≤ 2 ^ 125 := Nat.pow_le_pow_right (by norm_num) (by omega)
    have := Nat.mul_le_mul (Nat.le_sub_one_of_lt ha) hle
    omega
  exact Dvd.dvd.mul_left (pow_dvd_pow 2 hsh) a

theorem scaled_fOne : scaled fOne = 2 ^ 149 := by decide +kernel
theorem scaled_fMinusOne : scaled fMinusOne = -2 ^ 149 := by decide +kernel
theorem scaled_fTwo : scaled fTwo = 2 * 2 ^ 149 := by decide +kernel

/-- A whole multiple of 2^-23 in [-1, 1] is representable, so a rounding gives it exactly. -/
theorem Rounds.exact_of_dvd {t : Int} {r : F32} (h : Rounds t 1 r) (hdvd : 2 ^ 126 ∣ t)
    (hlo : -2 ^ 149 ≤ t) (hhi : t ≤ 2 ^ 149) : isFinite r = true ∧ scaled r = t := by
  obtain ⟨a, ha⟩ : 2 ^ 126 ∣ t.natAbs := by
    simpa using Int.natAbs_dvd_natAbs.2 hdvd
  obtain ⟨k, hk⟩ := exists_magValue_eq a 126 (by omega)
  have hlt : k < infMag := by
    rw [← magValue_strictMono.lt_iff_lt, hk, magValue_infMag]
    omega
  simpa using h.exact Nat.one_pos hlt (by rw [hk, ha]; ring)

/-- Settles O39: a phase that is corrected is a whole multiple of 2^-23, and so is the corrected phase,
which is therefore representable. -/
theorem wrapBringsThePhaseIntoRange : Obligations.WrapBringsThePhaseIntoRange := by
  intro p hp hlo hhi
  have hn := not_isNaN_of_isFinite hp
  have hdvd : 2 ^ 149 ≤ (scaled p).natAbs → (2 : Int) ^ 126 ∣ scaled p := fun h => by
    rw [← Int.dvd_natAbs]
    rw [scaled_eq_signed, natAbs_signed] at h ⊢
    exact_mod_cast two_pow_dvd_magValue h
  have hge : fLe ⟨0x3F800000#32⟩ p = true ↔ scaled fOne ≤ scaled p :=
    (compare_iff (x := fOne) (by decide) hn).2
  have hlt : fLt p ⟨0xBF800000#32⟩ = true ↔ scaled p < scaled fMinusOne :=
    (compare_iff (y := fMinusOne) hn (by decide)).1
  rw [scaled_fOne] at hge
  rw [scaled_fMinusOne] at hlt
  rcases wrap_rule p with ⟨h, hw⟩ | ⟨h, hw⟩ | ⟨h1, h2, hw⟩
  · have h := hge.1 h
    have hr : Rounds (scaled p - 2 * 2 ^ 149) 1 (wrap p) := by
      rw [hw, ← scaled_fTwo]; exact rounds_fSub hp (by decide)
    obtain ⟨hf, hs⟩ := hr.exact_of_dvd (by have := hdvd (by omega); omega) (by omega) (by omega)
    exact ⟨hf, by omega, by omega, by omega⟩
  · have h := hlt.1 h
    have hr : Rounds (scaled p + 2 * 2 ^ 149) 1 (wrap p) := by
      rw [hw, ← scaled_fTwo]; exact rounds_fAdd hp (by decide)
    obtain ⟨hf, hs⟩ := hr.exact_of_dvd (by have := hdvd (by omega); omega) (by omega) (by omega)
    exact ⟨hf, by omega, by omega, by omega⟩
  · rw [Bool.eq_false_iff, Ne, hge] at h1
    rw [Bool.eq_false_iff, Ne, hlt] at h2
    rw [hw]
    exact ⟨hp, by omega, by omega, .inl rfl⟩

end Sys2Proof.Proofs
end

section
/-! What a command does before its status write, said once: one case per way a command can end. Which
register a command writes and how a channel can change over it follow case by case. -/

namespace Sys2Proof.Proofs

open Sys2Proof.Machine Sys2Proof.Safety

/-- `CommandEffect s i u`: from `s` the command `i` reaches `u`, its status write still to come. A command
that raises an error has changed nothing by then (60_exceptions.md R302); `INIT`, `KILL` and `SAMPLE` raise
none (R303). -/
inductive CommandEffect (s : State) : Instr → State → Prop
  | failed {i : Instr} (hi : i ≠ .init ∧ i ≠ .kill ∧ i ≠ .sample) : CommandEffect s i s
  | reset : CommandEffect s .init (withOut (withVol (withInst (withCh s (initialChannels s.cfg))
      (initialInst s.cfg)) s.cfg.volumeInit) 0)
  | bound {note instr : BitVec 8} {n : Nat} (hinstr : instrOk s.cfg instr = true)
      (hvel : velocityOk (floatOperand s.arg) = true) (hn : firstDead s = some n) :
      CommandEffect s (.noteOn note instr)
        (modifyChannel s n (chInit s.cfg s.inst note instr (floatOperand s.arg)))
  | released {note instr : BitVec 8} {n : Nat} (hn : firstMatch s note instr = some n) :
      CommandEffect s (.noteOff note instr) (modifyChannel s n fun c => { c with released := true })
  | killed : CommandEffect s .kill (withCh s (s.ch.map fun c => { c with live := false }))
  | volumeSet : CommandEffect s .setVolume (withVol s (floatOperand s.arg))
  | tunableSet {group : BitVec 8} {raw : BitVec 12} (n : Nat) (f : Tunables → Tunables) :
      CommandEffect s (.setParam group raw) (modifyInst s n f)
  | sampled : CommandEffect s .sample (withOut
      (withCh s (s.ch.map fun c => (channelTurn s.cfg s.inst fZero c).2))
      (outWord (scaleSum s.cfg s.vol (mixPass s.cfg s.inst fZero s.ch).1)))

/-- Every command ends with one status write on what it has done (60_exceptions.md R302). -/
theorem exec_effect {i : Instr} {s t : State} (h : exec i s = .next t) :
    ∃ u code, CommandEffect s i u ∧ t = statusWrite u (decide (code = .ok)) code := by
  have ends {u : State} {code : ResultCode} (he : CommandEffect s i u)
      (hx : exec i s = .next (statusWrite u (decide (code = .ok)) code)) :
      ∃ u code, CommandEffect s i u ∧ t = statusWrite u (decide (code = .ok)) code :=
    ⟨u, code, he, by rw [h] at hx; exact Host.Outcome.next.inj hx⟩
  cases i with
  | init => exact ends (code := .ok) .reset rfl
  | kill => exact ends (code := .ok) .killed rfl
  | sample =>
    refine ends (code := .ok) .sampled ?_
    rw [← mixPass_snd s.cfg s.inst fZero s.ch]
    rfl
  | noteOn note instr =>
    rcases execNoteOn_cases note instr s with ⟨-, hx⟩ | ⟨-, -, hx⟩ | ⟨hok, n, hn, hx⟩
    · exact ends (code := .badOperand) (.failed (by simp)) hx
    · exact ends (code := .poolExhausted) (.failed (by simp)) hx
    · simp only [Bool.and_eq_true] at hok
      exact ends (code := .ok) (.bound hok.1.2 hok.2 hn) hx
  | noteOff note instr =>
    rcases execNoteOff_cases note instr s with ⟨-, hx⟩ | ⟨-, -, hx⟩ | ⟨-, n, hn, hx⟩
    · exact ends (code := .badOperand) (.failed (by simp)) hx
    · exact ends (code := .noMatch) (.failed (by simp)) hx
    · exact ends (code := .ok) (.released hn) hx
  | setVolume =>
    rcases execSetVolume_cases s with ⟨-, hx⟩ | ⟨-, hx⟩
    · exact ends (code := .badOperand) (.failed (by simp)) hx
    · exact ends (code := .ok) .volumeSet hx
  | setParam group raw =>
    rcases execSetParam_cases group raw s with ⟨-, hx⟩ | ⟨kn, -, hx⟩
    · exact ends (code := .badOperand) (.failed (by simp)) hx
    · exact ends (code := .ok) (.tunableSet kn.instr _) hx

@[simp] theorem modifyChannel_frame (s : State) (n : Nat) (f : Channel → Channel) :
    (modifyChannel s n f).arg = s.arg ∧ (modifyChannel s n f).out = s.out ∧
    (modifyChannel s n f).chanSel = s.chanSel ∧ (modifyChannel s n f).inst = s.inst ∧
    (modifyChannel s n f).vol = s.vol ∧ (modifyChannel s n f).cfg = s.cfg ∧
    (modifyChannel s n f).pending = s.pending ∧ (modifyChannel s n f).obs = s.obs := by
  simp [modifyChannel]

@[simp] theorem modifyInst_frame (s : State) (n : Nat) (f : Tunables → Tunables) :
    (modifyInst s n f).arg = s.arg ∧ (modifyInst s n f).out = s.out ∧
    (modifyInst s n f).chanSel = s.chanSel ∧ (modifyInst s n f).ch = s.ch ∧
    (modifyInst s n f).vol = s.vol ∧ (modifyInst s n f).cfg = s.cfg ∧
    (modifyInst s n f).pending = s.pending ∧ (modifyInst s n f).obs = s.obs := by
  simp [modifyInst]

/-- Settles O19: what each command has done leaves every register alone but its own, and the status write
touches none of them. -/
theorem eachRegisterHasItsOnlyWriters : Obligations.EachRegisterHasItsOnlyWriters := by
  intro i s t h
  obtain ⟨u, code, he, rfl⟩ := exec_effect h
  cases he <;> simp

/-! ### One channel over a command -/

/-- What can become of channel `c` over the command `i` from `s`: it stays as it is, or it takes the one
change that the command makes. -/
inductive ChannelEffect (s : State) (c : Channel) : Instr → Channel → Prop
  | same {i : Instr} (hi : i ≠ .init ∧ i ≠ .kill ∧ i ≠ .sample) : ChannelEffect s c i c
  | reset : ChannelEffect s c .init channelZero
  | bound {note instr : BitVec 8} (hinstr : instrOk s.cfg instr = true)
      (hvel : velocityOk (floatOperand s.arg) = true) (hdead : c.live = false) :
      ChannelEffect s c (.noteOn note instr)
        (chInit s.cfg s.inst note instr (floatOperand s.arg) c)
  | released {note instr : BitVec 8} (hm : matchesPair note instr c = true) :
      ChannelEffect s c (.noteOff note instr) { c with released := true }
  | killed : ChannelEffect s c .kill { c with live := false }
  | sampled : ChannelEffect s c .sample (channelTurn s.cfg s.inst fZero c).2

/-- Rewriting one entry of a list leaves an entry as it was or rewrites it. -/
theorem getElem?_modify_cases {α : Type} {l : List α} {n j : Nat} {f : α → α} {a b : α}
    (ha : l[j]? = some a) (hb : (l.modify n f)[j]? = some b) : b = a ∨ (n = j ∧ b = f a) := by
  rw [List.getElem?_modify, ha] at hb
  by_cases hn : n = j
  · exact .inr ⟨hn, by simpa [hn] using hb.symm⟩
  · exact .inl (by simpa [hn] using hb.symm)

/-- The channel by channel reading of a command's effect. -/
theorem CommandEffect.channel {s u : State} {i : Instr} {j : Nat} {c c' : Channel}
    (he : CommandEffect s i u) (hc : s.ch[j]? = some c) (hc' : u.ch[j]? = some c') :
    ChannelEffect s c i c' := by
  cases he with
  | failed hi =>
    obtain rfl : c = c' := by simpa [hc] using hc'
    exact .same hi
  | volumeSet | tunableSet =>
    obtain rfl : c = c' := by simpa [hc] using hc'
    exact .same (by simp)
  | reset =>
    obtain rfl : channelZero = c' := by
      simp only [withOut_ch, withVol_ch, withInst_ch, withCh_ch, initialChannels] at hc'
      exact (List.eq_of_mem_replicate (List.mem_of_getElem? hc')).symm
    exact .reset
  | killed =>
    obtain rfl : { c with live := false } = c' := by simpa [hc] using hc'
    exact .killed
  | sampled =>
    obtain rfl : (channelTurn s.cfg s.inst fZero c).2 = c' := by simpa [hc] using hc'
    exact .sampled
  | bound hinstr hvel hn =>
    rcases getElem?_modify_cases hc hc' with rfl | ⟨rfl, rfl⟩
    · exact .same (by simp)
    · obtain ⟨hlt, hdead, -⟩ := firstDead_eq_some.1 hn
      obtain ⟨-, rfl⟩ := List.getElem?_eq_some_iff.1 hc
      exact .bound hinstr hvel hdead
  | released hn =>
    rcases getElem?_modify_cases hc hc' with rfl | ⟨rfl, rfl⟩
    · exact .same (by simp)
    · obtain ⟨hlt, hm, -⟩ := firstMatch_eq_some.1 hn
      obtain ⟨-, rfl⟩ := List.getElem?_eq_some_iff.1 hc
      exact .released hm

/-- A Dead channel's turn in `SAMPLE` is skipped (44_voice_pool_mixer.md R255). -/
theorem channelTurn_of_dead (k : Cfg) (inst : List Tunables) (acc : F32) {c : Channel}
    (h : c.live = false) : (channelTurn k inst acc c).2 = c := by
  simp [channelTurn, h]

/-- A live channel's turn is its evaluation, and the channel stays live unless its envelope entered Killed
(R257). -/
theorem channelTurn_of_live (k : Cfg) (inst : List Tunables) (acc : F32) {c : Channel}
    (h : c.live = true) : (channelTurn k inst acc c).2 =
      { (voiceEval k inst c).c with live := decide ((voiceEval k inst c).c.mode ≠ .killed) } := by
  have hl : (voiceEval k inst c).c.live = true :=
    (congrArg Prod.fst (voiceEval_binding k inst c)).trans h
  by_cases hk : (voiceEval k inst c).c.mode = .killed
  · simp [channelTurn, h, hk]
  · simp [channelTurn, h, hk, ← hl]

/-- Settles O24: what can become of a channel over a command, case by case; after a platform reset every
channel is the reset value, which is Dead. -/
theorem channelLifecycleHasNoOtherTransition :
    Obligations.ChannelLifecycleHasNoOtherTransition := by
  refine ⟨fun i s t j c c' h hc hc' => ?_, fun s t h c hc => ?_⟩
  · obtain ⟨u, code, he, rfl⟩ := exec_effect h
    cases he.channel hc hc' with
    | same hi =>
      obtain ⟨hinit, hkill, hsample⟩ := hi
      exact ⟨fun hd hl => absurd hl (by simp [hd]), fun _ _ => .inl rfl,
        fun hl hd => absurd hd (by simp [hl]), fun h => absurd h hsample,
        fun h => h.elim (absurd · hkill) (absurd · hinit)⟩
    | reset => simp [channelZero]
    | bound _ _ hdead => simp [hdead, chInit, oscInit, envInit]
    | released hm => obtain ⟨hlive, hrel, -⟩ := matchesPair_iff.1 hm; simp [hlive, hrel]
    | killed => simp
    | sampled =>
      cases hl : c.live with
      | false => simp [channelTurn_of_dead s.cfg s.inst fZero hl, hl]
      | true =>
        have hrel : (voiceEval s.cfg s.inst c).c.released = c.released :=
          congrArg (fun b => b.2.1) (voiceEval_binding s.cfg s.inst c)
        simp [channelTurn_of_live s.cfg s.inst fZero hl, hrel]
  · obtain rfl := Host.Outcome.next.inj h
    rw [List.eq_of_mem_replicate hc]
    rfl

end Sys2Proof.Proofs
end

section
/-! The xorshift step of the noise register (41_oscillator.md R178): each of its three parts, a word
combined with a shift of itself, can be undone bit by bit. -/

namespace Sys2Proof.Proofs

open Sys2Proof.Machine

/-- A left shift by one place or more leaves bit 0 of the combination alone, so the bits are recovered from
the lowest up. -/
theorem xor_shiftLeft_injective {w n : Nat} (hn : 1 ≤ n) :
    Function.Injective fun x : BitVec w => x ^^^ (x <<< n) := by
  intro x y h
  have bit (i : Nat) : x.getLsbD i = y.getLsbD i := by
    induction i using Nat.strong_induction_on with
    | _ i ih =>
      have hi := congrArg (fun z => z.getLsbD i) h
      simp only [BitVec.getLsbD_xor, BitVec.getLsbD_shiftLeft] at hi
      by_cases hlt : i < n
      · simpa [hlt] using hi
      · simpa [ih (i - n) (by omega)] using hi
  exact BitVec.eq_of_getLsbD_eq fun i _ => bit i

/-- A right shift by one place or more leaves the top bit of the combination alone, so the bits are
recovered from the highest down. -/
theorem xor_ushiftRight_injective {w n : Nat} (hn : 1 ≤ n) :
    Function.Injective fun x : BitVec w => x ^^^ (x >>> n) := by
  intro x y h
  have bit (k i : Nat) (hk : w ≤ i + k) : x.getLsbD i = y.getLsbD i := by
    induction k using Nat.strong_induction_on generalizing i with
    | _ k ih =>
      by_cases hw : w ≤ i
      · simp [BitVec.getLsbD_of_ge, hw]
      · have hi := congrArg (fun z => z.getLsbD i) h
        simp only [BitVec.getLsbD_xor, BitVec.getLsbD_ushiftRight] at hi
        simpa [ih (k - 1) (by omega) (n + i) (by omega)] using hi
  exact BitVec.eq_of_getLsbD_eq fun i _ => bit w i (by omega)

/-- The noise parameters of a well-formed configuration (00_scope.md R8). -/
theorem noise_of_wellFormed {k : Cfg} (h : k.wellFormed = true) :
    1 ≤ k.xsA ∧ 1 ≤ k.xsB ∧ 1 ≤ k.xsC ∧ k.noiseSeed ≠ 0#24 := by
  simp only [Cfg.wellFormed, cfgOk, noiseOk, Bool.and_eq_true, decide_eq_true_eq] at h
  tauto

/-- The step of the noise register can be undone (R181). -/
theorem xorshift_injective {k : Cfg} (h : k.wellFormed = true) :
    Function.Injective (xorshift k) := by
  obtain ⟨ha, hb, hc, -⟩ := noise_of_wellFormed h
  exact (xor_shiftLeft_injective hc).comp
    ((xor_ushiftRight_injective hb).comp (xor_shiftLeft_injective ha))

theorem xorshift_zero (k : Cfg) : xorshift k 0#24 = 0#24 := by simp [xorshift]

/-- The noise register never reaches zero (R181). -/
theorem xorshift_ne_zero {k : Cfg} (h : k.wellFormed = true) {x : BitVec 24} (hx : x ≠ 0#24) :
    xorshift k x ≠ 0#24 :=
  fun hz => hx (xorshift_injective h (hz.trans (xorshift_zero k).symm))

end Sys2Proof.Proofs
end

section
/-! The machine invariant (10_state.md R33 to R44, 41_oscillator.md R181): reset meets it, and every
command, access and step keeps it. -/

namespace Sys2Proof.Proofs

open Sys2Proof.Machine Sys2Proof.Safety

/-! ### Reset -/

/-- Settles O15: each register is its literal, the channel file is one value repeated, and the tunables are
read off the descriptors. -/
theorem resetGivesEveryStateItsStatedValue : Obligations.ResetGivesEveryStateItsStatedValue := by
  refine fun k => ⟨rfl, rfl, rfl, rfl, rfl, fun i => ?_, fun i => ?_⟩
  · exact List.getElem?_replicate
  · exact List.getElem?_map

theorem resetOf_dead {k : Cfg} {c : Channel} (hc : c ∈ (State.resetOf k).ch) : c.live = false := by
  rw [List.eq_of_mem_replicate hc]
  rfl

theorem liveVoices_resetOf (k : Cfg) : liveVoices (State.resetOf k) = 0 := by
  simp only [liveVoices, List.length_eq_zero_iff, List.filter_eq_nil_iff]
  intro c hc
  simp [resetOf_dead hc]

theorem inv_resetOf {k : Cfg} (h : k.wellFormed = true) : Inv (State.resetOf k) where
  cfg_ok := h
  ch_length := List.length_replicate
  inst_length := List.length_map ..
  voices c hc hl := by simp [resetOf_dead hc] at hl
  status_eq := ⟨.ok, by rw [liveVoices_resetOf]; rfl⟩
  chanSel_lt := by simp [State.resetOf]
  out_sext := ⟨0, rfl⟩

theorem levelInv_resetOf (k : Cfg) : LevelInv (State.resetOf k) := by
  intro c hc hl
  simp [resetOf_dead hc] at hl

/-- The spec's test configuration is well-formed (95_test_vectors.md section 1). -/
theorem testCfg_wellFormed : testCfg.wellFormed = true := by decide +kernel

/-- Settles O52: no channel is live after reset, so nothing is asked of one. -/
theorem resetMeetsTheInvariants : Obligations.ResetMeetsTheInvariants :=
  ⟨fun k h => ⟨inv_resetOf h, levelInv_resetOf k⟩, inv_resetOf testCfg_wellFormed,
    levelInv_resetOf testCfg⟩

/-! ### A live voice over a command -/

/-- What `NOTE_ON` binds is a voice: its operands were checked (44_voice_pool_mixer.md R251), its mode is
Attack, and its noise register is the seed (R252). -/
theorem voiceOk_chInit {k : Cfg} (hk : k.wellFormed = true) {inst : List Tunables}
    {note instr : BitVec 8} {v : F32} {c : Channel} (hinstr : instrOk k instr = true)
    (hvel : velocityOk v = true) : VoiceOk k (chInit k inst note instr v c) where
  instr_lt := of_decide_eq_true hinstr
  vel_unit := Bool.and_eq_true_iff.1 hvel
  not_killed := by simp [chInit, oscInit, envInit]
  noise_ne _ := (noise_of_wellFormed hk).2.2.2

/-- A voice that its turn in `SAMPLE` leaves live is a voice still: its binding is kept, its noise register
stepped at most (R257, 41_oscillator.md R181). -/
theorem voiceOk_channelTurn {k : Cfg} (hk : k.wellFormed = true) {inst : List Tunables}
    {c : Channel} (hc : c.live = true → VoiceOk k c)
    (hl : (channelTurn k inst fZero c).2.live = true) :
    VoiceOk k (channelTurn k inst fZero c).2 := by
  cases hlive : c.live with
  | false => rw [channelTurn_of_dead k inst fZero hlive, hlive] at hl; cases hl
  | true =>
    rw [channelTurn_of_live k inst fZero hlive] at hl ⊢
    obtain ⟨hlt, hvel, -, hnz⟩ := hc hlive
    have hb := voiceEval_binding k inst c
    simp only [binding, Prod.mk.injEq] at hb
    obtain ⟨-, -, -, hinstr, hv⟩ := hb
    refine ⟨?_, ?_, of_decide_eq_true hl, fun ho => ?_⟩
    · rw [hinstr]; exact hlt
    · rw [hv]; exact hvel
    · rw [hinstr] at ho
      rw [voiceEval_nz, if_pos ho]
      exact xorshift_ne_zero hk (hnz ho)

/-- Whatever becomes of a channel over a command, it is a voice if it is live (10_state.md R40). -/
theorem ChannelEffect.voiceOk {s : State} {i : Instr} {c c' : Channel}
    (he : ChannelEffect s c i c') (hk : s.cfg.wellFormed = true)
    (hc : c.live = true → VoiceOk s.cfg c) (hl : c'.live = true) : VoiceOk s.cfg c' := by
  cases he with
  | same => exact hc hl
  | reset => cases hl
  | bound hinstr hvel => exact voiceOk_chInit hk hinstr hvel
  | released => exact { hc hl with }
  | killed => cases hl
  | sampled => exact voiceOk_channelTurn hk hc hl

/-! ### The register files and the registers over a command -/

theorem CommandEffect.cfg_eq {s u : State} {i : Instr} (he : CommandEffect s i u) :
    u.cfg = s.cfg := by
  cases he <;> simp

theorem CommandEffect.chanSel_eq {s u : State} {i : Instr} (he : CommandEffect s i u) :
    u.chanSel = s.chanSel := by
  cases he <;> simp

/-- No command changes the size of the channel file (10_state.md R37). -/
theorem CommandEffect.ch_length {s u : State} {i : Instr} (he : CommandEffect s i u)
    (h : s.ch.length = s.cfg.nVoices) : u.ch.length = s.cfg.nVoices := by
  cases he <;> simp [h, initialChannels]

/-- No command changes the size of the tunable file (R44). -/
theorem CommandEffect.inst_length {s u : State} {i : Instr} (he : CommandEffect s i u)
    (h : s.inst.length = s.cfg.nInstr) : u.inst.length = s.cfg.nInstr := by
  cases he <;> simp [h, initialInst, Cfg.nInstr]

/-- `OUT` is a sign-extended 16-bit sample (R35): `SAMPLE` writes one and `INIT` writes 0. -/
theorem CommandEffect.out_sext {s u : State} {i : Instr} (he : CommandEffect s i u)
    (h : ∃ v : BitVec 16, s.out = v.signExtend 32) : ∃ v : BitVec 16, u.out = v.signExtend 32 := by
  cases he with
  | sampled => exact ⟨_, rfl⟩
  | reset => exact ⟨0, rfl⟩
  | failed | bound | released | killed | volumeSet | tunableSet => simpa using h

/-- What a command has done, its status written, meets the invariant. -/
theorem CommandEffect.inv {s u : State} {i : Instr} (he : CommandEffect s i u) (hs : Inv s)
    (code : ResultCode) : Inv (statusWrite u (decide (code = .ok)) code) where
  cfg_ok := he.cfg_eq ▸ hs.cfg_ok
  ch_length := by
    simpa only [statusWrite_ch, statusWrite_cfg, he.cfg_eq] using he.ch_length hs.ch_length
  inst_length := by
    simpa only [statusWrite_inst, statusWrite_cfg, he.cfg_eq] using he.inst_length hs.inst_length
  voices c' hc' hl := by
    obtain ⟨j, hj, rfl⟩ := List.mem_iff_getElem.1 hc'
    rw [statusWrite_ch, he.ch_length hs.ch_length, ← hs.ch_length] at hj
    rw [statusWrite_cfg, he.cfg_eq]
    exact (he.channel (List.getElem?_eq_getElem hj) (List.getElem?_eq_getElem _)).voiceOk hs.cfg_ok
      (hs.voices _ (List.getElem_mem hj)) hl
  status_eq := ⟨code, statusWrite_status u _ code⟩
  chanSel_lt := by simpa only [statusWrite_chanSel, he.chanSel_eq] using hs.chanSel_lt
  out_sext := he.out_sext hs.out_sext

/-! ### The invariant over a step -/

theorem exec_keeps_inv {i : Instr} {s t : State} (hs : Inv s) (h : exec i s = .next t) : Inv t := by
  obtain ⟨u, code, he, rfl⟩ := exec_effect h
  exact he.inv hs code

/-- An illegal word writes `STATUS` alone (60_exceptions.md R302). -/
theorem execute_keeps_inv {s t : State} {w : Word} (hs : Inv s) (h : execute s w = .next t) :
    Inv t := by
  unfold execute at h
  cases hd : decode w with
  | ok i => exact exec_keeps_inv hs (by simpa only [hd] using h)
  | error e =>
    obtain rfl : statusWrite s false .illegal = t := by simpa [hd, raiseError] using h
    exact { hs with status_eq := ⟨.illegal, statusWrite_status s false .illegal⟩ }

/-- The host's stream and what the run has shown are no part of the invariant. -/
theorem inv_withPending {s : State} (hs : Inv s) (l : List HostEvent) : Inv (withPending s l) :=
  { hs with }

theorem inv_withObs {s : State} (hs : Inv s) (l : List Observation) : Inv (withObs s l) :=
  { hs with }

theorem writeReg_keeps_inv {s t : State} {v : Word} {r : HostReg} (hs : Inv s)
    (h : writeReg s v r = .next t) : Inv t := by
  cases r with
  | cmd =>
    obtain ⟨u, hu, -⟩ := execute_nextKeepsCfg s v
    rw [writeReg, hu, noteCommand_next] at h
    obtain rfl := Host.Outcome.next.inj h
    exact inv_withObs (execute_keeps_inv hs hu) _
  | arg => obtain rfl := Host.Outcome.next.inj h; exact { hs with }
  | chanSel =>
    obtain rfl := Host.Outcome.next.inj h
    exact { hs with
      chanSel_lt := by
        rw [withChanSel_chanSel, BitVec.zeroExtend, BitVec.toNat_setWidth]
        omega }
  | status | out | chanInfo | config | chanEnv => obtain rfl := Host.Outcome.next.inj h; exact hs

theorem busWrite_keeps_inv {s t : State} {addr width : Nat} {v : Word} (hs : Inv s)
    (h : busWrite s addr width v = .next t) : Inv t := by
  unfold busWrite memWrite at h
  split at h
  · cases hr : regAt (offsetOf addr) with
    | some r => exact writeReg_keeps_inv hs (by simpa only [hr] using h)
    | none =>
      obtain rfl : s = t := by simpa [hr] using h
      exact hs
  · obtain rfl := Host.Outcome.next.inj h
    exact hs

theorem takeEvent_keeps_inv {s t : State} {e : HostEvent} (hs : Inv s)
    (h : takeEvent s e = .next t) : Inv t := by
  cases e with
  | read addr width =>
    by_cases hw : inWindow s addr = true
    · rw [takeEvent, if_pos hw] at h
      obtain rfl := Host.Outcome.next.inj h
      exact inv_withObs hs _
    · rw [takeEvent, if_neg hw] at h
      cases h
  | write addr width v =>
    by_cases hw : inWindow s addr = true
    · rw [takeEvent, if_pos hw] at h
      exact busWrite_keeps_inv hs h
    · rw [takeEvent, if_neg hw] at h
      cases h
  | reset =>
    obtain rfl := Host.Outcome.next.inj h
    exact inv_withObs (inv_withPending (inv_resetOf hs.cfg_ok) _) _

/-- Settles O50: an idle step changes nothing, and every event that a step can take keeps the invariant. -/
theorem stepKeepsTheInvariant : Obligations.StepKeepsTheInvariant := by
  intro s t hs h
  rcases step_cases s with ⟨-, hx⟩ | ⟨-, -, hx⟩ | ⟨-, e, rest, -, hx⟩ <;> rw [hx] at h
  · cases h
  · exact Host.Outcome.next.inj h ▸ hs
  · exact takeEvent_keeps_inv (inv_withPending hs rest) h

/-! ### The fields of `STATUS` -/

/-- A well-formed configuration has at most 255 voices (00_scope.md R8). -/
theorem nVoices_le_of_wellFormed {k : Cfg} (h : k.wellFormed = true) : k.nVoices ≤ 255 := by
  simp only [Cfg.wellFormed, cfgOk, voicesOk, Bool.and_eq_true, decide_eq_true_eq] at h
  tauto

theorem resultCode_value_le (code : ResultCode) : code.value.toNat ≤ 4 := by
  cases code <;> decide

theorem resultCode_value_eq_zero_iff (code : ResultCode) :
    code.value.toNat = 0 ↔ decide (code = .ok) = true := by
  cases code <;> decide

/-- The live voices of a state that meets the invariant fit the field of `STATUS` (10_state.md R43). -/
theorem liveVoices_le_of_inv {s : State} (hs : Inv s) : liveVoices s ≤ s.cfg.nVoices :=
  hs.ch_length ▸ List.length_filter_le ..

/-- The word of `STATUS` as a number, where `LIVE` and `CODE` fit their fields (R33). -/
theorem resultWord_toNat {n code : Nat} (hn : n < 256) (hc : code < 16) (ok : Bool) :
    (resultWord n code ok).toNat = 256 * n + 16 * code + ok.toNat := by
  have hok := ok.toNat_le
  rw [resultWord, BitVec.toNat_ofNat]
  omega

/-- Settles O25: the state after the step meets the invariant, whose `STATUS` is read field by field. -/
theorem liveFieldCountsTheVoices : Obligations.LiveFieldCountsTheVoices := by
  intro s t hs h
  have ht : Inv t := stepKeepsTheInvariant s t hs h
  obtain ⟨code, hstatus⟩ := ht.status_eq
  have hlive := liveVoices_le_of_inv ht
  have hmax := nVoices_le_of_wellFormed ht.cfg_ok
  have hcode := resultCode_value_le code
  have hzero := resultCode_value_eq_zero_iff code
  have hok := (decide (code = .ok)).toNat_le
  rw [← Bool.toNat_eq_one] at hzero
  rw [hstatus, resultWord_toNat (by omega) (by omega)]
  omega

end Sys2Proof.Proofs
end

section
/-! What a read shows of the channels (10_state.md R47, R48, R51). -/

namespace Sys2Proof.Proofs

open Sys2Proof.Machine Sys2Proof.Safety

/-- `CHAN_INFO` and `CHAN_ENV` of a channel are made of its six shown fields (R51). -/
theorem channelViews_of_shown {b c : Channel} (h : shown b = shown c) :
    channelInfo b = channelInfo c ∧ b.val.bits = c.val.bits := by
  simp only [shown, Prod.mk.injEq] at h
  obtain ⟨hlive, hrel, hmode, hnote, hinstr, hval⟩ := h
  exact ⟨by rw [channelInfo, hlive, hrel, hmode, hnote, hinstr, channelInfo], by rw [hval]⟩

/-- Where the shown fields of the channels and `CHAN_SEL` agree, both select a channel with the same shown
fields, or both none (R47). -/
theorem selectedChannel_shown {s t : State} (hsel : s.chanSel = t.chanSel)
    (hch : s.ch.map shown = t.ch.map shown) :
    (selectedChannel s).map shown = (selectedChannel t).map shown := by
  rw [selectedChannel, selectedChannel, hsel, ← List.getElem?_map, ← List.getElem?_map, hch]

/-- The two views of the selected channel show nothing but its shown fields. -/
theorem views_of_shown {s t : State} (hsel : s.chanSel = t.chanSel)
    (hch : s.ch.map shown = t.ch.map shown) :
    chanInfoView s = chanInfoView t ∧ chanEnvView s = chanEnvView t := by
  have h := selectedChannel_shown hsel hch
  unfold chanInfoView chanEnvView
  cases hs : selectedChannel s with
  | none =>
    have ht : selectedChannel t = none := by simpa [hs] using h.symm
    simp [ht]
  | some c =>
    obtain ⟨b, ht, hb⟩ : ∃ b, selectedChannel t = some b ∧ shown b = shown c := by
      simpa [hs] using h.symm
    obtain ⟨hinfo, hval⟩ := channelViews_of_shown hb
    simp [ht, hinfo, hval]

/-- Settles O14, register by register: a register that is stored agrees by hypothesis, and a view shows
only the configuration or the selected channel's shown fields. -/
theorem readsDoNotShowHiddenState : Obligations.ReadsDoNotShowHiddenState := by
  intro s t off hcfg harg hstatus hout hsel hch
  obtain ⟨hinfo, henv⟩ := views_of_shown hsel hch
  have hreg (r : HostReg) : readReg s r = readReg t r := by
    cases r with
    | cmd => rfl
    | arg => exact harg
    | status => exact hstatus
    | out => exact hout
    | chanSel => simp only [readReg, hsel]
    | chanInfo => exact hinfo
    | config => simp only [readReg, configView, hcfg]
    | chanEnv => exact henv
  unfold memRead
  cases regAt off with
  | some r => exact hreg r
  | none => rfl

end Sys2Proof.Proofs
end

section
/-! What each evaluation of a channel writes and what it reads (10_state.md R38, 41_oscillator.md R186,
42_filter.md R210, R211, 40_envelope.md R140): for each part its frame, and that two channels and two sets
of tunables which agree on what it reads give the same results. -/

namespace Sys2Proof.Proofs

open Sys2Proof.Machine

section
variable (k : Cfg) (d : InstrDesc) (t : Tunables) (c : Channel) (x : F32)

/-! ### Frames -/

/-- The carrier's increment moves the LFO alone (R183). -/
theorem carrierInc_frame : (carrierInc k d t c).2 =
    { c with lphi := (carrierInc k d t c).2.lphi, lp := (carrierInc k d t c).2.lp } := by
  unfold carrierInc
  cases d.vib <;> rfl

/-- Without vibrato there is no LFO to move (R182). -/
theorem carrierInc_no_vibrato (hv : d.vib = false) : (carrierInc k d t c).2 = c := by
  simp [carrierInc, hv]

theorem oscSaw_frame : (oscSaw k d t c).2 =
    { c with phi := (oscSaw k d t c).2.phi, p1 := (oscSaw k d t c).2.p1,
             lphi := (carrierInc k d t c).2.lphi, lp := (carrierInc k d t c).2.lp } := by
  unfold oscSaw
  simp only []
  rw [carrierInc_frame]

theorem oscPulse_frame : (oscPulse k d t c).2 =
    { c with phi := (oscPulse k d t c).2.phi, p1 := (oscPulse k d t c).2.p1,
             p2 := (oscPulse k d t c).2.p2,
             lphi := (carrierInc k d t c).2.lphi, lp := (carrierInc k d t c).2.lp } := by
  unfold oscPulse
  simp only []
  rw [carrierInc_frame]

/-- The LFO after an oscillator's evaluation is the one its carrier left; NOISE has no carrier (R186). -/
theorem oscEval_lfo (hv : d.vib = false) :
    (oscEval k d t c).2.lphi = c.lphi ∧ (oscEval k d t c).2.lp = c.lp := by
  have hc := carrierInc_no_vibrato k d t c hv
  unfold oscEval
  cases d.osc with
  | saw => simp only [oscSaw, hc, and_self]
  | pulse => simp only [oscPulse, hc, and_self]
  | noise => exact ⟨rfl, rfl⟩

/-- The envelope moves its mode, level and target alone (40_envelope.md R140). -/
theorem envEval_frame : (envEval d c).2 =
    { c with mode := (envEval d c).2.mode, val := (envEval d c).2.val,
             tgt := (envEval d c).2.tgt } := by
  rcases releaseEntry_cases c with ⟨-, hr⟩ | ⟨-, -, hr⟩ <;>
    rcases envEval_cases d c _ hr.symm with
      ⟨-, -, h⟩ | ⟨-, -, h⟩ | ⟨-, h⟩ | ⟨-, -, h⟩ | ⟨-, -, h⟩ | ⟨-, h⟩ <;> rw [h]

end

/-! ### What each part reads -/

section
variable (k : Cfg) (d : InstrDesc) {t u : Tunables} {b c : Channel}

/-- The carrier reads the note, and under vibrato the LFO and its depth (41_oscillator.md R182). -/
theorem carrierInc_reads (hnote : b.note = c.note)
    (hvib : d.vib = true → b.lphi = c.lphi ∧ b.lp = c.lp ∧ u.depth = t.depth) :
    (carrierInc k d u b).1 = (carrierInc k d t c).1 ∧
    (d.vib = true → (carrierInc k d u b).2.lphi = (carrierInc k d t c).2.lphi ∧
      (carrierInc k d u b).2.lp = (carrierInc k d t c).2.lp) := by
  cases hv : d.vib with
  | false => simp [carrierInc, hv, hnote]
  | true =>
    obtain ⟨hlphi, hlp, hdepth⟩ := hvib hv
    simp [carrierInc, vibratoInc, hv, hnote, hlphi, hlp, hdepth]

/-- SAW reads what its carrier reads, the phase and the squared phase (R173). -/
theorem oscSaw_reads (hnote : b.note = c.note) (hphi : b.phi = c.phi) (hp1 : b.p1 = c.p1)
    (hinc : (carrierInc k d u b).1 = (carrierInc k d t c).1) :
    (oscSaw k d u b).1 = (oscSaw k d t c).1 ∧
    (oscSaw k d u b).2.phi = (oscSaw k d t c).2.phi ∧
    (oscSaw k d u b).2.p1 = (oscSaw k d t c).2.p1 := by
  unfold oscSaw
  simp only [hinc]
  rw [carrierInc_frame k d u b, carrierInc_frame k d t c]
  simp only [hnote, hphi, hp1, and_self]

/-- PULSE reads what SAW reads, saw 2's squared phase and the duty (R175). -/
theorem oscPulse_reads (hnote : b.note = c.note) (hphi : b.phi = c.phi) (hp1 : b.p1 = c.p1)
    (hp2 : b.p2 = c.p2) (hduty : u.duty = t.duty)
    (hinc : (carrierInc k d u b).1 = (carrierInc k d t c).1) :
    (oscPulse k d u b).1 = (oscPulse k d t c).1 ∧
    (oscPulse k d u b).2.phi = (oscPulse k d t c).2.phi ∧
    (oscPulse k d u b).2.p1 = (oscPulse k d t c).2.p1 ∧
    (oscPulse k d u b).2.p2 = (oscPulse k d t c).2.p2 := by
  unfold oscPulse pulseOffset
  simp only [hinc]
  rw [carrierInc_frame k d u b, carrierInc_frame k d t c]
  simp only [hnote, hphi, hp1, hp2, hduty, and_self]

/-- A filter reads its input, `fs` and the coefficient (42_filter.md R210). -/
theorem filtEval_reads (x : F32) (hfs : b.fs = c.fs) (hcoef : u.coef = t.coef) :
    (filtEval d u b x).1 = (filtEval d t c x).1 ∧
    (filtEval d u b x).2.fs = (filtEval d t c x).2.fs := by
  unfold filtEval
  cases d.filt with
  | none => exact ⟨rfl, hfs⟩
  | lp => simp only [filtLp, hfs, hcoef, and_self]
  | hp => simp only [filtHp, hfs, hcoef, and_self]

/-- The release entry reads `released`, the mode, the level and the target (40_envelope.md R143). -/
theorem releaseEntry_reads (hrel : b.released = c.released) (hmode : b.mode = c.mode)
    (hval : b.val = c.val) (htgt : b.tgt = c.tgt) :
    (releaseEntry b).mode = (releaseEntry c).mode ∧ (releaseEntry b).val = (releaseEntry c).val ∧
    (releaseEntry b).tgt = (releaseEntry c).tgt := by
  simp only [releaseEntry, hrel, hmode, hval]
  split
  · exact ⟨rfl, rfl, rfl⟩
  · exact ⟨hmode, hval, htgt⟩

/-- The envelope reads what its release entry reads, and nothing else (R151). -/
theorem envEval_reads (hrel : b.released = c.released) (hmode : b.mode = c.mode)
    (hval : b.val = c.val) (htgt : b.tgt = c.tgt) :
    (envEval d b).1 = (envEval d c).1 ∧ (envEval d b).2.mode = (envEval d c).2.mode ∧
    (envEval d b).2.val = (envEval d c).2.val ∧ (envEval d b).2.tgt = (envEval d c).2.tgt := by
  obtain ⟨hm, hv, ht⟩ := releaseEntry_reads hrel hmode hval htgt
  simp only [envEval, hm]
  cases hcm : (releaseEntry c).mode with
  | attack => simp only [attackStep, hv, ht]; split <;> simp [hm]
  | decay => simp [decayStep, hv, hm, ht]
  | release => simp only [releaseStep, hv, ht]; split <;> simp [hm]
  | killed => simp [hm, hv, ht]

end

/-- Settles O32: each part's frame and what it reads, side by side. -/
theorem eachEvaluationKeepsToItsFields : Obligations.EachEvaluationKeepsToItsFields := by
  intro k d t u c b x
  refine ⟨fun ho => ?noise, fun ho => ?saw, fun ho => ?pulse, oscEval_lfo k d t c,
    filtEval_channel d t c x, fun hf => by simp [filtEval, hf], filtEval_reads d x,
    envEval_frame d c, envEval_reads d⟩
  case noise =>
    simp only [oscEval, ho]
    exact ⟨rfl, fun hnz => by simp [oscNoise, hnz]⟩
  case saw =>
    simp only [oscEval, ho]
    refine ⟨by rw [oscSaw_frame], fun hnote hphi hp1 hvib => ?_⟩
    obtain ⟨hinc, hlfo⟩ := carrierInc_reads k d hnote hvib
    obtain ⟨hy, hphi', hp1'⟩ := oscSaw_reads k d hnote hphi hp1 hinc
    exact ⟨hy, hphi', hp1', hlfo⟩
  case pulse =>
    simp only [oscEval, ho]
    refine ⟨by rw [oscPulse_frame], fun hnote hphi hp1 hp2 hduty hvib => ?_⟩
    obtain ⟨hinc, hlfo⟩ := carrierInc_reads k d hnote hvib
    obtain ⟨hy, hphi', hp1', hp2'⟩ := oscPulse_reads k d hnote hphi hp1 hp2 hduty hinc
    exact ⟨hy, hphi', hp1', hp2', hlfo⟩

end Sys2Proof.Proofs
end

section
/-! The fields of a word as arithmetic, the views of the diagnostic registers (10_state.md R47 to R49), and
the decoder on the encoder's words (30_encoding.md R112). -/

namespace Sys2Proof.Proofs

open Sys2Proof.Machine Sys2Proof.Safety

/-- A word built from two fields is a number in base `2 ^ n`. -/
theorem toNat_append_arith {m n : Nat} (x : BitVec m) (y : BitVec n) :
    (x ++ y).toNat = x.toNat * 2 ^ n + y.toNat := by
  rw [BitVec.toNat_append, ← Nat.shiftLeft_add_eq_or_of_lt y.isLt, Nat.shiftLeft_eq]

/-- The low byte of a word, with zeros above (10_state.md R36). -/
theorem lowByte_eq (w : Word) :
    (w.extractLsb' 0 8).zeroExtend 32 = BitVec.ofNat 32 (w.toNat % 256) := by
  apply BitVec.eq_of_toNat_eq
  simp

/-! ### The views of the diagnostic registers -/

/-- `CHAN_INFO` of a channel as arithmetic (R47). -/
theorem channelInfo_eq_infoWord (c : Channel) : channelInfo c = infoWord c := by
  have hinstr := c.instr.isLt
  have hnote := c.note.isLt
  have hmode := c.mode.code.isLt
  have hrel := c.released.toNat_le
  have hlive := c.live.toNat_le
  apply BitVec.eq_of_toNat_eq
  simp only [channelInfo, infoWord, toNat_append_arith, BitVec.zeroExtend, BitVec.toNat_setWidth,
    BitVec.toNat_ofNat, BitVec.toNat_ofBool]
  omega

/-- The numbers of voices, instruments and knobs of a well-formed configuration fit a byte (00_scope.md
R8). -/
theorem counts_le_of_wellFormed {k : Cfg} (h : k.wellFormed = true) :
    k.nVoices ≤ 255 ∧ k.nInstr ≤ 255 ∧ k.nKnob ≤ 255 := by
  simp only [Cfg.wellFormed, cfgOk, voicesOk, instrCountOk, knobCountOk, Bool.and_eq_true,
    decide_eq_true_eq] at h
  tauto

/-- `CONFIG` as arithmetic (R49). -/
theorem configView_eq {s : State} (h : s.cfg.wellFormed = true) :
    configView s = BitVec.ofNat 32
      (s.cfg.nVoices + 256 * s.cfg.nInstr + 65536 * s.cfg.nKnob + 16777216) := by
  obtain ⟨hvoices, hinstrs, hknobs⟩ := counts_le_of_wellFormed h
  apply BitVec.eq_of_toNat_eq
  simp only [configView, toNat_append_arith, BitVec.toNat_ofNat]
  omega

/-- Where the channel file has `N_VOICES` entries, a lookup past its end is R47's index that selects no
channel. -/
theorem selectedChannel_eq_inspected {s : State} (h : s.ch.length = s.cfg.nVoices) :
    selectedChannel s = inspected s := by
  have hsel : (s.chanSel.extractLsb' 0 8).toNat = s.chanSel.toNat % 256 := by simp
  rw [selectedChannel, inspected, hsel]
  split
  next hge => exact List.getElem?_eq_none (h ▸ hge)
  next => rfl

theorem chanInfoView_eq {s : State} (h : s.ch.length = s.cfg.nVoices) :
    chanInfoView s = ((inspected s).map infoWord).getD 0 := by
  rw [chanInfoView, selectedChannel_eq_inspected h]
  cases inspected s with
  | none => rfl
  | some c => exact channelInfo_eq_infoWord c

theorem chanEnvView_eq {s : State} (h : s.ch.length = s.cfg.nVoices) :
    chanEnvView s = ((inspected s).map fun c => c.val.bits).getD 0 := by
  rw [chanEnvView, selectedChannel_eq_inspected h]
  cases inspected s <;> rfl

/-! ### The decoder on the encoder's words -/

/-- A field of a word as arithmetic (00_scope.md R11). -/
theorem toNat_field (w : Word) (lo n : Nat) : (field w lo n).toNat = w.toNat / 2 ^ lo % 2 ^ n := by
  simp [field, Nat.shiftRight_eq_div_pow]

/-- A field whose bits of the word spell `x` is `x`. -/
theorem field_eq_of_toNat {w : Word} {lo n : Nat} {x : BitVec n}
    (h : w.toNat / 2 ^ lo % 2 ^ n = x.toNat) : field w lo n = x :=
  BitVec.eq_of_toNat_eq ((toNat_field w lo n).trans h)

theorem toNat_encodeN (op : BitVec 4) (note instr : BitVec 8) :
    (encodeN op note instr).toNat = op.toNat * 2 ^ 28 + instr.toNat * 2 ^ 8 + note.toNat := by
  simp only [encodeN, toNat_append_arith, BitVec.toNat_ofNat]
  omega

theorem toNat_encodeP (op : BitVec 4) (group : BitVec 8) (raw : BitVec 12) :
    (encodeP op group raw).toNat = op.toNat * 2 ^ 28 + group.toNat * 2 ^ 16 + raw.toNat := by
  simp only [encodeP, toNat_append_arith, BitVec.toNat_ofNat]
  omega

/-- A format N word carries its opcode and both operands, and its reserved bits are clear (R103). -/
theorem fields_encodeN (op : BitVec 4) (note instr : BitVec 8) :
    opField (encodeN op note instr) = op ∧ formatN (encodeN op note instr) = true ∧
    noteField (encodeN op note instr) = note ∧ instrField (encodeN op note instr) = instr := by
  have hw := toNat_encodeN op note instr
  have hop := op.isLt
  have hnote := note.isLt
  have hinstr := instr.isLt
  refine ⟨field_eq_of_toNat ?_, beq_iff_eq.2 (field_eq_of_toNat ?_), field_eq_of_toNat ?_,
    field_eq_of_toNat ?_⟩ <;> simp only [hw, BitVec.toNat_ofNat] <;> omega

/-- A format P word carries its opcode and both operands, and its reserved bits are clear (R104). -/
theorem fields_encodeP (op : BitVec 4) (group : BitVec 8) (raw : BitVec 12) :
    opField (encodeP op group raw) = op ∧ formatP (encodeP op group raw) = true ∧
    groupField (encodeP op group raw) = group ∧ rawField (encodeP op group raw) = raw := by
  have hw := toNat_encodeP op group raw
  have hop := op.isLt
  have hgroup := group.isLt
  have hraw := raw.isLt
  refine ⟨field_eq_of_toNat ?_, Bool.and_eq_true_iff.2 ⟨beq_iff_eq.2 (field_eq_of_toNat ?_),
    beq_iff_eq.2 (field_eq_of_toNat ?_)⟩, field_eq_of_toNat ?_, field_eq_of_toNat ?_⟩ <;>
    simp only [hw, BitVec.toNat_ofNat] <;> omega

/-- The decoder reads back every instruction's word (R112). -/
theorem decode_encode (i : Instr) : decode (encode i) = .ok i := by
  cases i with
  | init | kill | setVolume | sample => decide
  | noteOn note instr =>
    obtain ⟨hop, hclear, hnote, hinstr⟩ := fields_encodeN 0x2#4 note instr
    simp [decode, encode, whenClear, hop, hclear, hnote, hinstr]
  | noteOff note instr =>
    obtain ⟨hop, hclear, hnote, hinstr⟩ := fields_encodeN 0x3#4 note instr
    simp [decode, encode, whenClear, hop, hclear, hnote, hinstr]
  | setParam group raw =>
    obtain ⟨hop, hclear, hgroup, hraw⟩ := fields_encodeP 0x6#4 group raw
    simp [decode, encode, whenClear, hop, hclear, hgroup, hraw]

end Sys2Proof.Proofs
end

section
/-! The register window (20_memory.md): what a step does whose event is an access at an offset of the
window, and a run over a stream that stays inside it. -/

namespace Sys2Proof.Proofs

open Sys2Proof.Machine Sys2Proof.Safety

/-! ### A step over an access at an offset -/

/-- The map has a register at an offset exactly where it is the register's own (R71). -/
theorem regAt_eq_some_iff {off : Nat} {r : HostReg} : regAt off = some r ↔ off = r.offset := by
  refine ⟨fun h => ?_, fun h => h ▸ regAt_offset r⟩
  unfold regAt at h
  split at h <;> cases h <;> rfl

/-- A reserved offset is no register's (R71). -/
theorem ne_offset_of_regAt_none {off : Nat} (h : regAt off = none) (r : HostReg) : off ≠ r.offset :=
  fun ho => by simp [ho, regAt_offset] at h

/-- With an event pending and a well-formed configuration, the step takes the event (R75). -/
theorem step_of_pending {s : State} {e : HostEvent} {rest : List HostEvent}
    (hw : s.cfg.wellFormed = true) (hp : s.pending = e :: rest) :
    step s = takeEvent (withPending s rest) e := by
  simp [step, hw, hp]

section
variable {s : State} {rest : List HostEvent} {off width : Nat} {v : Word}

/-- An offset of the window reaches SVE, whatever is pending (R70). -/
theorem inWindow_base_add (s : State) (rest : List HostEvent) (ho : off < 256) :
    inWindow (withPending s rest) (s.cfg.base + off) = true :=
  (inWindow_iff _ _).2 (by rw [withPending_cfg]; omega)

/-- A read inside the window: the register where the access is defined, else 0 (R72, R73, R78). -/
theorem step_read (hw : s.cfg.wellFormed = true) (ho : off < 256)
    (hp : s.pending = .read (s.cfg.base + off) width :: rest) :
    step s = .next (observe (withPending s rest) (.readValue
      (if width = 32 ∧ off % 4 = 0 then memRead (withPending s rest) off else 0))) := by
  rw [step_of_pending hw hp, takeEvent, if_pos (inWindow_base_add s rest ho), busRead,
    offsetOf_base _ _ (base_of_wellFormed hw) ho]
  simp only [accessDefined, decide_eq_true_eq]

/-- A write inside the window: the register's write where the access is defined, else nothing
(R72, R73, R79). -/
theorem step_write (hw : s.cfg.wellFormed = true) (ho : off < 256)
    (hp : s.pending = .write (s.cfg.base + off) width v :: rest) :
    step s = if width = 32 ∧ off % 4 = 0 then memWrite (withPending s rest) off v
      else .next (withPending s rest) := by
  rw [step_of_pending hw hp, takeEvent, if_pos (inWindow_base_add s rest ho), busWrite,
    offsetOf_base _ _ (base_of_wellFormed hw) ho]
  simp only [accessDefined, decide_eq_true_eq]

/-- A word written to `CMD` runs to a next state, and its STATUS and OUT are shown (R79, R343). -/
theorem step_command (hw : s.cfg.wellFormed = true)
    (hp : s.pending = .write s.cfg.base 32 v :: rest) :
    ∃ t, execute (withPending s rest) v = .next t ∧
      step s = .next (observe t (.command t.status t.out)) := by
  obtain ⟨t, ht, -⟩ := execute_nextKeepsCfg (withPending s rest) v
  have hstep : step s = writeReg (withPending s rest) v .cmd :=
    step_write (off := 0) hw (by decide) hp
  exact ⟨t, ht, by rw [hstep, writeReg, ht, noteCommand_next]⟩

end

/-! ### Reads and writes -/

theorem memRead_offset (s : State) (r : HostReg) : memRead s r.offset = readReg s r := by
  rw [memRead, regAt_offset]

/-- The registers read as R78's table says. -/
theorem readReg_eq_windowValue {s : State} (hw : s.cfg.wellFormed = true)
    (hl : s.ch.length = s.cfg.nVoices) (r : HostReg) : readReg s r = windowValue s r.offset := by
  cases r with
  | cmd | arg | status | out => rfl
  | chanSel => exact lowByte_eq s.chanSel
  | chanInfo => exact chanInfoView_eq hl
  | config => exact configView_eq hw
  | chanEnv => exact chanEnvView_eq hl

/-- A reserved offset has 0 in R78's table. -/
theorem windowValue_of_reserved {s : State} {off : Nat} (h : ∀ r : HostReg, off ≠ r.offset) :
    windowValue s off = 0 := by
  have harg : off ≠ 0x04 := h .arg
  have hstatus : off ≠ 0x08 := h .status
  have hout : off ≠ 0x0C := h .out
  have hsel : off ≠ 0x10 := h .chanSel
  have hinfo : off ≠ 0x14 := h .chanInfo
  have hconfig : off ≠ 0x18 := h .config
  have henv : off ≠ 0x1C := h .chanEnv
  simp only [windowValue, harg, hstatus, hout, hsel, hinfo, hconfig, henv, if_false]

/-- Every offset of the window reads as R78's table says. -/
theorem memRead_eq_windowValue {s : State} (hw : s.cfg.wellFormed = true)
    (hl : s.ch.length = s.cfg.nVoices) (off : Nat) : memRead s off = windowValue s off := by
  cases hr : regAt off with
  | some r =>
    rw [regAt_eq_some_iff.1 hr, memRead_offset, readReg_eq_windowValue hw hl]
  | none =>
    rw [memRead, hr, windowValue_of_reserved (ne_offset_of_regAt_none hr)]

theorem memWrite_offset (s : State) (r : HostReg) (v : Word) :
    memWrite s r.offset v = writeReg s v r := by
  rw [memWrite, regAt_offset]

/-- A write anywhere but at `CMD`, `ARG` and `CHAN_SEL` has no effect (R76, R79). -/
theorem memWrite_other (s : State) (v : Word) {off : Nat} (hcmd : off ≠ 0x00) (harg : off ≠ 0x04)
    (hsel : off ≠ 0x10) : memWrite s off v = .next s := by
  cases hr : regAt off with
  | none => rw [memWrite, hr]
  | some r =>
    obtain rfl := regAt_eq_some_iff.1 hr
    rw [memWrite_offset]
    cases r with
    | cmd => exact absurd rfl hcmd
    | arg => exact absurd rfl harg
    | chanSel => exact absurd rfl hsel
    | status | out | chanInfo | config | chanEnv => rfl

/-- Settles O11: the step is a defined read, whose value is that of R78's table. -/
theorem alignedReadReturnsTheRegister : Obligations.AlignedReadReturnsTheRegister := by
  intro s rest off hw hl ho h4 hp
  rw [step_read hw ho hp, if_pos ⟨rfl, h4⟩, memRead_eq_windowValue (s := withPending s rest) hw hl]
  rfl

/-- Settles O12, one offset of R79's map after the other. -/
theorem alignedWriteDoesWhatTheMapSays : Obligations.AlignedWriteDoesWhatTheMapSays := by
  intro s rest off v hw ho h4 hp
  have hstep : step s = memWrite (withPending s rest) off v := by
    rw [step_write hw ho hp, if_pos ⟨rfl, h4⟩]
  refine ⟨fun hoff => ?cmd, fun hoff => ?arg, fun hoff => ?chanSel,
    fun hcmd harg hsel => hstep.trans (memWrite_other _ v hcmd harg hsel)⟩
  case cmd => subst hoff; exact step_command hw hp
  case arg => subst hoff; exact hstep
  case chanSel =>
    subst hoff
    rw [hstep, ← lowByte_eq v]
    rfl

/-- Settles O13: the access is not the defined one, so it has no effect and reads as 0. -/
theorem otherAccessesAreIgnored : Obligations.OtherAccessesAreIgnored := by
  intro s rest off width v hw ho hundef
  refine ⟨fun hp => ?_, fun hp => ?_⟩
  · rw [step_write hw ho hp, if_neg hundef]
    rfl
  · rw [step_read hw ho hp, if_neg hundef]
    rfl

/-! ### Commands -/

/-- Settles O5: the word's execution is that of the command it decodes to. -/
theorem stepRunsTheDecodedCommand : Obligations.StepRunsTheDecodedCommand := by
  intro s rest w i hw hp hd
  obtain ⟨t, ht, hstep⟩ := step_command hw hp
  have hexec : execute (withPending s rest) w = exec i (withPending s rest) := by
    rw [execute, hd]
  exact ⟨t, hexec ▸ ht, hstep⟩

/-- A word placed whole is the word of a 32-bit write to `CMD`, in front of the stream. -/
theorem withFetchWord_toNat (s : State) (w : Word) :
    s.withFetchWord 32 w.toNat = withPending s (.write s.cfg.base 32 w :: s.pending) := by
  rw [State.withFetchWord, Nat.mod_eq_of_lt w.isLt, BitVec.ofNat_toNat, BitVec.setWidth_eq]
  rfl

/-- Settles O6: the placed word decodes to the instruction, so O5 speaks of the step. -/
theorem placedInstructionRunsNext : Obligations.PlacedInstructionRunsNext := by
  intro s i hw
  rw [withFetchWord_toNat]
  exact stepRunsTheDecodedCommand (withPending s (.write s.cfg.base 32 (encode i) :: s.pending))
    s.pending (encode i) i hw rfl (decode_encode i)

/-! ### A run over the stream -/

/-- What taking an event can do: a read is shown; a write is ignored, stores `ARG` or `CHAN_SEL`, or runs
a command; a reset resets (R78, R79; 70_reset_and_hazards.md R330). -/
inductive EventEffect (s : State) : HostEvent → State → Prop
  | shown {addr width : Nat} :
      EventEffect s (.read addr width) (observe s (.readValue (busRead s addr width)))
  | ignored {addr width : Nat} {v : Word} : EventEffect s (.write addr width v) s
  | argStored {addr width : Nat} {v : Word} : EventEffect s (.write addr width v) (withArg s v)
  | chanSelStored {addr width : Nat} {v : Word} : EventEffect s (.write addr width v)
      (withChanSel s ((v.extractLsb' 0 8).zeroExtend 32))
  | ran {addr width : Nat} {v : Word} {u : State} (hu : execute s v = .next u) :
      EventEffect s (.write addr width v) (observe u (.command u.status u.out))
  | reset : EventEffect s .reset (platformReset s)

theorem busWrite_effect {s t : State} {addr width : Nat} {v : Word}
    (h : busWrite s addr width v = .next t) : EventEffect s (.write addr width v) t := by
  unfold busWrite at h
  split at h
  · cases hr : regAt (offsetOf addr) with
    | none =>
      rw [memWrite, hr] at h
      exact Host.Outcome.next.inj h ▸ .ignored
    | some r =>
      rw [regAt_eq_some_iff.1 hr, memWrite_offset] at h
      cases r with
      | cmd =>
        obtain ⟨u, hu, -⟩ := execute_nextKeepsCfg s v
        rw [writeReg, hu, noteCommand_next] at h
        exact Host.Outcome.next.inj h ▸ .ran hu
      | arg => exact Host.Outcome.next.inj h ▸ .argStored
      | chanSel => exact Host.Outcome.next.inj h ▸ .chanSelStored
      | status | out | chanInfo | config | chanEnv => exact Host.Outcome.next.inj h ▸ .ignored
  · exact Host.Outcome.next.inj h ▸ .ignored

theorem takeEvent_effect {s t : State} {e : HostEvent} (h : takeEvent s e = .next t) :
    EventEffect s e t := by
  cases e with
  | read addr width =>
    rw [takeEvent] at h
    split at h
    · exact Host.Outcome.next.inj h ▸ .shown
    · cases h
  | write addr width v =>
    rw [takeEvent] at h
    split at h
    · exact busWrite_effect h
    · cases h
  | reset => exact Host.Outcome.next.inj h ▸ .reset

/-- No command touches the host's stream (notes/assumptions/4.md). -/
theorem execute_pending {s t : State} {w : Word} (h : execute s w = .next t) :
    t.pending = s.pending := by
  unfold execute at h
  cases hd : decode w with
  | ok i =>
    obtain ⟨-, -, -, -, -, -, hpending, -⟩ :=
      eachRegisterHasItsOnlyWriters i s t (by simpa only [hd] using h)
    exact hpending
  | error e =>
    obtain rfl : statusWrite s false .illegal = t := by simpa [hd, raiseError] using h
    rfl

/-- Taking an event leaves the rest of the stream as it is. -/
theorem takeEvent_pending {s t : State} {e : HostEvent} (h : takeEvent s e = .next t) :
    t.pending = s.pending := by
  cases takeEvent_effect h with
  | ran hu => exact (observe_pending _ _).trans (execute_pending hu)
  | shown | ignored | argStored | chanSelStored | reset => rfl

/-- A step whose event reaches SVE goes on to the rest of the stream, under the same configuration. -/
theorem step_of_reaches {s : State} {e : HostEvent} {rest : List HostEvent}
    (hw : s.cfg.wellFormed = true) (hp : s.pending = e :: rest) (hr : Reaches s.cfg e) :
    ∃ t, step s = .next t ∧ t.pending = rest ∧ t.cfg = s.cfg := by
  obtain ⟨t, ht, hcfg⟩ := takeEvent_of_reaches (s := withPending s rest) hr
  exact ⟨t, (step_of_pending hw hp).trans ht, takeEvent_pending ht, hcfg⟩

/-- A run takes its first step and goes on from there. -/
theorem run_succ_of_step {M : Host.Core} {s t : M.State} (h : M.step s = .next t) (n : Nat) :
    M.run (n + 1) s = M.run n t := by
  rw [Host.Core.run, h]

/-- Settles O9, by induction on the stream: each step takes its head and keeps the configuration, so the
rest of the stream still reaches SVE. -/
theorem runTakesEveryEventOfTheStream : Obligations.RunTakesEveryEventOfTheStream := by
  intro s hw hr
  induction hp : s.pending generalizing s with
  | nil => exact ⟨s, rfl, hp, rfl⟩
  | cons e rest ih =>
    rw [hp, List.forall_mem_cons] at hr
    obtain ⟨hhead, htail⟩ := hr
    obtain ⟨t, hstep, hpending, hcfg⟩ := step_of_reaches hw hp hhead
    obtain ⟨u, hrun, hempty, hcfg'⟩ :=
      ih t (by rw [hcfg, hw]) (by rw [hpending, hcfg]; exact htail) hpending
    exact ⟨u, (run_succ_of_step (M := core) hstep _).trans hrun, hempty, hcfg'.trans hcfg⟩

end Sys2Proof.Proofs
end

section
/-! The decoder and the encoder are inverse to each other (30_encoding.md R109, R112): the words that decode
are the words of the instructions, and they are the words of R112's masks; any other word is refused by name. -/

namespace Sys2Proof.Proofs

open Sys2Proof.Machine Sys2Proof.Laws Sys2Proof.Safety

/-- Settles O1: the operand types are as wide as their fields, so every instruction is well-formed. -/
theorem decodeInvertsEncode : Obligations.DecodeInvertsEncode := fun i _ => decode_encode i

/-! ### A word from its fields -/

/-- The test for clear reserved bits as arithmetic (R105). -/
theorem field_clear_iff {w : Word} {lo n : Nat} :
    (field w lo n == 0#n) = true ↔ w.toNat / 2 ^ lo % 2 ^ n = 0 := by
  rw [beq_iff_eq, ← BitVec.toNat_inj, toNat_field, BitVec.toNat_ofNat, Nat.zero_mod]

theorem encodeZ_opField {w : Word} (h : formatZ w = true) : encodeZ (opField w) = w := by
  have hclear := field_clear_iff.1 h
  have hw := w.isLt
  apply BitVec.eq_of_toNat_eq
  rw [encodeZ, toNat_append_arith, opField, toNat_field, BitVec.toNat_ofNat]
  omega

theorem encodeN_fields {w : Word} (h : formatN w = true) :
    encodeN (opField w) (noteField w) (instrField w) = w := by
  have hclear := field_clear_iff.1 h
  have hw := w.isLt
  apply BitVec.eq_of_toNat_eq
  rw [toNat_encodeN, opField, noteField, instrField, toNat_field, toNat_field, toNat_field]
  omega

theorem encodeP_fields {w : Word} (h : formatP w = true) :
    encodeP (opField w) (groupField w) (rawField w) = w := by
  obtain ⟨hhigh, hlow⟩ := Bool.and_eq_true_iff.1 h
  have hhigh := field_clear_iff.1 hhigh
  have hlow := field_clear_iff.1 hlow
  have hw := w.isLt
  apply BitVec.eq_of_toNat_eq
  rw [toNat_encodeP, opField, groupField, rawField, toNat_field, toNat_field, toNat_field]
  omega

theorem whenClear_eq_ok_iff {clear : Bool} {i j : Instr} :
    whenClear clear i = .ok j ↔ clear = true ∧ i = j := by
  cases clear <;> simp [whenClear]

theorem whenClear_ne_unassignedOpcode (clear : Bool) (i : Instr) :
    whenClear clear i ≠ .error .unassignedOpcode := by
  cases clear <;> simp [whenClear]

/-- A word of each assigned opcode is put together again from the fields that the decoder reads. -/
theorem encode_of_decode {w : Word} {i : Instr} (h : decode w = .ok i) : encode i = w := by
  have hop {n : Nat} (hn : (opField w).toNat = n) : BitVec.ofNat 4 n = opField w := by
    rw [← hn, BitVec.ofNat_toNat, BitVec.setWidth_eq]
  unfold decode at h
  split at h
  case h_1 hn | h_4 hn | h_5 hn | h_7 hn =>
    obtain ⟨hclear, rfl⟩ := whenClear_eq_ok_iff.1 h
    exact (congrArg encodeZ (hop hn)).trans (encodeZ_opField hclear)
  case h_2 hn | h_3 hn =>
    obtain ⟨hclear, rfl⟩ := whenClear_eq_ok_iff.1 h
    exact (congrArg (encodeN · _ _) (hop hn)).trans (encodeN_fields hclear)
  case h_6 hn =>
    obtain ⟨hclear, rfl⟩ := whenClear_eq_ok_iff.1 h
    exact (congrArg (encodeP · _ _) (hop hn)).trans (encodeP_fields hclear)
  case h_8 => cases h

/-- Settles O2, opcode by opcode. -/
theorem encodeInvertsDecode : Obligations.EncodeInvertsDecode := fun _ _ h => encode_of_decode h

theorem decode_eq_ok_iff {w : Word} {i : Instr} : decode w = .ok i ↔ encode i = w :=
  ⟨encode_of_decode, fun h => h ▸ decode_encode i⟩

/-! ### The masks of R112 -/

/-- The fields that a mask covers are those of the match value. -/
theorem field_of_and_eq {w mask m : Word} {lo n : Nat} (h : w &&& mask = m)
    (hmask : field mask lo n = BitVec.allOnes n) : field w lo n = field m lo n := by
  rw [← h, field, field, BitVec.extractLsb'_and, ← field, ← field, hmask, BitVec.and_allOnes]

/-- The fields of a match value are its opcode and zeros. -/
theorem opField_encodeZ (op : BitVec 4) : opField (encodeZ op) = op := by
  have hop := op.isLt
  refine field_eq_of_toNat ?_
  rw [encodeZ, toNat_append_arith, BitVec.toNat_ofNat]
  omega

theorem field_encodeZ_clear (op : BitVec 4) {lo n : Nat} (h : lo + n ≤ 28) :
    (field (encodeZ op) lo n == 0#n) = true := by
  rw [field, encodeZ, BitVec.extractLsb'_append_eq_of_add_le h]
  simp

/-- Format N's mask fixes the opcode and clears the reserved bits (R103). -/
theorem encodeN_of_mask {w : Word} {op : BitVec 4} (h : w &&& 0xFFFF0000#32 = encodeZ op) :
    encodeN op (noteField w) (instrField w) = w := by
  have hop : opField w = op := (field_of_and_eq h (by decide)).trans (opField_encodeZ op)
  have hclear : formatN w = true := by
    rw [formatN, field_of_and_eq h (by decide), field_encodeZ_clear op (by decide)]
  exact hop ▸ encodeN_fields hclear

/-- Format P's mask fixes the opcode and clears the reserved bits (R104). -/
theorem encodeP_of_mask {w : Word} {op : BitVec 4} (h : w &&& 0xFF00F000#32 = encodeZ op) :
    encodeP op (groupField w) (rawField w) = w := by
  have hop : opField w = op := (field_of_and_eq h (by decide)).trans (opField_encodeZ op)
  have hclear : formatP w = true := by
    rw [formatP, field_of_and_eq h (by decide), field_of_and_eq h (by decide),
      field_encodeZ_clear op (by decide), field_encodeZ_clear op (by decide), Bool.and_self]
  exact hop ▸ encodeP_fields hclear

/-- R112's masks and matches are met by the words of the instructions and by no other word. -/
theorem legalWord_iff (w : Word) : legalWord w ↔ ∃ i, encode i = w := by
  constructor
  · rintro (rfl | h | h | rfl | rfl | h | rfl)
    · exact ⟨.init, rfl⟩
    · exact ⟨.noteOn (noteField w) (instrField w), encodeN_of_mask h⟩
    · exact ⟨.noteOff (noteField w) (instrField w), encodeN_of_mask h⟩
    · exact ⟨.kill, rfl⟩
    · exact ⟨.setVolume, rfl⟩
    · exact ⟨.setParam (groupField w) (rawField w), encodeP_of_mask h⟩
    · exact ⟨.sample, rfl⟩
  · rintro ⟨i, rfl⟩
    unfold legalWord
    cases i with
    | init | kill | setVolume | sample => decide
    | noteOn note instr => exact .inr (.inl (TableRow.noteOn note instr))
    | noteOff note instr => exact .inr (.inr (.inl (TableRow.noteOff note instr)))
    | setParam group raw =>
      exact .inr (.inr (.inr (.inr (.inr (.inl (TableRow.setParam group raw))))))

theorem exists_decode_iff_legalWord (w : Word) : (∃ i, decode w = .ok i) ↔ legalWord w := by
  simp only [decode_eq_ok_iff, legalWord_iff]

/-! ### The words that are refused -/

theorem toNat_opField (w : Word) : (opField w).toNat = w.toNat / 2 ^ 28 := by
  rw [opField, toNat_field]
  omega

/-- The opcode alone decides whether a word is refused as unassigned (R108, R304). -/
theorem decode_eq_unassignedOpcode_iff (w : Word) :
    decode w = .error .unassignedOpcode ↔ w.toNat / 2 ^ 28 = 0 ∨ 8 ≤ w.toNat / 2 ^ 28 := by
  rw [← toNat_opField]
  unfold decode
  split
  case h_8 =>
    simp only [imp_false, true_iff] at *
    omega
  all_goals
    next hn => simp [whenClear_ne_unassignedOpcode, hn]

theorem exists_error_of_not_legalWord {w : Word} (h : ¬ legalWord w) : ∃ e, decode w = .error e := by
  cases hd : decode w with
  | ok i => exact absurd ((exists_decode_iff_legalWord w).1 ⟨i, hd⟩) h
  | error e => exact ⟨e, rfl⟩

/-- Settles O3: what is not legal is refused, and the opcode decides for which of the two reasons. -/
theorem everyWordIsLegalOrIllegalByName : Obligations.EveryWordIsLegalOrIllegalByName := by
  intro w
  have hlegal := exists_decode_iff_legalWord w
  have hopcode := decode_eq_unassignedOpcode_iff w
  refine ⟨hlegal, hopcode, fun hd => ?_, fun ⟨hlo, hhi, hillegal⟩ => ?_⟩
  · have hassigned : ¬ (w.toNat / 2 ^ 28 = 0 ∨ 8 ≤ w.toNat / 2 ^ 28) := by
      rw [← hopcode, hd]; decide
    have hillegal : ¬ legalWord w := by
      rw [← hlegal, hd]; exact fun ⟨_, hi⟩ => nomatch hi
    exact ⟨by omega, by omega, hillegal⟩
  · obtain ⟨e, he⟩ := exists_error_of_not_legalWord hillegal
    cases e with
    | unassignedOpcode =>
      have := hopcode.1 he
      omega
    | reservedBits => exact he

/-- Settles O4: the seven legal words are the encoder's, and the two others are evaluated. -/
theorem decodesTheSpecsExampleWords : Obligations.DecodesTheSpecsExampleWords :=
  ⟨decode_encode .init, decode_encode (.noteOn 60 1), decode_encode (.noteOff 63 0),
    decode_encode .kill, decode_encode .setVolume, decode_encode (.setParam 2 2048),
    decode_encode .sample, by decide, by decide⟩

/-! ### The step over an illegal word -/

/-- The status write as one register write (10_state.md R33, 60_exceptions.md R302). -/
theorem statusWrite_eq_withStatus (s : State) (ok : Bool) (code : ResultCode) :
    statusWrite s ok code = withStatus s (resultWord (liveVoices s) code.value.toNat ok) := by
  rw [liveVoices_eq, ← statusWord_eq]
  rfl

/-- A word that is not legal reports ILLEGAL (R105, R108). -/
theorem execute_of_not_legalWord {w : Word} (h : ¬ legalWord w) (s : State) :
    execute s w = .next (withStatus s (resultWord (liveVoices s) 3 false)) := by
  obtain ⟨e, he⟩ := exists_error_of_not_legalWord h
  rw [execute, he, raiseError_eq, statusWrite_eq_withStatus]
  rfl

/-- Settles O7: what the command leaves is shown, and nothing else is written. -/
theorem illegalWordOnlyReports : Obligations.IllegalWordOnlyReports := by
  intro s rest w hw hp hillegal
  obtain ⟨t, ht, hstep⟩ := step_command hw hp
  obtain rfl := Host.Outcome.next.inj ((execute_of_not_legalWord hillegal _).symm.trans ht)
  exact hstep

end Sys2Proof.Proofs
end

section
/-! Command scripts (30_encoding.md R110, R111): the rule's words are the encoder's, and a literal is rounded
once. -/

namespace Sys2Proof.Proofs

open Sys2Proof.Machine Sys2Proof.Laws Sys2Proof.Safety

/-- R110's word of a note command is the encoder's, where the operands fit their fields. -/
theorem noteWord_eq_encodeN (op : BitVec 4) (note instr : BitVec 8) :
    noteWord (encodeZ op) (note.zeroExtend 32) (instr.zeroExtend 32) = encodeN op note instr := by
  apply BitVec.eq_of_getLsbD_eq
  intro i hi
  simp only [noteWord, encodeZ, encodeN, BitVec.getLsbD_or, BitVec.getLsbD_append,
    BitVec.getLsbD_shiftLeft]
  interval_cases i <;> simp

/-- R110's word of `set_param` is the encoder's, where the operands fit their fields. -/
theorem paramWord_eq_encodeP (op : BitVec 4) (group : BitVec 8) (raw : BitVec 12) :
    encodeZ op ||| group.zeroExtend 32 <<< 16 ||| raw.zeroExtend 32 = encodeP op group raw := by
  apply BitVec.eq_of_getLsbD_eq
  intro i hi
  simp only [encodeZ, encodeP, BitVec.getLsbD_or, BitVec.getLsbD_append, BitVec.getLsbD_shiftLeft]
  interval_cases i <;> simp

/-- A decimal literal is its exact value rounded once (R110). -/
theorem rounds_toF32 (d : Decimal) :
    Rounds (signed d.neg (d.digits * 2 ^ 149)) (10 ^ d.scale) d.toF32 := by
  refine ⟨d.neg, by rw [natAbs_signed], ?_⟩
  rw [natAbs_signed, Decimal.toF32, fOfRat, magOf_pack _ _ (roundMag_lt _ _)]

theorem signed_mul_two_pow (neg : Bool) (n k : Nat) :
    signed neg (n * 2 ^ k) = (if neg then -1 else 1) * (n : Int) * 2 ^ k := by
  cases neg <;> simp

/-- Settles O49, one kind of operation after the other. -/
theorem scriptOperationsStandForTheirWords : Obligations.ScriptOperationsStandForTheirWords := by
  refine ⟨fun base v r off h => ?_, fun base => ⟨rfl, rfl, rfl⟩,
    fun base a b v => ⟨rfl, rfl, rfl, rfl⟩, fun base note instr v => ⟨?_, ?_⟩,
    fun base group raw => ?_, fun v hf => ?_⟩
  · obtain rfl : off = r.offset := by
      cases r <;> simpa [HostReg.offset] using h
    exact ⟨rfl, rfl⟩
  · rw [encode, ← noteWord_eq_encodeN]
    rfl
  · rw [encode, ← noteWord_eq_encodeN]
    rfl
  · rw [encode, ← paramWord_eq_encodeP]
    rfl
  · have h := (rounds_toF32 v).nearestEven (by positivity) hf
    rwa [signed_mul_two_pow, Nat.cast_pow, Nat.cast_ofNat] at h

end Sys2Proof.Proofs
end

section
/-! Rounding between bounds (00_scope.md R12): one rounding does not cross a representable number,
and near 1.0 it moves a value by half a unit in the last place at most. -/

namespace Sys2Proof.Proofs

open Sys2Proof.Machine Sys2Proof.Laws Sys2Proof.Safety

/-- `x` is finite and its value, in units of 2^-149, lies between `lo` and `hi`. -/
def Within (lo hi : Int) (x : F32) : Prop :=
  isFinite x = true ∧ lo ≤ scaled x ∧ scaled x ≤ hi

/-- A finite number lies below the values that round to infinity. -/
theorem abs_scaled_lt_of_isFinite {x : F32} (h : isFinite x = true) :
    |scaled x| < (2 ^ 25 - 1) * 2 ^ 252 := by
  have hk : magOf x < infMag := (isFinite_iff x).1 h
  have hexact := roundMag_exact 1 (magOf x) Nat.one_pos hk.le
  have hlt := (roundMag_eq_infMag_iff (num := magValue (magOf x) * 1) Nat.one_pos).not.1 (by omega)
  rw [scaled_eq_signed, Int.abs_eq_natAbs, natAbs_signed, scaledMag_eq]
  omega

/-- A NaN aside, a number between two finite numbers is finite. -/
theorem isFinite_of_scaled_between {x y v : F32} (hx : isFinite x = true) (hy : isFinite y = true)
    (hv : isNaN v = false) (hlo : scaled x ≤ scaled v) (hhi : scaled v ≤ scaled y) :
    isFinite v = true := by
  rcases kind_cases v with ⟨hf, -, -⟩ | ⟨-, hi, -⟩ | ⟨-, -, hn⟩
  · exact hf
  · have habs : (scaled v).natAbs = magValue infMag := by
      rw [scaled_eq_signed, natAbs_signed, scaledMag_of_isInf hi]
    have hx := abs_lt.1 (abs_scaled_lt_of_isFinite hx)
    have hy := abs_lt.1 (abs_scaled_lt_of_isFinite hy)
    rw [magValue_infMag] at habs
    omega
  · simp [hv] at hn

/-- Being compared with two finite numbers is lying between their values. -/
theorem within_iff {x y v : F32} (hx : isFinite x = true) (hy : isFinite y = true) :
    fLe x v = true ∧ fLe v y = true ↔ Within (scaled x) (scaled y) v := by
  have nx := not_isNaN_of_isFinite hx
  have ny := not_isNaN_of_isFinite hy
  simp only [fLe_iff, nx, ny, true_and]
  constructor
  · rintro ⟨⟨hv, hlo⟩, -, hhi⟩
    exact ⟨isFinite_of_scaled_between hx hy hv hlo hhi, hlo, hhi⟩
  · rintro ⟨hf, hlo, hhi⟩
    exact ⟨⟨not_isNaN_of_isFinite hf, hlo⟩, not_isNaN_of_isFinite hf, hhi⟩

section
variable {num : Int} {den : Nat} {r : F32}

/-- What lies between two finite numbers rounds to a number between them. -/
theorem Rounds.within {x y : F32} (hd : 0 < den) (h : Rounds num den r) (hx : isFinite x = true)
    (hy : isFinite y = true) (hlo : scaled x * den ≤ num) (hhi : num ≤ scaled y * den) :
    Within (scaled x) (scaled y) r := by
  have hd' : (0 : Int) < den := Int.natCast_pos.2 hd
  have hfin : isFinite r = true := by
    rcases kind_cases r with ⟨hf, -, -⟩ | ⟨-, hi, -⟩ | ⟨-, -, hn⟩
    · exact hf
    · obtain ⟨hx, -⟩ := abs_lt.1 (abs_scaled_lt_of_isFinite hx)
      obtain ⟨-, hy⟩ := abs_lt.1 (abs_scaled_lt_of_isFinite hy)
      have hx := mul_lt_mul_of_pos_right hx hd'
      have hy := mul_lt_mul_of_pos_right hy hd'
      have hlt : |num| < (2 ^ 25 - 1) * 2 ^ 252 * den := abs_lt.2 ⟨by linarith, by linarith⟩
      exact absurd ((h.isInf_iff hd).1 hi) (not_le.2 hlt)
    · simp [h.not_isNaN] at hn
  obtain ⟨-, hnear⟩ := h.nearestEven hd hfin
  refine ⟨hfin, ?_, ?_⟩
  · by_contra hc
    have hlt := mul_lt_mul_of_pos_right (not_le.1 hc) hd'
    obtain ⟨hle, -⟩ := hnear x hx
    rw [abs_of_nonpos (by linarith), abs_of_nonpos (by linarith)] at hle
    linarith
  · by_contra hc
    have hlt := mul_lt_mul_of_pos_right (not_le.1 hc) hd'
    obtain ⟨hle, -⟩ := hnear y hy
    rw [abs_of_nonneg (by linarith), abs_of_nonneg (by linarith)] at hle
    linarith

end

theorem scaled_fZero : scaled fZero = 0 := by decide

section
variable {t : Int} {r : F32}

/-- In [0, 1] a rounding moves the value by 2^-25 at most, half the spacing just below 1.0. -/
theorem Rounds.error_le (h : Rounds t 1 r) (hf : isFinite r = true) (h0 : 0 ≤ t)
    (h1 : t ≤ 2 ^ 149) : |scaled r - t| ≤ 2 ^ 124 := by
  obtain ⟨k, hk⟩ := exists_magValue_eq ((t.natAbs + 2 ^ 124) / 2 ^ 125) 125 (by omega)
  have hlt : k < infMag := by
    rw [← magValue_strictMono.lt_iff_lt, hk, magValue_infMag]
    omega
  have hk31 : k < 2 ^ 31 := hlt.trans (by norm_num [infMag])
  obtain ⟨-, hnear⟩ := h.nearestEven Nat.one_pos hf
  obtain ⟨hle, -⟩ := hnear (pack false k) ((isFinite_iff _).2 (by rwa [magOf_pack _ _ hk31]))
  rw [scaled_pack _ hk31, hk, signed_false] at hle
  push_cast at hle
  simp only [mul_one, Int.abs_eq_natAbs] at hle ⊢
  omega

/-- A number from 1.0 up is a whole multiple of 2^-23. -/
theorem two_pow_dvd_scaled (h : 2 ^ 149 ≤ scaled r) : (2 : Int) ^ 126 ∣ scaled r := by
  have habs : magValue (magOf r) = (scaled r).natAbs := by
    rw [scaled_eq_signed, natAbs_signed, scaledMag_eq]
  have hdvd := two_pow_dvd_magValue (m := magOf r) (by omega)
  rw [habs] at hdvd
  exact Int.dvd_natAbs.1 (by exact_mod_cast hdvd)

/-- What exceeds 1.0 by 2^-25 at most, less than half the spacing just above 1.0, does not round to
more than 1.0. -/
theorem Rounds.within_unit (h : Rounds t 1 r) (h0 : 0 ≤ t) (h1 : t ≤ 2 ^ 149 + 2 ^ 124) :
    Within 0 (2 ^ 149) r := by
  obtain ⟨hf, hlo, -⟩ := h.within (x := fZero) (y := fTwo) Nat.one_pos (by decide) (by decide)
    (by rw [scaled_fZero]; omega) (by rw [scaled_fTwo]; omega)
  rw [scaled_fZero] at hlo
  refine ⟨hf, hlo, ?_⟩
  by_contra hc
  have hdvd := two_pow_dvd_scaled (r := r) (by omega)
  obtain ⟨-, hnear⟩ := h.nearestEven Nat.one_pos hf
  obtain ⟨hle, -⟩ := hnear fOne (by decide)
  rw [scaled_fOne] at hle
  simp only [Nat.cast_one, mul_one, Int.abs_eq_natAbs] at hle
  omega

end

end Sys2Proof.Proofs
end

section
/-! The approach step of the envelope (40_envelope.md R144) in binary32: where its three roundings
leave a level that rises to its target, and one that falls to it. -/

namespace Sys2Proof.Proofs

open Sys2Proof.Machine Sys2Proof.Safety

theorem within_unit_iff (x : F32) :
    fLe fZero x = true ∧ fLe x fOne = true ↔ Within 0 (2 ^ 149) x := by
  rw [within_iff (by decide) (by decide), scaled_fZero, scaled_fOne]

theorem within_minusOne_zero_iff (x : F32) :
    fLe fMinusOne x = true ∧ fLe x fZero = true ↔ Within (-2 ^ 149) 0 x := by
  rw [within_iff (by decide) (by decide), scaled_fMinusOne, scaled_fZero]

theorem inUnit_iff (x : F32) : inUnit x = true ↔ Within 0 (2 ^ 149) x := by
  rw [inUnit, Bool.and_eq_true, within_unit_iff]

theorem scaled_pos_of_rateOk {r : F32} (h : rateOk r = true) : 0 < scaled r := by
  obtain ⟨hlt, -⟩ := Bool.and_eq_true_iff.1 h
  obtain ⟨-, -, hpos⟩ := (fLt_iff fZero r).1 hlt
  rwa [scaled_fZero] at hpos

theorem within_of_rateOk {r : F32} (h : rateOk r = true) : Within 0 (2 ^ 149) r := by
  obtain ⟨hlt, hle⟩ := Bool.and_eq_true_iff.1 h
  obtain ⟨hz, hn, hpos⟩ := (fLt_iff fZero r).1 hlt
  exact (within_unit_iff r).1 ⟨(fLe_iff fZero r).2 ⟨hz, hn, hpos.le⟩, hle⟩

theorem scaled_attackTarget : scaled attackTarget = 13270582 * 2 ^ 126 := by decide +kernel
theorem scaled_releaseFactor : scaled releaseFactor = -(9763949 * 2 ^ 125) := by decide +kernel

section
variable {r v t : F32}

/-! ### The correction `r * (t - v)` -/

/-- A rate neither enlarges an upward difference nor turns it downward. -/
theorem rate_mul_of_nonneg {d : F32} (hr : Within 0 (2 ^ 149) r) (hd : isFinite d = true)
    (h : 0 ≤ scaled d) : Within 0 (scaled d) (fMul r d) := by
  obtain ⟨hf, h0, h1⟩ := hr
  have hlo : 0 ≤ scaled r * scaled d := mul_nonneg h0 h
  have hhi : scaled r * scaled d ≤ 2 ^ 149 * scaled d := mul_le_mul_of_nonneg_right h1 h
  refine scaled_fZero ▸ (rounds_fMul hf hd).within (by positivity) (by decide) hd ?_ ?_
  · rwa [scaled_fZero, zero_mul]
  · push_cast; linarith

/-- A rate neither enlarges a downward difference nor turns it upward. -/
theorem rate_mul_of_nonpos {d : F32} (hr : Within 0 (2 ^ 149) r) (hd : isFinite d = true)
    (h : scaled d ≤ 0) : Within (scaled d) 0 (fMul r d) := by
  obtain ⟨hf, h0, h1⟩ := hr
  have hlo : 2 ^ 149 * scaled d ≤ scaled r * scaled d := mul_le_mul_of_nonpos_right h1 h
  have hhi : scaled r * scaled d ≤ 0 := mul_nonpos_of_nonneg_of_nonpos h0 h
  refine scaled_fZero ▸ (rounds_fMul hf hd).within (by positivity) hd (by decide) ?_ ?_
  · push_cast; linarith
  · rwa [scaled_fZero, zero_mul]

/-! ### The step -/

/-- Toward a target that is not above it the level does not rise. `b` bounds the difference and `lo`
the whole step. -/
theorem approach_falls {b lo : F32} (hr : Within 0 (2 ^ 149) r) (hv : isFinite v = true)
    (ht : isFinite t = true) (hb : isFinite b = true) (hlo : isFinite lo = true)
    (hle : scaled t ≤ scaled v) (hdiff : scaled b ≤ scaled t - scaled v)
    (hsum : scaled lo ≤ scaled v + scaled b) :
    Within (scaled lo) (scaled v) (approach r v t) := by
  have hd : Within (scaled b) (scaled fZero) (fSub t v) :=
    (rounds_fSub ht hv).within Nat.one_pos hb (by decide) (by omega) (by rw [scaled_fZero]; omega)
  obtain ⟨hdf, hdlo, hdhi⟩ := hd
  obtain ⟨hmf, hmlo, hmhi⟩ := rate_mul_of_nonpos hr hdf (by rwa [scaled_fZero] at hdhi)
  exact (rounds_fAdd hv hmf).within Nat.one_pos hlo hv (by omega) (by omega)

/-- Toward a target that is not below it the level does not fall. `b` bounds the difference and `hi`
the whole step. -/
theorem approach_rises {b hi : F32} (hr : Within 0 (2 ^ 149) r) (hv : isFinite v = true)
    (ht : isFinite t = true) (hb : isFinite b = true) (hhi : isFinite hi = true)
    (hle : scaled v ≤ scaled t) (hdiff : scaled t - scaled v ≤ scaled b)
    (hsum : scaled v + scaled b ≤ scaled hi) :
    Within (scaled v) (scaled hi) (approach r v t) := by
  have hd : Within (scaled fZero) (scaled b) (fSub t v) :=
    (rounds_fSub ht hv).within Nat.one_pos (by decide) hb (by rw [scaled_fZero]; omega) (by omega)
  obtain ⟨hdf, hdlo, hdhi⟩ := hd
  obtain ⟨hmf, hmlo, hmhi⟩ := rate_mul_of_nonneg hr hdf (by rwa [scaled_fZero] at hdlo)
  exact (rounds_fAdd hv hmf).within Nat.one_pos hv hhi (by omega) (by omega)

/-- Attack (R145, R152): the step does not fall, and stays finite. -/
theorem approach_attack (hr : Within 0 (2 ^ 149) r) (hv : Within 0 (2 ^ 149) v) :
    isFinite (approach r v attackTarget) = true ∧ 0 ≤ scaled (approach r v attackTarget) := by
  obtain ⟨hf, h0, h1⟩ := hv
  have htgt := scaled_attackTarget
  have htwo := scaled_fTwo
  have hfour : scaled ⟨0x40800000#32⟩ = 4 * 2 ^ 149 := by decide +kernel
  obtain ⟨hw, hlo, -⟩ := approach_rises (t := attackTarget) (b := fTwo) (hi := ⟨0x40800000#32⟩)
    hr hf (by decide) (by decide) (by decide) (by omega) (by omega) (by omega)
  exact ⟨hw, h0.trans hlo⟩

/-- Decay (R146, R152): between levels in [0, 1] the step stays in [0, 1]. A falling step is at most
the rounded difference, which is at most the level; a rising one can exceed 1.0 only by the error of
the rounded difference, and the last rounding takes that back. -/
theorem approach_within_unit (hr : Within 0 (2 ^ 149) r) (hv : Within 0 (2 ^ 149) v)
    (ht : Within 0 (2 ^ 149) t) : Within 0 (2 ^ 149) (approach r v t) := by
  obtain ⟨hvf, hv0, hv1⟩ := hv
  obtain ⟨htf, ht0, ht1⟩ := ht
  have hzero := scaled_fZero
  have hone := scaled_fOne
  rcases le_total (scaled t) (scaled v) with hle | hle
  · have hneg := scaled_fNeg v
    obtain ⟨hw, hlo, hhi⟩ := approach_falls (b := fNeg v) (lo := fZero) hr hvf htf
      (by simpa using hvf) (by decide) hle (by omega) (by omega)
    exact ⟨hw, by omega, by omega⟩
  · have hdr := rounds_fSub htf hvf
    obtain ⟨hdf, hd0, -⟩ := hdr.within (x := fZero) (y := fOne) Nat.one_pos (by decide) (by decide)
      (by omega) (by omega)
    have herr := abs_le.1 (hdr.error_le hdf (by omega) (by omega))
    obtain ⟨hmf, hm0, hm1⟩ := rate_mul_of_nonneg hr hdf (by omega)
    exact (rounds_fAdd hvf hmf).within_unit (by omega) (by omega)

/-- Release (R147, R152): from a level in [0, 1] toward a target in [-1, 0] the step does not rise. -/
theorem approach_release (hr : Within 0 (2 ^ 149) r) (hv : Within 0 (2 ^ 149) v)
    (ht : Within (-2 ^ 149) 0 t) :
    isFinite (approach r v t) = true ∧ scaled (approach r v t) ≤ scaled v := by
  obtain ⟨hvf, hv0, hv1⟩ := hv
  obtain ⟨htf, ht0, ht1⟩ := ht
  have hneg := scaled_fNeg fTwo
  have htwo := scaled_fTwo
  obtain ⟨hw, -, hhi⟩ := approach_falls (b := fNeg fTwo) (lo := fNeg fTwo) hr hvf htf (by decide)
    (by decide) (by omega) (by omega) (by omega)
  exact ⟨hw, hhi⟩

/-- The target that a release captures from a level in [0, 1] lies in [-1, 0] (R143, R150). -/
theorem releaseTarget_within (hv : Within 0 (2 ^ 149) v) :
    Within (-2 ^ 149) 0 (fMul releaseFactor v) := by
  obtain ⟨hf, h0, h1⟩ := hv
  have hfac := scaled_releaseFactor
  have h := (rounds_fMul (x := releaseFactor) (by decide) hf).within (x := fMinusOne) (y := fZero)
    (by positivity) (by decide) (by decide)
    (by rw [scaled_fMinusOne, hfac]; push_cast; omega) (by rw [scaled_fZero, hfac]; omega)
  rwa [scaled_fMinusOne, scaled_fZero] at h

end

end Sys2Proof.Proofs
end

section
/-! The evaluation of the envelope by mode (40_envelope.md R151), and the statements about single
evaluations. -/

namespace Sys2Proof.Proofs

open Sys2Proof.Machine Sys2Proof.Safety

/-! ### The equations -/

section
variable (d : InstrDesc) {b c : Channel}

/-- The release entry does nothing unless a released channel is in Attack or Decay (R143). -/
theorem releaseEntry_of_not_entering
    (h : ¬ (c.released = true ∧ (c.mode = .attack ∨ c.mode = .decay))) : releaseEntry c = c :=
  if_neg h

theorem releaseEntry_of_entering (hr : c.released = true)
    (hm : c.mode = .attack ∨ c.mode = .decay) :
    releaseEntry c = { c with mode := .release, tgt := fMul releaseFactor c.val } :=
  if_pos ⟨hr, hm⟩

theorem envEval_of_attack (hb : releaseEntry c = b) (hm : b.mode = .attack) :
    envEval d c = attackStep d b := by simp [envEval, hb, hm]

theorem envEval_of_decay (hb : releaseEntry c = b) (hm : b.mode = .decay) :
    envEval d c = decayStep d b := by simp [envEval, hb, hm]

theorem envEval_of_release (hb : releaseEntry c = b) (hm : b.mode = .release) :
    envEval d c = releaseStep d b := by simp [envEval, hb, hm]

theorem envEval_of_killed (hb : releaseEntry c = b) (hm : b.mode = .killed) :
    envEval d c = (killedSentinel, b) := by simp [envEval, hb, hm]

theorem attackStep_of_ge (h : fLe fOne (approach d.attack c.val c.tgt) = true) :
    attackStep d c = (fOne, { c with val := fOne, mode := .decay, tgt := d.sustain }) := if_pos h

theorem attackStep_of_lt (h : fLe fOne (approach d.attack c.val c.tgt) = false) :
    attackStep d c = (approach d.attack c.val c.tgt,
      { c with val := approach d.attack c.val c.tgt }) := by
  simp [attackStep, h]

theorem releaseStep_of_neg (h : fLt (approach d.release c.val c.tgt) fZero = true) :
    releaseStep d c = (killedSentinel,
      { c with val := approach d.release c.val c.tgt, mode := .killed }) := if_pos h

theorem releaseStep_of_not_neg (h : fLt (approach d.release c.val c.tgt) fZero = false) :
    releaseStep d c = (approach d.release c.val c.tgt,
      { c with val := approach d.release c.val c.tgt }) := by
  simp [releaseStep, h]

end

/-- Settles O57: the release entry, then the step of the mode it leaves. -/
theorem envelopeFollowsItsEquations : Obligations.EnvelopeFollowsItsEquations := by
  intro d c v g
  refine ⟨fun hm hr hv => ?attack, fun hm hr hv => ?decay, fun hg hv => ?release, fun hm => ?killed⟩
  case attack =>
    subst hv
    have he := envEval_of_attack d (releaseEntry_of_not_entering (by simp [hr])) hm
    exact ⟨fun h => he.trans (attackStep_of_ge d h), fun h => he.trans (attackStep_of_lt d h)⟩
  case decay =>
    subst hv
    exact envEval_of_decay d (releaseEntry_of_not_entering (by simp [hr])) hm
  case release =>
    subst hv
    have he : envEval d c = releaseStep d { c with mode := .release, tgt := g } := by
      rcases hg with ⟨hm, rfl⟩ | ⟨hr, hm, rfl⟩
      · rw [envEval_of_release d (releaseEntry_of_not_entering (by simp [hm])) hm, ← hm]
      · exact envEval_of_release d (releaseEntry_of_entering hr hm) rfl
    exact ⟨fun h => he.trans (releaseStep_of_neg d h),
      fun h => he.trans (releaseStep_of_not_neg d h)⟩
  case killed => exact envEval_of_killed d (releaseEntry_of_not_entering (by simp [hm])) hm

/-- Settles O35: at rate 1.0 the first step is `ATTACK_TARGET` itself, which is above 1.0. -/
theorem attackRateOneEndsAtOnce : Obligations.AttackRateOneEndsAtOnce := by
  intro d c hd hr
  have hstep : fLe fOne (approach fOne fZero attackTarget) = true := by decide +kernel
  rw [envEval_of_attack d (releaseEntry_of_not_entering (by simp [envInit, hr])) rfl,
    attackStep_of_ge d (by rw [hd]; exact hstep)]
  rfl

/-- From level +0.0 toward -0.0 the correction is -0.0, which leaves +0.0 (R153). -/
theorem approach_zero_negZero {r : F32} (hr : rateOk r = true) :
    approach r fZero ⟨0x80000000#32⟩ = fZero := by
  obtain ⟨hf, -, -⟩ := within_of_rateOk hr
  have hpos : negOf r = false := by
    have h0 := scaled_pos_of_rateOk hr
    cases hn : negOf r with
    | false => rfl
    | true =>
      rw [scaled_eq_signed, hn, signed_true] at h0
      omega
  have hm : fMul r ⟨0x80000000#32⟩ = ⟨0x80000000#32⟩ := by
    rw [fMul_of_isFinite hf (by decide), hpos, show scaledMag ⟨0x80000000#32⟩ = 0 by decide,
      mul_zero]
    decide +kernel
  have hd : fSub ⟨0x80000000#32⟩ fZero = ⟨0x80000000#32⟩ := by decide +kernel
  rw [approach, hd, hm]
  decide +kernel

/-- A Release step from level +0.0 toward -0.0 changes nothing and does not kill (R153). -/
theorem releaseStep_of_zero_level {d : InstrDesc} {c : Channel} (hr : rateOk d.release = true)
    (hv : c.val = fZero) (ht : c.tgt = ⟨0x80000000#32⟩) : releaseStep d c = (fZero, c) := by
  have hstep : approach d.release c.val c.tgt = fZero := by
    rw [hv, ht, approach_zero_negZero hr]
  rw [releaseStep_of_not_neg d (by rw [hstep]; decide), hstep, ← hv]

/-- Settles O34: the target captured at level +0.0 is -0.0, and the step toward it changes nothing. -/
theorem zeroLevelReleaseNeverEnds : Obligations.ZeroLevelReleaseNeverEnds := by
  refine ⟨fun d c hr hrel hm hv => ?_, fun d c hr hm hv ht => ?_⟩
  · have htgt : fMul releaseFactor c.val = ⟨0x80000000#32⟩ := by rw [hv]; decide +kernel
    have hstep := releaseStep_of_zero_level
      (c := { c with mode := .release, tgt := ⟨0x80000000#32⟩ }) hr hv rfl
    rw [envEval_of_release d (releaseEntry_of_entering hrel hm) rfl, htgt, hstep]
    exact ⟨rfl, rfl⟩
  · rw [envEval_of_release d (releaseEntry_of_not_entering (by simp [hm])) hm,
      releaseStep_of_zero_level hr hv ht]

/-- Settles O33: a channel in Release takes the approach step, which does not rise. -/
theorem releaseLevelNeverRises : Obligations.ReleaseLevelNeverRises := by
  intro d c hm hr hv hlo hhi
  have hv := (inUnit_iff _).1 hv
  have ht := (within_minusOne_zero_iff _).1 ⟨hlo, hhi⟩
  obtain ⟨hw, hle⟩ := approach_release (within_of_rateOk hr) hv ht
  have hval : (envEval d c).2.val = approach d.release c.val c.tgt := by
    rw [envEval_of_release d (releaseEntry_of_not_entering (by simp [hm])) hm, releaseStep]
    split <;> rfl
  rw [hval, fLe_iff]
  exact ⟨not_isNaN_of_isFinite hw, not_isNaN_of_isFinite hv.1, hle⟩

end Sys2Proof.Proofs
end

section
/-! The envelope's constants (40_envelope.md R141, R150) against the real numbers they stand for: a
binary32 number within half a unit of its last place is a nearest one. -/

namespace Sys2Proof.Proofs

open Sys2Proof.Machine Sys2Proof.Laws Sys2Proof.Safety

/-- Any other value than that of a number inside a binade lies at least a unit of its last place
away. -/
theorem last_place_le_of_scaled_ne {x z : F32} {sh m : Nat} (hx : scaledMag x = m * 2 ^ sh)
    (hlo : 2 ^ 23 < m) (hhi : m < 2 ^ 24) (hne : scaled z ≠ scaled x) :
    ((2 ^ sh : Nat) : Int) ≤ |scaled z - scaled x| := by
  have hprev := magValue_binade sh (m - 1) (by omega) (.inr (by omega))
  have hnext := magValue_binade sh (m + 1) (by omega) (.inr (by omega))
  rw [Nat.sub_mul, one_mul] at hprev
  rw [add_mul, one_mul] at hnext
  have hm : 2 ^ sh ≤ m * 2 ^ sh := Nat.le_mul_of_pos_left _ (by omega)
  have hself := magValue_binade sh m hhi.le (.inr hlo.le)
  rw [scaled_eq_signed, scaled_eq_signed, hx, scaledMag_eq] at hne ⊢
  rw [abs_signed_sub_signed]
  generalize 2 ^ sh = place at *
  generalize m * place = value at *
  rw [Int.abs_eq_natAbs]
  rcases lt_trichotomy (magOf z) (sh * 2 ^ 23 + m) with hz | hz | hz
  · have hle := magValue_strictMono.monotone (show magOf z ≤ sh * 2 ^ 23 + (m - 1) by omega)
    split_ifs <;> omega
  · rw [hz, hself] at hne ⊢
    rw [if_neg fun h => hne (by rw [h])]
    omega
  · have hle := magValue_strictMono.monotone (show sh * 2 ^ 23 + (m + 1) ≤ magOf z by omega)
    split_ifs <;> omega

/-- A number inside a binade that lies within half a unit of its last place of a real number is a
nearest one to it. -/
theorem nearest_of_half_place {x : F32} {sh m : Nat} {q : ℝ} (hx : scaledMag x = m * 2 ^ sh)
    (hlo : 2 ^ 23 < m) (hhi : m < 2 ^ 24)
    (hq : |(scaled x : ℝ) / 2 ^ 149 - q| ≤ 2 ^ sh / 2 ^ 150) (z : F32) :
    |(scaled x : ℝ) / 2 ^ 149 - q| ≤ |(scaled z : ℝ) / 2 ^ 149 - q| := by
  by_cases hz : scaled z = scaled x
  · rw [hz]
  have hgap : (2 : ℝ) ^ sh ≤ |(scaled z : ℝ) - scaled x| := by
    exact_mod_cast last_place_le_of_scaled_ne hx hlo hhi hz
  have hgap : (2 : ℝ) ^ sh / 2 ^ 149 ≤ |(scaled z : ℝ) / 2 ^ 149 - scaled x / 2 ^ 149| := by
    rw [← sub_div, abs_div, abs_of_pos (by positivity : (0 : ℝ) < 2 ^ 149)]
    gcongr
  have htri := abs_sub_le ((scaled z : ℝ) / 2 ^ 149) q (scaled x / 2 ^ 149)
  rw [abs_sub_comm q] at htri
  have hhalf : (2 : ℝ) ^ sh / 2 ^ 149 = 2 * (2 ^ sh / 2 ^ 150) := by ring
  linarith

/-- 1/(e-1) to ten places, from the library's bounds on e. -/
theorem inv_exp_one_sub_one_bounds :
    0.5819767067 < 1 / (Real.exp 1 - 1) ∧ 1 / (Real.exp 1 - 1) < 0.5819767070 := by
  have hlo := Real.exp_one_gt_d9
  have hhi := Real.exp_one_lt_d9
  rw [lt_div_iff₀ (by linarith), div_lt_iff₀ (by linarith)]
  constructor <;> linarith

/-- Settles O36: each constant is within half a unit of its last place, which is 2^-23 for the one and
2^-24 for the other. -/
theorem envelopeConstantsAreNearest : Obligations.EnvelopeConstantsAreNearest := by
  intro z _
  obtain ⟨hlo, hhi⟩ := inv_exp_one_sub_one_bounds
  constructor
  · refine nearest_of_half_place (sh := 126) (m := 13270582) (by decide +kernel) (by norm_num)
      (by norm_num) ?_ z
    have hexp : Real.exp 1 / (Real.exp 1 - 1) = 1 + 1 / (Real.exp 1 - 1) := by
      have := Real.exp_one_gt_d9
      field_simp [show Real.exp 1 - 1 ≠ 0 by linarith]
      ring
    rw [scaled_attackTarget, hexp, abs_le]
    push_cast
    constructor <;> linarith
  · refine nearest_of_half_place (sh := 125) (m := 9763949) (by decide +kernel) (by norm_num)
      (by norm_num) ?_ z
    rw [scaled_releaseFactor, neg_div, abs_le]
    push_cast
    constructor <;> linarith

end Sys2Proof.Proofs
end

section
/-! The envelope invariant (40_envelope.md R152): a note's start, its release and every evaluation keep
a voice's level in [0, 1] and its target the one of its mode, so every command and every step does. -/

namespace Sys2Proof.Proofs

open Sys2Proof.Machine Sys2Proof.Safety

/-! ### The promise on a voice, mode by mode -/

section
variable {k : Cfg} {c : Channel}

theorem levelOk_iff_of_attack (hm : c.mode = .attack) : LevelOk k c ↔
    Within 0 (2 ^ 149) c.val ∧ c.tgt = attackTarget ∧ fLt c.val fOne = true := by
  simp only [LevelOk, hm, ← within_unit_iff, and_assoc]

theorem levelOk_iff_of_decay (hm : c.mode = .decay) : LevelOk k c ↔
    Within 0 (2 ^ 149) c.val ∧ c.tgt = (instrDesc k c.instr).sustain := by
  simp only [LevelOk, hm, ← within_unit_iff, and_assoc]

theorem levelOk_iff_of_release (hm : c.mode = .release) : LevelOk k c ↔
    Within 0 (2 ^ 149) c.val ∧ c.released = true ∧ Within (-2 ^ 149) 0 c.tgt := by
  simp only [LevelOk, hm, ← within_unit_iff, ← within_minusOne_zero_iff, and_assoc]

theorem mode_ne_killed_of_levelOk (h : LevelOk k c) : c.mode ≠ .killed := fun hm => by
  simp [LevelOk, hm] at h

theorem val_within_of_levelOk (h : LevelOk k c) : Within 0 (2 ^ 149) c.val := by
  obtain ⟨hlo, hhi, -⟩ := h
  exact (within_unit_iff _).1 ⟨hlo, hhi⟩

/-- The promise speaks of the envelope's fields and the binding alone. -/
theorem levelOk_of_envelope_eq {b : Channel} (h : LevelOk k c) (hmode : b.mode = c.mode)
    (hval : b.val = c.val) (htgt : b.tgt = c.tgt) (hbind : binding b = binding c) :
    LevelOk k b := by
  simp only [binding, Prod.mk.injEq] at hbind
  obtain ⟨-, hrel, -, hinstr, -⟩ := hbind
  rwa [LevelOk, hmode, hval, htgt, hrel, hinstr]

/-! ### One evaluation of the envelope -/

/-- Entering Release captures a target in [-1, 0] (R143, R150). -/
theorem levelOk_releaseEntry (h : LevelOk k c) : LevelOk k (releaseEntry c) := by
  have hv := val_within_of_levelOk h
  rcases releaseEntry_cases c with ⟨-, he⟩ | ⟨hrel, -, he⟩ <;> rw [he]
  · exact h
  · exact (levelOk_iff_of_release rfl).2 ⟨hv, hrel, releaseTarget_within hv⟩

/-- Attack, whose step ends below 1.0 or is clamped to it (R145). -/
theorem levelOk_attackStep (h : LevelOk k c) (hm : c.mode = .attack)
    (hr : rateOk (instrDesc k c.instr).attack = true) :
    LevelOk k (attackStep (instrDesc k c.instr) c).2 := by
  obtain ⟨hv, ht, -⟩ := (levelOk_iff_of_attack hm).1 h
  obtain ⟨hw, h0⟩ := approach_attack (within_of_rateOk hr) hv
  rw [← ht] at hw h0
  cases hge : fLe fOne (approach (instrDesc k c.instr).attack c.val c.tgt) with
  | true =>
    rw [attackStep_of_ge _ hge]
    exact (levelOk_iff_of_decay rfl).2 ⟨(inUnit_iff fOne).1 (by decide), rfl⟩
  | false =>
    rw [attackStep_of_lt _ hge]
    have hn := not_isNaN_of_isFinite hw
    obtain ⟨-, hle⟩ := compare_iff (x := fOne) (by decide) hn
    obtain ⟨hlt, -⟩ := compare_iff (y := fOne) hn (by decide)
    rw [hge, scaled_fOne, Bool.false_eq_true, false_iff, not_le] at hle
    exact (levelOk_iff_of_attack (by exact hm)).2
      ⟨⟨hw, h0, hle.le⟩, ht, hlt.2 (by rwa [scaled_fOne])⟩

/-- Decay, between levels in [0, 1] (R146). -/
theorem levelOk_decayStep (h : LevelOk k c) (hm : c.mode = .decay)
    (hr : rateOk (instrDesc k c.instr).decay = true)
    (hs : inUnit (instrDesc k c.instr).sustain = true) :
    LevelOk k (decayStep (instrDesc k c.instr) c).2 := by
  obtain ⟨hv, ht⟩ := (levelOk_iff_of_decay hm).1 h
  have ht' : Within 0 (2 ^ 149) c.tgt := by rw [ht]; exact (inUnit_iff _).1 hs
  exact (levelOk_iff_of_decay (by exact hm)).2
    ⟨approach_within_unit (within_of_rateOk hr) hv ht', ht⟩

/-- Release, whose step does not rise and is Killed below 0 (R147). -/
theorem levelOk_releaseStep {d : InstrDesc} (h : LevelOk k c) (hm : c.mode = .release)
    (hr : rateOk d.release = true) (hkill : (releaseStep d c).2.mode ≠ .killed) :
    LevelOk k (releaseStep d c).2 := by
  obtain ⟨hv, hrel, ht⟩ := (levelOk_iff_of_release hm).1 h
  obtain ⟨hw, hle⟩ := approach_release (within_of_rateOk hr) hv ht
  cases hneg : fLt (approach d.release c.val c.tgt) fZero with
  | true =>
    rw [releaseStep_of_neg d hneg] at hkill
    exact absurd rfl hkill
  | false =>
    rw [releaseStep_of_not_neg d hneg]
    obtain ⟨hlt, -⟩ := compare_iff (y := fZero) (not_isNaN_of_isFinite hw) (by decide)
    rw [hneg, scaled_fZero, Bool.false_eq_true, false_iff, not_lt] at hlt
    exact (levelOk_iff_of_release (by exact hm)).2 ⟨⟨hw, hlt, hle.trans hv.2.2⟩, hrel, ht⟩

/-- The envelope's conditions on a descriptor (00_scope.md R10). -/
theorem envelope_of_instrDescOk {d : InstrDesc} (h : instrDescOk d = true) :
    rateOk d.attack = true ∧ rateOk d.decay = true ∧ rateOk d.release = true ∧
      inUnit d.sustain = true := by
  simp only [instrDescOk, Bool.and_eq_true] at h
  tauto

theorem releaseEntry_instr (c : Channel) : (releaseEntry c).instr = c.instr := by
  rcases releaseEntry_cases c with ⟨-, he⟩ | ⟨-, -, he⟩ <;> rw [he]

/-- One evaluation keeps the promise, unless it kills the voice (R151, R152). -/
theorem levelOk_envEval (h : LevelOk k c) (hd : instrDescOk (instrDesc k c.instr) = true)
    (hkill : (envEval (instrDesc k c.instr) c).2.mode ≠ .killed) :
    LevelOk k (envEval (instrDesc k c.instr) c).2 := by
  obtain ⟨ha, hdec, hr, hs⟩ := envelope_of_instrDescOk hd
  have hb := levelOk_releaseEntry h
  rw [← releaseEntry_instr c] at ha hdec hr hs hkill ⊢
  cases hm : (releaseEntry c).mode with
  | attack => rw [envEval_of_attack _ rfl hm]; exact levelOk_attackStep hb hm ha
  | decay => rw [envEval_of_decay _ rfl hm]; exact levelOk_decayStep hb hm hdec hs
  | release =>
    rw [envEval_of_release _ rfl hm] at hkill ⊢
    exact levelOk_releaseStep hb hm hr hkill
  | killed => exact absurd hm (mode_ne_killed_of_levelOk hb)

end

/-! ### A voice over a command -/

theorem instrDescOk_of_wellFormed {k : Cfg} (hk : k.wellFormed = true) {i : BitVec 8}
    (hi : i.toNat < k.nInstr) : instrDescOk (instrDesc k i) = true := by
  have hall : k.instrs.all instrDescOk = true := by
    simp only [Cfg.wellFormed, cfgOk, Bool.and_eq_true] at hk
    tauto
  rw [instrDesc, List.getD_eq_getElem _ _ hi]
  exact List.all_eq_true.1 hall _ (List.getElem_mem hi)

/-- `NOTE_ON` starts a voice in Attack at level 0 (R142). -/
theorem levelOk_chInit (k : Cfg) (inst : List Tunables) (note instr : BitVec 8) (v : F32)
    (c : Channel) : LevelOk k (chInit k inst note instr v c) := by
  simp only [LevelOk, chInit, oscInit, envInit]
  decide

/-- `NOTE_OFF` marks a voice released and leaves its envelope as it is (44_voice_pool_mixer.md R253). -/
theorem levelOk_released {k : Cfg} {c : Channel} (h : LevelOk k c) :
    LevelOk k { c with released := true } := by
  cases hm : c.mode with
  | attack => exact (levelOk_iff_of_attack rfl).2 ((levelOk_iff_of_attack hm).1 h)
  | decay => exact (levelOk_iff_of_decay rfl).2 ((levelOk_iff_of_decay hm).1 h)
  | release =>
    obtain ⟨hv, -, ht⟩ := (levelOk_iff_of_release hm).1 h
    exact (levelOk_iff_of_release rfl).2 ⟨hv, rfl, ht⟩
  | killed => exact absurd hm (mode_ne_killed_of_levelOk h)

/-- A voice's evaluation ends with the envelope's, on a channel whose envelope and binding the
oscillator and the filter have not touched (R256). -/
theorem voiceEval_ends_with_envEval (k : Cfg) (inst : List Tunables) (c : Channel) :
    ∃ b, (voiceEval k inst c).c = (envEval (instrDesc k c.instr) b).2 ∧ b.mode = c.mode ∧
      b.val = c.val ∧ b.tgt = c.tgt ∧ binding b = binding c := by
  refine ⟨_, rfl, ?_⟩
  rw [filtEval_channel]
  obtain ⟨hmode, hval, htgt⟩ := oscEval_envelope k (instrDesc k c.instr) (tunablesOf inst c.instr) c
  exact ⟨hmode, hval, htgt, oscEval_binding ..⟩

/-- A voice's evaluation keeps the promise, unless it kills the voice. -/
theorem levelOk_voiceEval {k : Cfg} (hk : k.wellFormed = true) (inst : List Tunables) {c : Channel}
    (hv : VoiceOk k c) (hc : LevelOk k c) (hkill : (voiceEval k inst c).c.mode ≠ .killed) :
    LevelOk k (voiceEval k inst c).c := by
  obtain ⟨b, he, hmode, hval, htgt, hbind⟩ := voiceEval_ends_with_envEval k inst c
  have hb := levelOk_of_envelope_eq hc hmode hval htgt hbind
  have hd := instrDescOk_of_wellFormed hk hv.instr_lt
  simp only [binding, Prod.mk.injEq] at hbind
  obtain ⟨-, -, -, hinstr, -⟩ := hbind
  rw [he, ← hinstr] at hkill ⊢
  exact levelOk_envEval hb (hinstr ▸ hd) hkill

/-- Whatever becomes of a channel over a command, it keeps the promise if it is live. -/
theorem ChannelEffect.levelOk {s : State} {i : Instr} {c c' : Channel}
    (he : ChannelEffect s c i c') (hk : s.cfg.wellFormed = true)
    (hv : c.live = true → VoiceOk s.cfg c) (hc : c.live = true → LevelOk s.cfg c)
    (hl : c'.live = true) : LevelOk s.cfg c' := by
  cases he with
  | same => exact hc hl
  | reset => cases hl
  | bound => exact levelOk_chInit ..
  | released => exact levelOk_released (hc hl)
  | killed => cases hl
  | sampled =>
    cases hlive : c.live with
    | false => rw [channelTurn_of_dead _ _ _ hlive, hlive] at hl; cases hl
    | true =>
      rw [channelTurn_of_live _ _ _ hlive] at hl ⊢
      exact levelOk_voiceEval hk s.inst (hv hlive) (hc hlive) (of_decide_eq_true hl)

/-! ### The invariant over a step -/

/-- The invariant speaks of the channel file and the configuration alone. -/
theorem levelInv_of_eq {s t : State} (h : LevelInv s) (hch : t.ch = s.ch) (hcfg : t.cfg = s.cfg) :
    LevelInv t := by
  rwa [LevelInv, hch, hcfg]

theorem CommandEffect.levelInv {s u : State} {i : Instr} (he : CommandEffect s i u) (hs : Inv s)
    (h : LevelInv s) : LevelInv u := by
  intro c' hc' hl
  obtain ⟨j, hj, rfl⟩ := List.mem_iff_getElem.1 hc'
  rw [he.ch_length hs.ch_length, ← hs.ch_length] at hj
  have hmem := List.getElem_mem hj
  rw [he.cfg_eq]
  exact (he.channel (List.getElem?_eq_getElem hj) (List.getElem?_eq_getElem _)).levelOk hs.cfg_ok
    (hs.voices _ hmem) (h _ hmem) hl

/-- A command ends with its status write, an illegal word is one, and neither touches a channel. -/
theorem execute_keeps_levels {s t : State} {w : Word} (hs : Inv s) (hl : LevelInv s)
    (h : execute s w = .next t) : LevelInv t := by
  unfold execute at h
  cases hd : decode w with
  | ok i =>
    obtain ⟨u, code, he, rfl⟩ := exec_effect (by simpa only [hd] using h)
    exact levelInv_of_eq (he.levelInv hs hl) rfl rfl
  | error e =>
    obtain rfl : statusWrite s false .illegal = t := by simpa [hd, raiseError] using h
    exact levelInv_of_eq hl rfl rfl

theorem EventEffect.levelInv {s t : State} {e : HostEvent} (he : EventEffect s e t) (hs : Inv s)
    (h : LevelInv s) : LevelInv t := by
  cases he with
  | shown | ignored | argStored | chanSelStored => exact levelInv_of_eq h rfl rfl
  | ran hu => exact levelInv_of_eq (execute_keeps_levels hs h hu) rfl rfl
  | reset => exact levelInv_of_eq (levelInv_resetOf s.cfg) rfl rfl

/-- Settles O51: an idle step changes nothing, and every event that a step can take keeps the levels. -/
theorem stepKeepsTheLevels : Obligations.StepKeepsTheLevels := by
  intro s t hs hl h
  rcases step_cases s with ⟨-, hx⟩ | ⟨-, -, hx⟩ | ⟨-, e, rest, -, hx⟩ <;> rw [hx] at h
  · cases h
  · exact Host.Outcome.next.inj h ▸ hl
  · exact (takeEvent_effect h).levelInv (inv_withPending hs rest) (levelInv_of_eq hl rfl rfl)

end Sys2Proof.Proofs
end

section
/-! What a rounding keeps (00_scope.md R12): significands of 24 bits at every place, a number itself, and so
a sum with a zero; and which products are a zero. -/

namespace Sys2Proof.Proofs

open Sys2Proof.Machine Sys2Proof.Laws Sys2Proof.Safety

section
variable {num : Int} {den : Nat} {r : F32}

/-- A significand of at most 24 bits, at a place where it is below the infinities, is not changed by
rounding. -/
theorem Rounds.exact_of_significand (hd : 0 < den) (h : Rounds num den r) {a j : Nat}
    (ha : a ≤ 2 ^ 24) (hlt : a * 2 ^ j < 2 ^ 24 * 2 ^ 253) (hnum : num.natAbs = a * 2 ^ j * den) :
    isFinite r = true ∧ scaled r * den = num := by
  obtain ⟨k, hk⟩ := exists_magValue_eq a j ha
  have hkInf : k < infMag := by rwa [← magValue_strictMono.lt_iff_lt, hk, magValue_infMag]
  exact h.exact hd hkInf (by rw [hnum, hk])

/-- A number that is not a zero is the only rounding of its own value, sign included. -/
theorem Rounds.eq_of_scaled {x : F32} (h : Rounds (scaled x) 1 r) (hx : isFinite x = true)
    (hz : isZero x = false) : r = x := by
  have habs : (scaled x).natAbs = magValue (magOf x) := by
    rw [scaled_eq_signed, natAbs_signed, scaledMag_eq]
  have hpos : 0 < scaledMag x := (scaledMag_pos_iff x).2 hz
  have h0 : scaled x ≠ 0 := by rw [scaledMag_eq, ← habs] at hpos; omega
  have hneg : negOf r = true ↔ negOf x = true := by
    rw [h.negOf_iff h0, scaled_eq_signed, signed_lt_zero_iff]
    exact and_iff_left hpos
  refine eq_of_parts (Bool.eq_iff_iff.2 hneg) ?_
  have hexact := roundMag_exact 1 (magOf x) Nat.one_pos ((isFinite_iff x).1 hx).le
  rwa [h.magOf_eq, habs, ← mul_one (magValue _)]

end

theorem scaled_eq_zero_iff (x : F32) : scaled x = 0 ↔ isZero x = true := by
  rw [scaled_eq_signed, isZero_iff, ← scaledMag_eq_zero_iff]
  cases negOf x <;> simp

/-- Adding a zero of either sign to a number that is not a zero does not change it. -/
theorem fAdd_of_isZero_right {x z : F32} (hx : isFinite x = true) (hx0 : isZero x = false)
    (hz : isZero z = true) : fAdd x z = x := by
  have h := rounds_fAdd hx (isFinite_of_isZero hz)
  rw [(scaled_eq_zero_iff z).2 hz, add_zero] at h
  exact h.eq_of_scaled hx hx0

/-- A finite number less itself is a zero. -/
theorem isZero_fSub_self {x : F32} (hx : isFinite x = true) : isZero (fSub x x) = true := by
  have h := rounds_fSub hx hx
  rw [sub_self] at h
  rw [isZero_iff, h.magOf_eq]
  rfl

/-- A zero times a finite number is a zero. -/
theorem isZero_fMul {x y : F32} (hx : isFinite x = true) (hy : isFinite y = true)
    (h : isZero x = true ∨ isZero y = true) : isZero (fMul x y) = true := by
  have hprod : scaled x * scaled y = 0 := by
    rw [mul_eq_zero, scaled_eq_zero_iff, scaled_eq_zero_iff]
    exact h
  have hr := rounds_fMul hx hy
  rw [hprod] at hr
  have hexact := roundMag_exact (2 ^ 149) 0 (by positivity) (Nat.zero_le _)
  rw [show magValue 0 = 0 by decide, zero_mul] at hexact
  rw [isZero_iff, hr.magOf_eq, Int.natAbs_zero, hexact]

/-- A quotient by a positive number is the exact one rounded once. -/
theorem rounds_fDiv_of_pos {x y : F32} (hx : isFinite x = true) (hy : isFinite y = true)
    (hz : isZero y = false) (hneg : negOf y = false) :
    Rounds (scaled x * 2 ^ 149) (scaledMag y) (fDiv x y) := by
  have h := rounds_fDiv hx hy hz
  rw [hneg, Bool.bne_false, ← signed_mul_natCast, ← scaled_eq_signed] at h
  exact_mod_cast h

/-- `f32(n)` is the integer rounded once. -/
theorem rounds_fOfNat (n : Nat) : Rounds ((n : Int) * 2 ^ 149) 1 (fOfNat n) := by
  have h : (n : Int) * 2 ^ 149 = ((n * 2 ^ 149 : Nat) : Int) := by push_cast; rfl
  rw [h]
  exact ⟨false, rfl, rfl⟩

/-- An integer below 2^24 is representable. -/
theorem fOfNat_exact {n : Nat} (hn : n < 2 ^ 24) :
    isFinite (fOfNat n) = true ∧ scaled (fOfNat n) = (n : Int) * 2 ^ 149 := by
  simpa using (rounds_fOfNat n).exact_of_significand Nat.one_pos hn.le (j := 149)
    (by omega) (by omega)

end Sys2Proof.Proofs
end

section
/-! The NOISE oscillator (41_oscillator.md R178 to R181): the register's step as whole-number arithmetic,
the register never zero, and the output exact. -/

namespace Sys2Proof.Proofs

open Sys2Proof.Machine Sys2Proof.Safety

/-! ### The register -/

/-- Only zero steps to zero (R181). -/
theorem xorshift_eq_zero_iff {k : Cfg} (h : k.wellFormed = true) (x : BitVec 24) :
    xorshift k x = 0#24 ↔ x = 0#24 :=
  ⟨not_imp_not.1 (xorshift_ne_zero h), fun hx => hx ▸ xorshift_zero k⟩

/-- Settles O37: the invariant holds the register of a live NOISE voice off zero, and every step keeps the
invariant. -/
theorem noiseRegisterIsNeverZero : Obligations.NoiseRegisterIsNeverZero := by
  refine ⟨fun k hk => ?_, fun s t hs hstep c hc hl hosc => ?_⟩
  · obtain ⟨-, -, -, hseed⟩ := noise_of_wellFormed hk
    exact ⟨xorshift_injective hk, xorshift_eq_zero_iff hk, hseed⟩
  · have ht : Inv t := stepKeepsTheInvariant s t hs hstep
    exact (ht.voices c hc hl).noise_ne hosc

/-- A word combined with its left shift, as arithmetic: the mask is the cut to the word's width. -/
theorem toNat_xor_shiftLeft {w : Nat} (x : BitVec w) (n : Nat) :
    (x ^^^ (x <<< n)).toNat = x.toNat ^^^ (x.toNat * 2 ^ n % 2 ^ w) := by
  rw [BitVec.toNat_xor, BitVec.toNat_shiftLeft, Nat.shiftLeft_eq]

/-- A word combined with its right shift, as arithmetic. -/
theorem toNat_xor_ushiftRight {w : Nat} (x : BitVec w) (n : Nat) :
    (x ^^^ (x >>> n)).toNat = x.toNat ^^^ (x.toNat / 2 ^ n) := by
  rw [BitVec.toNat_xor, BitVec.toNat_ushiftRight, Nat.shiftRight_eq_div_pow]

/-- Settles O55: the three numbers are the register after each of the three shifts. -/
theorem noiseFollowsItsEquations : Obligations.NoiseFollowsItsEquations := by
  intro k d t c hosc
  refine ⟨_, _, (xorshift k c.nz).toNat, toNat_xor_shiftLeft c.nz k.xsA,
    toNat_xor_ushiftRight _ k.xsB, toNat_xor_shiftLeft _ k.xsC, BitVec.isLt _, ?_⟩
  rw [oscEval, hosc, BitVec.ofNat_toNat, BitVec.setWidth_eq]
  rfl

/-! ### The output -/

/-- `f32(n) / 2^23` is exact: the same significand, 23 places lower (R179). -/
theorem noiseQuotient_exact {n : Nat} (hn : n < 2 ^ 24) :
    isFinite (fDiv (fOfNat n) f8388608) = true ∧
      scaled (fDiv (fOfNat n) f8388608) = (n : Int) * 2 ^ 126 := by
  obtain ⟨hf, hs⟩ := fOfNat_exact hn
  have h := rounds_fDiv_of_pos (y := f8388608) hf (by decide) (by decide) (by decide)
  rw [hs, show scaledMag f8388608 = 2 ^ 172 by decide +kernel] at h
  obtain ⟨hfin, hq⟩ := h.exact_of_significand (by positivity) hn.le (j := 126) (by omega) (by omega)
  exact ⟨hfin, by push_cast at hq; omega⟩

/-- The subtraction of 1.0 is exact: the quotient is a whole multiple of 2^-23 in [0, 2) (R179). -/
theorem noiseOut_exact (x : BitVec 24) :
    isFinite (noiseOut x) = true ∧ scaled (noiseOut x) = ((x.toNat : Int) - 2 ^ 23) * 2 ^ 126 := by
  obtain ⟨hf, hs⟩ := noiseQuotient_exact x.isLt
  have h : Rounds (((x.toNat : Int) - 2 ^ 23) * 2 ^ 126) 1 (noiseOut x) := by
    have hr := rounds_fSub hf (y := fOne) (by decide)
    rwa [hs, scaled_fOne, show (x.toNat : Int) * 2 ^ 126 - 2 ^ 149
      = ((x.toNat : Int) - 2 ^ 23) * 2 ^ 126 by ring] at hr
  exact h.exact_of_dvd (dvd_mul_left _ _) (by omega) (by omega)

/-- Settles O38: each of the three steps is exact, and a register in 1..2^24 - 1 gives the range. -/
theorem noiseOutputIsExact : Obligations.NoiseOutputIsExact := by
  intro x hx
  have hpos : x.toNat ≠ 0 := fun h => hx (BitVec.eq_of_toNat_eq h)
  have hlt := x.isLt
  obtain ⟨-, hint⟩ := fOfNat_exact hlt
  obtain ⟨-, hquot⟩ := noiseQuotient_exact hlt
  obtain ⟨hfin, hout⟩ := noiseOut_exact x
  exact ⟨hfin, hint, hquot, hout, by omega, by omega⟩

end Sys2Proof.Proofs
end

section
/-! The carrier of SAW and PULSE (41_oscillator.md R172 to R185): the note's table entries, where vibrato
leaves the increment alone, and each oscillator as its equations. -/

namespace Sys2Proof.Proofs

open Sys2Proof.Machine Sys2Proof.Safety

/-! ### The note's table entries -/

section
variable {k : Cfg} (hk : k.wellFormed = true) {n : Nat} (hn : n < 128)
include hk hn

/-- The entry of a note in the normalization table (00_scope.md R8). -/
theorem dpwNorm_getElem? : k.dpwNorm[n]? = some (dpwNormAt k n) := by
  obtain ⟨-, hlen⟩ := table_lengths hk
  rw [dpwNormAt, List.getD_eq_getElem _ _ (by omega), List.getElem?_eq_getElem]

/-- Every entry of the increment table is a legal increment (00_scope.md R8). -/
theorem incrementOk_phaseIncAt : incrementOk (phaseIncAt k n) = true := by
  have hall : k.phaseInc.all incrementOk = true := by
    simp only [Cfg.wellFormed, cfgOk, phaseIncOk, Bool.and_eq_true] at hk
    tauto
  have hi : n < k.phaseInc.length := (table_lengths hk).1 ▸ hn
  rw [phaseIncAt, List.getD_eq_getElem _ _ hi]
  exact List.all_eq_true.1 hall _ (List.getElem_mem hi)

end

/-- A legal increment is finite, above 0 and below 2. -/
theorem incrementOk_iff (v : F32) :
    incrementOk v = true ↔ isFinite v = true ∧ 0 < scaled v ∧ scaled v < 2 * 2 ^ 149 := by
  simp only [incrementOk, Bool.and_eq_true, and_assoc]
  refine and_congr_right fun hf => ?_
  have hv := not_isNaN_of_isFinite hf
  rw [(compare_iff (x := fZero) (by decide) hv).1, (compare_iff (y := fTwo) hv (by decide)).1,
    scaled_fZero, scaled_fTwo]

theorem not_isZero_of_incrementOk {v : F32} (h : incrementOk v = true) : isZero v = false := by
  obtain ⟨-, hpos, -⟩ := (incrementOk_iff v).1 h
  rw [Bool.eq_false_iff, Ne, ← scaled_eq_zero_iff]
  exact hpos.ne'

/-- The difference of two legal increments does not overflow: it lies in [-2, 2]. -/
theorem isFinite_fSub_of_incrementOk {v w : F32} (hv : incrementOk v = true)
    (hw : incrementOk w = true) : isFinite (fSub v w) = true := by
  obtain ⟨fv, lov, hiv⟩ := (incrementOk_iff v).1 hv
  obtain ⟨fw, low, hiw⟩ := (incrementOk_iff w).1 hw
  refine ((rounds_fSub fv fw).within (x := fNeg fTwo) (y := fTwo) Nat.one_pos (by decide) (by decide)
    ?_ ?_).1
  · rw [scaled_fNeg, scaled_fTwo]; omega
  · rw [scaled_fTwo]; omega

/-! ### Vibrato -/

/-- Where the interpolation's product is a zero, the increment is the note's own entry. -/
theorem vibratoInc_of_isZero {k : Cfg} {n : Nat} (hk : k.wellFormed = true) (hn : n < 128)
    {t : Tunables} {lfo : F32}
    (hz : isZero (fMul (fSub (phaseIncAt k (min (n + 1) 127)) (phaseIncAt k n))
      (fMul lfo t.depth)) = true) :
    vibratoInc k t n lfo = phaseIncAt k n := by
  have hinc := incrementOk_phaseIncAt hk hn
  exact fAdd_of_isZero_right ((incrementOk_iff _).1 hinc).1 (not_isZero_of_incrementOk hinc) hz

/-- Settles O40: note 127 is its own neighbour, so the difference is a zero; at depth 0 the scaled LFO output
is. Either way the product is a zero. -/
theorem vibratoLeavesTopNoteAndDepthZeroAlone :
    Obligations.VibratoLeavesTopNoteAndDepthZeroAlone := by
  intro k t n lfo hk hn
  have hown := incrementOk_phaseIncAt hk hn
  refine ⟨fun hfin h127 => vibratoInc_of_isZero hk hn ?_,
    fun hlfo hdepth => vibratoInc_of_isZero hk hn ?_⟩
  · have hdiff : isZero (fSub (phaseIncAt k (min (n + 1) 127)) (phaseIncAt k n)) = true := by
      rw [show min (n + 1) 127 = n by omega]
      exact isZero_fSub_self ((incrementOk_iff _).1 hown).1
    exact isZero_fMul (isFinite_of_isZero hdiff) hfin (.inl hdiff)
  · have hscaled : isZero (fMul lfo t.depth) = true :=
      isZero_fMul hlfo (isFinite_of_isZero hdepth) (.inr hdepth)
    have hnext := incrementOk_phaseIncAt hk (n := min (n + 1) 127) (by omega)
    exact isZero_fMul (isFinite_fSub_of_incrementOk hnext hown) (isFinite_of_isZero hscaled)
      (.inr hscaled)

/-! ### SAW and PULSE -/

/-- SAW on the channel that the carrier leaves, written out on the channel before it (R173). -/
theorem oscSaw_eq (k : Cfg) (d : InstrDesc) (t : Tunables) (c : Channel) :
    oscSaw k d t c =
      let ic := carrierInc k d t c
      let r := dpwStep c.phi c.p1 ic.1 (dpwNormAt k c.note.toNat)
      (r.y, { c with phi := r.phi, p1 := r.prev, lphi := ic.2.lphi, lp := ic.2.lp }) := by
  unfold oscSaw
  simp only []
  rw [carrierInc_frame]

/-- Settles O53: the carrier and the DPW step each follow their rule. -/
theorem sawFollowsItsEquations : Obligations.SawFollowsItsEquations := by
  intro k d t c hk hosc
  refine ⟨_, _, _, _, _, _, _, carrierInc_rule hk d t c, dpwNorm_getElem? hk c.note.isLt,
    dpwStep_rule _ _ _ _, ?_⟩
  rw [oscEval, hosc]
  exact oscSaw_eq k d t c

/-- PULSE on the channel that the carrier leaves, written out on the channel before it (R175). -/
theorem oscPulse_eq (k : Cfg) (d : InstrDesc) (t : Tunables) (c : Channel) :
    oscPulse k d t c =
      let ic := carrierInc k d t c
      let nrm := dpwNormAt k c.note.toNat
      let phi1 := wrap (fAdd c.phi ic.1)
      let phi2 := wrap (fAdd phi1 (pulseOffset t))
      (fSub (fMul (fSub (fMul phi1 phi1) c.p1) nrm) (fMul (fSub (fMul phi2 phi2) c.p2) nrm),
        { c with phi := phi1, p1 := fMul phi1 phi1, p2 := fMul phi2 phi2,
                 lphi := ic.2.lphi, lp := ic.2.lp }) := by
  unfold oscPulse
  simp only []
  rw [carrierInc_frame]

/-- Settles O54: the carrier follows its rule, and `wrap` follows its own for each of the two saws. -/
theorem pulseFollowsItsEquations : Obligations.PulseFollowsItsEquations := by
  intro k d t c hk hosc
  refine ⟨_, _, _, _, _, _, _, _, carrierInc_rule hk d t c, dpwNorm_getElem? hk c.note.isLt,
    wrap_rule _, rfl, wrap_rule _, rfl, ?_⟩
  rw [oscEval, hosc]
  exact oscPulse_eq k d t c

end Sys2Proof.Proofs
end

section
/-! The filter bank (42_filter.md R210 to R217): both filters as their recurrences, what they do with
coefficient 0 right after note-on, and where the coefficient of a cutoff lies below 1. -/

namespace Sys2Proof.Proofs

open Sys2Proof.Machine Sys2Proof.Laws Sys2Proof.Safety

/-! ### The recurrences -/

theorem filtEval_of_lp {d : InstrDesc} (h : d.filt = .lp) (t : Tunables) (c : Channel) (x : F32) :
    filtEval d t c x = filtLp t c x := by rw [filtEval, h]

theorem filtEval_of_hp {d : InstrDesc} (h : d.filt = .hp) (t : Tunables) (c : Channel) (x : F32) :
    filtEval d t c x = filtHp t c x := by rw [filtEval, h]

/-- Settles O56: the dispatch of R210, then each filter's own equations. -/
theorem filtersFollowTheirEquations : Obligations.FiltersFollowTheirEquations := by
  intro d t c x y
  exact ⟨fun hlp hy => by rw [filtEval_of_lp hlp, hy]; rfl,
    fun hhp hy => by rw [filtEval_of_hp hhp, hy]; rfl⟩

/-! ### Operations with zeros and with 1.0 -/

/-- A rounding of a number's own value keeps the value; only a zero's sign can change. -/
theorem Rounds.keeps_value {x r : F32} (h : Rounds (scaled x) 1 r) (hx : isFinite x = true) :
    isFinite r = true ∧ scaled r = scaled x := by
  simpa using h.exact (k := magOf x) Nat.one_pos ((isFinite_iff x).1 hx)
    (by rw [scaled_eq_signed, natAbs_signed, scaledMag_eq, mul_one])

/-- The sum of two zeros is negative only where both are. -/
theorem fAdd_of_isZero {x y : F32} (hx : isZero x = true) (hy : isZero y = true) :
    fAdd x y = pack (negOf x && negOf y) 0 := by
  rw [fAdd, addCore_of_isFinite _ (isFinite_of_isZero hx) (isFinite_of_isZero hy),
    addFinite_of_sum_eq_zero]
  rw [(scaled_eq_zero_iff x).2 hx, (scaled_eq_zero_iff y).2 hy, add_zero]

/-- The difference of equal values is +0.0, but for -0.0 less +0.0. -/
theorem fSub_of_scaled_eq {x y : F32} (hx : isFinite x = true) (hy : isFinite y = true)
    (h : scaled x = scaled y) (hneg : negOf x = true → negOf y = true) : fSub x y = fZero := by
  have hsign : (negOf x && negOf (fNeg y)) = false := by
    rw [negOf_fNeg, Bool.and_eq_false_imp]
    intro hn
    rw [hneg hn, Bool.not_true]
  rw [fSub, addCore_of_isFinite _ hx (by rwa [isFinite_fNeg]),
    addFinite_of_sum_eq_zero (by rw [scaled_fNeg]; omega), hsign]
  rfl

/-- Multiplying by 1.0 keeps every finite number, the zeros with their signs. -/
theorem fMul_fOne_left {x : F32} (hx : isFinite x = true) : fMul fOne x = x := by
  have hmag : roundMag (scaledMag fOne * scaledMag x) (2 ^ 149) = magOf x := by
    rw [show scaledMag fOne = 2 ^ 149 by decide +kernel, scaledMag_eq, mul_comm]
    exact roundMag_exact _ _ (by positivity) ((isFinite_iff x).1 hx).le
  rw [fMul_of_isFinite (by decide) hx, hmag, show negOf fOne = false by decide, Bool.false_bne]
  exact eq_of_parts (negOf_pack _ _ (magOf_lt x)) (magOf_pack _ _ (magOf_lt x))

/-! ### Coefficient 0 -/

section
variable {x : F32} (hx : isFinite x = true)
include hx

theorem fAdd_fZero_keeps_value :
    isFinite (fAdd x fZero) = true ∧ scaled (fAdd x fZero) = scaled x := by
  have h := rounds_fAdd hx (y := fZero) (by decide)
  rw [scaled_fZero, add_zero] at h
  exact h.keeps_value hx

theorem isFinite_fSub_fZero : isFinite (fSub x fZero) = true := by
  have h := rounds_fSub hx (y := fZero) (by decide)
  rw [scaled_fZero, sub_zero] at h
  exact (h.keeps_value hx).1

/-- `(x + 0) - x` is +0.0 for every finite `x`: the sum is `x`, but for -0.0, whose sum is +0.0. -/
theorem fSub_fAdd_fZero_self : fSub (fAdd x fZero) x = fZero := by
  obtain ⟨hf, hs⟩ := fAdd_fZero_keeps_value hx
  refine fSub_of_scaled_eq hf hx hs fun hneg => ?_
  cases hz : isZero x with
  | false => rwa [fAdd_of_isZero_right hx hz (by decide)] at hneg
  | true =>
    rw [fAdd_of_isZero hz (by decide), negOf_pack _ _ (by norm_num), Bool.and_eq_true] at hneg
    exact hneg.1

/-- The high-pass with coefficient and state +0.0 gives `x + 0` and leaves its state (R213). -/
theorem filtHp_of_zero {t : Tunables} {c : Channel} (hcoef : t.coef = fZero) (hfs : c.fs = fZero) :
    filtHp t c x = (fAdd x fZero, c) := by
  have hy : fMul (fSub fOne t.coef) (fAdd x c.fs) = fAdd x fZero := by
    rw [hcoef, hfs, show fSub fOne fZero = fOne by decide +kernel]
    exact fMul_fOne_left (fAdd_fZero_keeps_value hx).1
  rw [filtHp, hy, fSub_fAdd_fZero_self hx, ← hfs]

/-- The low-pass with coefficient and state +0.0 gives +0.0 and leaves its state (R212). -/
theorem filtLp_of_zero {t : Tunables} {c : Channel} (hcoef : t.coef = fZero) (hfs : c.fs = fZero) :
    filtLp t c x = (fZero, c) := by
  have hm : isZero (fMul t.coef (fSub x c.fs)) = true := by
    rw [hcoef, hfs]
    exact isZero_fMul (by decide) (isFinite_fSub_fZero hx) (.inl (by decide))
  have hy : fAdd c.fs (fMul t.coef (fSub x c.fs)) = fZero := by
    rw [fAdd_of_isZero (by rw [hfs]; decide) hm, hfs]
    rfl
  rw [filtLp, hy, ← hfs]

end

/-- Settles O41, from each filter's result. -/
theorem zeroCoefficientFilters : Obligations.ZeroCoefficientFilters := by
  intro t c x hx hcoef hfs
  rw [filtHp_of_zero hx hcoef hfs, filtLp_of_zero hx hcoef hfs]
  obtain ⟨hf, hs⟩ := fAdd_fZero_keeps_value hx
  exact ⟨hf, hs, rfl, rfl, rfl⟩

/-! ### Roundings above a bound -/

section
variable {num : Int} {den : Nat} {r : F32}

/-- A rounding does not make a number negative. -/
theorem Rounds.scaled_nonneg (hd : 0 < den) (h : Rounds num den r) (h0 : 0 ≤ num) :
    0 ≤ scaled r := by
  rcases eq_or_ne num 0 with rfl | hne
  · have hexact := h.exact (k := 0) hd (by norm_num [infMag]) (by simp [magValue])
    have hzero : scaled r = 0 := by simpa [hd.ne'] using hexact.2
    exact hzero.ge
  · have hneg : negOf r = false := by
      rw [Bool.eq_false_iff, Ne, h.negOf_iff hne]
      omega
    rw [scaled_eq_signed, hneg, signed_false]
    exact Int.natCast_nonneg _

/-- Up to 2^24 places of 2^(j + 1) units a rounding moves a value by half a place at most. -/
theorem Rounds.error_le_half_place {j : Nat} (hj : j < 252) (h : Rounds num 1 r)
    (hf : isFinite r = true) (h0 : 0 ≤ num) (h1 : num ≤ 2 ^ 24 * 2 ^ (j + 1)) :
    |scaled r - num| ≤ 2 ^ j := by
  obtain ⟨n, rfl⟩ := Int.eq_ofNat_of_zero_le h0
  have hp : 0 < 2 ^ (j + 1) := Nat.two_pow_pos (j + 1)
  have hplace : 2 ^ (j + 1) = 2 * 2 ^ j := Nat.pow_succ'
  have hsplit := Nat.div_add_mod' (n + 2 ^ j) (2 ^ (j + 1))
  have hrem := Nat.mod_lt (n + 2 ^ j) hp
  have ha : (n + 2 ^ j) / 2 ^ (j + 1) ≤ 2 ^ 24 := by
    rw [← Nat.lt_add_one_iff, Nat.div_lt_iff_lt_mul hp]
    have hn : n ≤ 2 ^ 24 * 2 ^ (j + 1) := by exact_mod_cast h1
    omega
  obtain ⟨k, hk⟩ := exists_magValue_eq _ (j + 1) ha
  have hlt : k < infMag := by
    rw [← magValue_strictMono.lt_iff_lt, hk, magValue_infMag]
    have hpow : 2 ^ (j + 1) ≤ 2 ^ 252 := Nat.pow_le_pow_right (by norm_num) (by omega)
    have hmul := Nat.mul_le_mul ha hpow
    omega
  have hk31 : k < 2 ^ 31 := hlt.trans (by norm_num [infMag])
  obtain ⟨-, hnear⟩ := h.nearestEven Nat.one_pos hf
  obtain ⟨hle, -⟩ := hnear (pack false k) ((isFinite_iff _).2 (by rwa [magOf_pack _ _ hk31]))
  rw [scaled_pack _ hk31, hk, signed_false, Nat.cast_one, mul_one, mul_one] at hle
  have hgap : |(((n + 2 ^ j) / 2 ^ (j + 1) * 2 ^ (j + 1) : Nat) : Int) - n|
      ≤ ((2 ^ j : Nat) : Int) := by
    rw [Int.abs_eq_natAbs]
    omega
  exact_mod_cast hle.trans hgap

/-- What lies below the midpoint of 1.0 and the number before it rounds to less than 1.0. -/
theorem Rounds.scaled_lt_fOne (hd : 0 < den) (h : Rounds num den r) (h0 : 0 ≤ num)
    (hlt : 2 * num < (2 ^ 150 - 2 ^ 125) * den) : isFinite r = true ∧ scaled r < scaled fOne := by
  obtain ⟨hf, -, hle⟩ := h.within (x := fZero) (y := fOne) hd (by decide) (by decide)
    (by rw [scaled_fZero]; omega) (by rw [scaled_fOne]; omega)
  refine ⟨hf, lt_of_le_of_ne hle fun hone => ?_⟩
  have hpred : scaled ⟨0x3F7FFFFF#32⟩ = 2 ^ 149 - 2 ^ 125 := by decide +kernel
  obtain ⟨-, hnear⟩ := h.nearestEven hd hf
  obtain ⟨hdist, -⟩ := hnear ⟨0x3F7FFFFF#32⟩ (by decide)
  rw [hone, scaled_fOne, hpred, Int.abs_eq_natAbs, Int.abs_eq_natAbs] at hdist
  omega

end

/-! ### The coefficient of a cutoff -/

theorem sign_and_magnitude_of_scaled_pos {x : F32} (h : 0 < scaled x) :
    negOf x = false ∧ (scaledMag x : Int) = scaled x := by
  rw [scaled_eq_signed] at h ⊢
  cases hneg : negOf x with
  | false => exact ⟨rfl, rfl⟩
  | true => rw [hneg, signed_true] at h; omega

theorem scaled_f8388608 : scaled f8388608 = 2 ^ 23 * 2 ^ 149 := by decide +kernel

/-- A number that is not negative and whose value is at most 2^23 gains at least one half, and at most three
halves, from the addition of 1.0. -/
theorem fAdd_fOne_bounds {t : F32} (h : Within 0 (2 ^ 23 * 2 ^ 149) t) :
    isFinite (fAdd t fOne) = true ∧ scaled t + 2 ^ 148 ≤ scaled (fAdd t fOne) ∧
      scaled (fAdd t fOne) ≤ scaled t + 2 ^ 149 + 2 ^ 148 := by
  obtain ⟨hf, hlo, hhi⟩ := h
  have hr := rounds_fAdd hf (y := fOne) (by decide)
  rw [scaled_fOne] at hr
  have htop : scaled ⟨0x4B800000#32⟩ = 2 ^ 24 * 2 ^ 149 := by decide +kernel
  obtain ⟨hfin, -, -⟩ := hr.within (x := fZero) (y := ⟨0x4B800000#32⟩) Nat.one_pos (by decide)
    (by decide) (by rw [scaled_fZero]; omega) (by rw [htop]; omega)
  have herr := abs_le.1 (hr.error_le_half_place (j := 148) (by norm_num) hfin (by omega) (by omega))
  exact ⟨hfin, by omega, by omega⟩

/-- The quotient `t / (t + 1)` as R215 rounds it lies in [0, 1) for a `t` up to 2^23: the sum exceeds `t` by
more than 2^-25 of itself, half the spacing just below 1.0. -/
theorem fDiv_fAdd_fOne_bounds {t : F32} (h : Within 0 (2 ^ 23 * 2 ^ 149) t) :
    isFinite (fDiv t (fAdd t fOne)) = true ∧ scaled fZero ≤ scaled (fDiv t (fAdd t fOne)) ∧
      scaled (fDiv t (fAdd t fOne)) < scaled fOne := by
  obtain ⟨hden, hlo, hhi⟩ := fAdd_fOne_bounds h
  obtain ⟨hf, h0, h1⟩ := h
  obtain ⟨hneg, hmag⟩ := sign_and_magnitude_of_scaled_pos (x := fAdd t fOne) (by omega)
  have hd : 0 < scaledMag (fAdd t fOne) := by omega
  have hr := rounds_fDiv_of_pos hf hden ((scaledMag_pos_iff _).1 hd) hneg
  obtain ⟨hfin, hlt⟩ := hr.scaled_lt_fOne hd (by omega) (by omega)
  exact ⟨hfin, scaled_fZero.symm ▸ hr.scaled_nonneg hd (by omega), hlt⟩

/-- The product of a legal constant and a cutoff that compares at most 2^23 has a value in [0, 2^23]. -/
theorem within_fMul_of_cutoffOk {k v : F32} (hk : positiveOk k = true) (hv : cutoffOk v = true)
    (hle : fLe (fMul k v) f8388608 = true) : Within 0 (2 ^ 23 * 2 ^ 149) (fMul k v) := by
  obtain ⟨fk, hk⟩ := Bool.and_eq_true_iff.1 hk
  obtain ⟨fv, hv⟩ := Bool.and_eq_true_iff.1 hv
  obtain ⟨-, -, hk⟩ := (fLt_iff _ _).1 hk
  obtain ⟨-, -, hv⟩ := (fLe_iff _ _).1 hv
  rw [scaled_fZero] at hk hv
  have hlo := (rounds_fMul fk fv).scaled_nonneg (by positivity) (mul_nonneg hk.le hv)
  have hzero : fLe fZero (fMul k v) = true :=
    (fLe_iff _ _).2 ⟨by decide, ((fLe_iff _ _).1 hle).1, by rwa [scaled_fZero]⟩
  have hw := (within_iff (by decide) (by decide)).1 ⟨hzero, hle⟩
  rwa [scaled_fZero, scaled_f8388608] at hw

/-- Settles O42, from the bounds of the quotient. -/
theorem cutoffCoefficientIsBelowOne : Obligations.CutoffCoefficientIsBelowOne := by
  intro k fc hk hfc hle
  obtain ⟨hfin, hlo, hhi⟩ := fDiv_fAdd_fOne_bounds (within_fMul_of_cutoffOk hk hfc hle)
  have hn := not_isNaN_of_isFinite hfin
  exact ⟨(compare_iff (by decide) hn).2.2 hlo, (compare_iff hn (by decide)).1.2 hhi⟩

/-- Refutes O43: with the test configuration and a cutoff of 2^127 the product is so large that adding 1.0
rounds back to it, and the coefficient is 1.0 (notes/assumptions/12.md). -/
theorem not_cutoffCoefficientIsBelowOneForEveryCutoff :
    ¬ Obligations.CutoffCoefficientIsBelowOneForEveryCutoff := by
  intro h
  have hone : cutoffCoef testCfg ⟨0x7F000000#32⟩ = fOne := by decide +kernel
  obtain ⟨-, hlt⟩ := h testCfg ⟨0x7F000000#32⟩ testCfg_wellFormed (by decide)
  rw [hone] at hlt
  exact absurd hlt (by decide)

end Sys2Proof.Proofs
end

section
/-! The words of an opcode as arithmetic (30_encoding.md R102, R104, R105): what the decoder answers on each
word of format Z and of format P. -/

namespace Sys2Proof.Proofs

open Sys2Proof.Machine Sys2Proof.Laws Sys2Proof.Safety

theorem whenClear_eq_ite {clear : Bool} {p : Prop} [Decidable p] (h : clear = true ↔ p) (i : Instr) :
    whenClear clear i = if p then .ok i else .error .reservedBits := by
  simp only [whenClear, h]

theorem formatZ_iff (w : Word) : formatZ w = true ↔ w.toNat % 2 ^ 28 = 0 := by
  rw [formatZ, field_clear_iff, pow_zero, Nat.div_one]

theorem formatP_iff (w : Word) :
    formatP w = true ↔ w.toNat / 2 ^ 24 % 16 = 0 ∧ w.toNat / 2 ^ 12 % 16 = 0 := by
  rw [formatP, Bool.and_eq_true, field_clear_iff, field_clear_iff]
  rfl

/-- A field is the number that its bits of the word spell (00_scope.md R11). -/
theorem field_eq_ofNat (w : Word) (lo n : Nat) :
    field w lo n = BitVec.ofNat n (w.toNat / 2 ^ lo % 2 ^ n) :=
  field_eq_of_toNat (by rw [BitVec.toNat_ofNat, Nat.mod_mod])

/-- An opcode whose arm of the decoder is one format Z instruction (R102). -/
theorem zWords_of_arm {op : Nat} {i : Instr}
    (h : ∀ w, (opField w).toNat = op → decode w = whenClear (formatZ w) i) : ZWords op i :=
  fun w hop => (h w ((toNat_opField w).trans hop)).trans (whenClear_eq_ite (formatZ_iff w) i)

/-- An opcode whose arm of the decoder reads GROUP and RAW (R104). -/
theorem pWords_of_arm {op : Nat} {i : BitVec 8 → BitVec 12 → Instr}
    (h : ∀ w, (opField w).toNat = op →
      decode w = whenClear (formatP w) (i (groupField w) (rawField w))) : PWords op i := by
  intro w hop
  have hgroup : groupField w = BitVec.ofNat 8 (w.toNat / 2 ^ 16 % 256) := field_eq_ofNat w 16 8
  have hraw : rawField w = BitVec.ofNat 12 (w.toNat % 4096) := by
    rw [rawField, field_eq_ofNat, pow_zero, Nat.div_one]
    rfl
  rw [h w ((toNat_opField w).trans hop), whenClear_eq_ite (formatP_iff w), hgroup, hraw]

end Sys2Proof.Proofs
end

section
/-! Instrument parameters and volume (43_instrument_params.md R230 to R232): the next state of `SET_VOLUME`
and of `SET_PARAM` in each way they end, and a knob at 0. -/

namespace Sys2Proof.Proofs

open Sys2Proof.Machine Sys2Proof.Laws Sys2Proof.Safety

/-! ### The next states -/

section
variable {s : State}

theorem execSetVolume_of_finite (h : isFinite ⟨s.arg⟩ = true) : execSetVolume s =
    .next (withStatus (withVol s ⟨s.arg⟩) (resultWord (liveVoices s) 0 true)) := by
  rcases execSetVolume_cases s with ⟨hno, -⟩ | ⟨-, hx⟩
  · exact absurd (hno.symm.trans h) (by decide)
  · rw [hx, statusWrite_eq_withStatus]
    rfl

theorem execSetVolume_of_not_finite (h : isFinite ⟨s.arg⟩ = false) : execSetVolume s =
    .next (withStatus s (resultWord (liveVoices s) 4 false)) := by
  rcases execSetVolume_cases s with ⟨-, hx⟩ | ⟨hyes, -⟩
  · rw [hx, statusWrite_eq_withStatus]
    rfl
  · exact absurd (hyes.symm.trans h) (by decide)

variable {group : BitVec 8} (raw : BitVec 12)

theorem execSetParam_of_knob {kn : KnobDesc} {t : Tunables}
    (hkn : s.cfg.knobs[group.toNat]? = some kn) (ht : s.inst[kn.instr]? = some t) :
    execSetParam group raw s = .next (withStatus
      (withInst s (s.inst.set kn.instr (setTunable s.cfg kn.tunable (knobValue kn raw) t)))
      (resultWord (liveVoices s) 0 true)) := by
  rcases execSetParam_cases group raw s with ⟨hnone, -⟩ | ⟨kn', hsome, hx⟩
  · rw [hkn] at hnone
    cases hnone
  · obtain rfl : kn = kn' := Option.some.inj (hkn.symm.trans hsome)
    rw [hx, statusWrite_eq_withStatus, modifyInst_of_getElem? ht]
    rfl

theorem execSetParam_of_no_knob (h : s.cfg.nKnob ≤ group.toNat) :
    execSetParam group raw s = .next (withStatus s (resultWord (liveVoices s) 4 false)) := by
  have hout : s.cfg.knobs[group.toNat]? = none := List.getElem?_eq_none h
  rcases execSetParam_cases group raw s with ⟨-, hx⟩ | ⟨kn, hsome, -⟩
  · rw [hx, statusWrite_eq_withStatus]
    rfl
  · rw [hout] at hsome
    cases hsome

end

/-- Settles O26: opcode 5's arm of the decoder, then the two ways the command ends. -/
theorem setVolumeTakesAnyFiniteGain : Obligations.SetVolumeTakesAnyFiniteGain :=
  ⟨zWords_of_arm fun w hop => by simp only [decode, hop],
    fun _ => ⟨execSetVolume_of_finite, execSetVolume_of_not_finite⟩⟩

/-- Settles O27: opcode 6's arm of the decoder, then the two ways the command ends; a knob's kind says which
tunable is written. -/
theorem setParamWritesOneTunable : Obligations.SetParamWritesOneTunable := by
  refine ⟨pWords_of_arm fun w hop => by simp only [decode, hop], fun s group raw => ⟨?_, ?_⟩⟩
  · rintro kn t v tt hkn ht rfl rfl
    refine (execSetParam_of_knob raw hkn ht).trans ?_
    cases kn.tunable with
    | cutoff | duty | depth => rfl
  · exact execSetParam_of_no_knob raw

/-! ### A knob at 0 -/

/-- Adding a zero of either sign keeps every finite value; only a zero's sign can change. -/
theorem fAdd_isZero_keeps_value {x z : F32} (hx : isFinite x = true) (hz : isZero z = true) :
    isFinite (fAdd x z) = true ∧ scaled (fAdd x z) = scaled x := by
  have h := rounds_fAdd hx (isFinite_of_isZero hz)
  rw [(scaled_eq_zero_iff z).2 hz, add_zero] at h
  exact h.keeps_value hx

theorem isZero_knobFraction_zero : isZero (fDiv (fOfNat (0#12).toNat) f4095) = true := by
  decide +kernel

/-- Settles O28: the fraction is a zero, so a finite span times it is a zero, and adding that to `lo` keeps
its value. -/
theorem knobAtZeroGivesLo : Obligations.KnobAtZeroGivesLo := by
  intro kn hlo hspan
  have hfraction := isZero_knobFraction_zero
  have hstep := isZero_fMul hspan (isFinite_of_isZero hfraction) (.inr hfraction)
  exact fAdd_isZero_keeps_value hlo hstep

end Sys2Proof.Proofs
end

section
/-! The voice pool's commands (44_voice_pool_mixer.md R250 to R254): which words they have, how many voices
they leave live, and the next state of each in every way it ends. -/

namespace Sys2Proof.Proofs

open Sys2Proof.Machine Sys2Proof.Laws Sys2Proof.Safety

/-! ### The words of format N -/

theorem formatN_iff (w : Word) : formatN w = true ↔ w.toNat / 2 ^ 16 % 2 ^ 12 = 0 := by
  rw [formatN, field_clear_iff]

/-- An opcode whose arm of the decoder reads NOTE and INSTR (30_encoding.md R103). -/
theorem nWords_of_arm {op : Nat} {i : BitVec 8 → BitVec 8 → Instr}
    (h : ∀ w, (opField w).toNat = op →
      decode w = whenClear (formatN w) (i (noteField w) (instrField w))) : NWords op i := by
  intro w hop
  have hinstr : instrField w = BitVec.ofNat 8 (w.toNat / 256 % 256) := field_eq_ofNat w 8 8
  have hnote : noteField w = BitVec.ofNat 8 (w.toNat % 256) := by
    rw [noteField, field_eq_ofNat, pow_zero, Nat.div_one]
    rfl
  rw [h w ((toNat_opField w).trans hop), whenClear_eq_ite (formatN_iff w), hinstr, hnote]

/-! ### The number of live voices -/

section
variable {s : State}

theorem liveVoices_of_dead (h : ∀ c ∈ s.ch, c.live = false) : liveVoices s = 0 := by
  rw [liveVoices, List.length_eq_zero_iff, List.filter_eq_nil_iff]
  exact fun c hc => by simp [h c hc]

theorem liveVoices_of_live (h : ∀ c ∈ s.ch, c.live = true) : liveVoices s = s.ch.length := by
  rw [liveVoices, List.filter_eq_self.2 h]

/-- Setting one channel trades its part in the count for that of the channel it held. -/
theorem liveVoices_set {i : Nat} {c : Channel} (h : s.ch[i]? = some c) (b : Channel) :
    liveVoices (withCh s (s.ch.set i b)) + c.live.toNat = liveVoices s + b.live.toNat := by
  obtain ⟨hi, rfl⟩ := List.getElem?_eq_some_iff.1 h
  have hle := List.boole_getElem_le_countP (p := fun x => x.live) hi
  have hset := List.countP_set (p := fun x => x.live) (a := b) hi
  have htoNat (x : Channel) : x.live.toNat = if x.live = true then 1 else 0 := by
    cases x.live <;> rfl
  rw [liveVoices_eq, liveVoices_eq, liveCount, liveCount, withCh_ch, hset, htoNat, htoNat]
  omega

/-- The status write of a success with no live voice (10_state.md R33). -/
theorem statusWrite_ok_of_dead (h : ∀ c ∈ s.ch, c.live = false) :
    statusWrite s true .ok = withStatus s 0x00000001#32 := by
  rw [statusWrite_eq_withStatus, liveVoices_of_dead h]
  rfl

end

/-! ### INIT and KILL -/

/-- Settles O16: opcode 1's arm of the decoder; the channels `INIT` leaves are Dead, so its status is that
of reset; and the step that takes a reset. -/
theorem initGivesTheResetStateButTwoRegisters :
    Obligations.InitGivesTheResetStateButTwoRegisters := by
  refine ⟨zWords_of_arm fun w hop => by simp only [decode, hop], fun s => ?_,
    fun s rest hw hp => ?_⟩
  · exact congrArg Host.Outcome.next
      (statusWrite_ok_of_dead fun c hc => resetOf_dead (k := s.cfg) hc)
  · rw [step_of_pending hw hp]
    rfl

/-- Settles O23: opcode 4's arm of the decoder; the channels `KILL` leaves are Dead. -/
theorem killOnlyClearsLive : Obligations.KillOnlyClearsLive := by
  refine ⟨zWords_of_arm fun w hop => by simp only [decode, hop], fun s => ?_⟩
  refine congrArg Host.Outcome.next (statusWrite_ok_of_dead fun c hc => ?_)
  obtain ⟨b, -, rfl⟩ := List.mem_map.1 hc
  rfl

/-! ### The operands -/

/-- The pair a note command names exists (30_encoding.md R106). -/
theorem pairOk_iff (k : Cfg) (note instr : BitVec 8) :
    (noteOk note && instrOk k instr) = true ↔ note.toNat ≤ 127 ∧ instr.toNat < k.nInstr := by
  simp [noteOk, instrOk]

theorem velocityOk_iff (a : F32) :
    velocityOk a = true ↔ fLe fZero a = true ∧ fLe a fOne = true := Bool.and_eq_true_iff

/-- The checks of `NOTE_ON` before it looks for a channel (R251, 60_exceptions.md R304). -/
theorem noteOnOperandsOk_iff (s : State) (note instr : BitVec 8) :
    (noteOk note && instrOk s.cfg instr && velocityOk (floatOperand s.arg)) = true ↔
      (note.toNat ≤ 127 ∧ instr.toNat < s.cfg.nInstr) ∧
        fLe fZero ⟨s.arg⟩ = true ∧ fLe ⟨s.arg⟩ fOne = true := by
  rw [Bool.and_eq_true, pairOk_iff, velocityOk_iff]
  rfl

/-! ### NOTE_ON -/

section
variable {s : State} {note instr : BitVec 8}

theorem execNoteOn_of_badOperand
    (h : ¬ ((note.toNat ≤ 127 ∧ instr.toNat < s.cfg.nInstr) ∧
      fLe fZero ⟨s.arg⟩ = true ∧ fLe ⟨s.arg⟩ fOne = true)) :
    execNoteOn note instr s = .next (withStatus s (resultWord (liveVoices s) 4 false)) := by
  rw [execNoteOn, if_neg (mt (noteOnOperandsOk_iff s note instr).1 h)]
  exact congrArg Host.Outcome.next (statusWrite_eq_withStatus s false .badOperand)

variable (hpair : note.toNat ≤ 127 ∧ instr.toNat < s.cfg.nInstr)
  (hvel : fLe fZero ⟨s.arg⟩ = true ∧ fLe ⟨s.arg⟩ fOne = true)
include hpair hvel

theorem execNoteOn_of_full (hfull : ∀ c ∈ s.ch, c.live = true) :
    execNoteOn note instr s = .next (withStatus s (resultWord s.ch.length 1 false)) := by
  have hok := (noteOnOperandsOk_iff s note instr).2 ⟨hpair, hvel⟩
  rw [execNoteOn, if_pos hok, firstDead_eq_none.2 hfull, ← liveVoices_of_live hfull]
  exact congrArg Host.Outcome.next (statusWrite_eq_withStatus s false .poolExhausted)

/-- `NOTE_ON` binds the lowest Dead channel, which is one more voice (R251). -/
theorem execNoteOn_of_dead {i : Nat} {c : Channel} (hc : s.ch[i]? = some c) (hdead : c.live = false)
    (hlow : ∀ j < i, ∀ b, s.ch[j]? = some b → b.live = true) :
    execNoteOn note instr s = .next (withStatus
      (withCh s (s.ch.set i (chInit s.cfg s.inst note instr ⟨s.arg⟩ c)))
      (resultWord (liveVoices s + 1) 0 true)) := by
  have hok := (noteOnOperandsOk_iff s note instr).2 ⟨hpair, hvel⟩
  have hfirst : firstDead s = some i := by
    obtain ⟨hi, rfl⟩ := List.getElem?_eq_some_iff.1 hc
    exact firstDead_eq_some.2
      ⟨hi, hdead, fun j hj => hlow j hj _ (List.getElem?_eq_getElem (hj.trans hi))⟩
  have hlive := liveVoices_set hc (chInit s.cfg s.inst note instr ⟨s.arg⟩ c)
  rw [hdead] at hlive
  rw [execNoteOn, if_pos hok, hfirst, ← show _ = liveVoices s + 1 from hlive]
  simp only [modifyChannel_of_getElem? hc, succeed_eq, statusWrite_eq_withStatus]
  rfl

end

/-- `ch_init` field by field (R252): the binding, then what `env_init` (40_envelope.md R142), `osc_init`
(41_oscillator.md R187) and the filter's start (42_filter.md R217) give, whatever the channel held. -/
theorem chInit_eq {k : Cfg} {inst : List Tunables} {instr : BitVec 8} {d : InstrDesc} {t : Tunables}
    (hd : k.instrs[instr.toNat]? = some d) (ht : inst[instr.toNat]? = some t) (note : BitVec 8)
    (v : F32) (c : Channel) : chInit k inst note instr v c =
      { live := true, released := false, note := BitVec.ofNat 7 note.toNat, instr := instr,
        vel := v, mode := .attack, val := ⟨0#32⟩, tgt := ⟨0x3FCA7E36#32⟩,
        phi := ⟨0#32⟩, p1 := ⟨0#32⟩, lphi := ⟨0#32⟩, lp := ⟨0#32⟩,
        p2 := if d.osc = .pulse then sq (wrap (fAdd fZero (fMul fTwo t.duty))) else ⟨0#32⟩,
        nz := k.noiseSeed, fs := ⟨0#32⟩ } := by
  have hdesc : instrDesc k instr = d := by simp [instrDesc, hd]
  have htun : tunablesOf inst instr = t := by simp [tunablesOf, ht]
  rw [chInit, hdesc, htun, BitVec.ofNat_toNat]
  rfl

/-- Settles O20: opcode 2's arm of the decoder, then the binding of the lowest Dead channel. -/
theorem noteOnBindsTheFirstDeadChannel : Obligations.NoteOnBindsTheFirstDeadChannel := by
  refine ⟨nWords_of_arm fun w hop => by simp only [decode, hop], ?_⟩
  intro s note instr d t i c hnote hd ht hlo hhi hc hdead hlow
  have hinstr : instr.toNat < s.cfg.nInstr := (List.getElem?_eq_some_iff.1 hd).1
  rw [← chInit_eq hd ht note _ c]
  exact execNoteOn_of_dead ⟨hnote, hinstr⟩ ⟨hlo, hhi⟩ hc hdead hlow

/-- Settles O21: an operand out of range, the velocity's range being that of its value, and a full pool. -/
theorem noteOnFailsWithoutTouchingAVoice : Obligations.NoteOnFailsWithoutTouchingAVoice := by
  refine fun s note instr => ⟨fun hbad => execNoteOn_of_badOperand ?_,
    fun hvel => execNoteOn_of_badOperand ?_,
    fun hnote hinstr hlo hhi => execNoteOn_of_full ⟨hnote, hinstr⟩ ⟨hlo, hhi⟩⟩
  · rintro ⟨⟨hnote, hinstr⟩, hok⟩
    rcases hbad with hnote' | hinstr' | hvel
    · exact absurd hnote (not_le.2 hnote')
    · exact absurd hinstr (not_lt.2 hinstr')
    · exact hvel hok
  · rintro ⟨-, hok⟩
    obtain ⟨hfin, hlo, hhi⟩ := (within_unit_iff _).1 hok
    rcases hvel with hinf | hneg | hbig
    · exact absurd hinf (by simp [hfin])
    · exact absurd hlo (not_le.2 hneg)
    · exact absurd hhi (not_le.2 (by rwa [one_mul] at hbig))

/-! ### NOTE_OFF -/

section
variable {s : State} {note instr : BitVec 8}

theorem execNoteOff_of_badOperand (h : ¬ (note.toNat ≤ 127 ∧ instr.toNat < s.cfg.nInstr)) :
    execNoteOff note instr s = .next (withStatus s (resultWord (liveVoices s) 4 false)) := by
  rw [execNoteOff, if_neg (mt (pairOk_iff s.cfg note instr).1 h)]
  exact congrArg Host.Outcome.next (statusWrite_eq_withStatus s false .badOperand)

variable (hpair : note.toNat ≤ 127 ∧ instr.toNat < s.cfg.nInstr)
include hpair

theorem execNoteOff_of_no_match (hnone : ∀ b ∈ s.ch, ¬ matchesPair note instr b = true) :
    execNoteOff note instr s = .next (withStatus s (resultWord (liveVoices s) 2 false)) := by
  have hscan : firstMatch s note instr = none :=
    firstMatch_eq_none.2 fun b hb => Bool.eq_false_iff.2 (hnone b hb)
  rw [execNoteOff, if_pos ((pairOk_iff s.cfg note instr).2 hpair), hscan]
  exact congrArg Host.Outcome.next (statusWrite_eq_withStatus s false .noMatch)

/-- `NOTE_OFF` marks the lowest match, which stays live (R253). -/
theorem execNoteOff_of_match {i : Nat} {c : Channel} (hc : s.ch[i]? = some c)
    (hm : matchesPair note instr c = true)
    (hlow : ∀ j < i, ∀ b, s.ch[j]? = some b → ¬ matchesPair note instr b = true) :
    execNoteOff note instr s = .next (withStatus
      (withCh s (s.ch.set i { c with released := true })) (resultWord (liveVoices s) 0 true)) := by
  have hscan : firstMatch s note instr = some i := by
    obtain ⟨hi, rfl⟩ := List.getElem?_eq_some_iff.1 hc
    exact firstMatch_eq_some.2
      ⟨hi, hm, fun j hj => hlow j hj _ (List.getElem?_eq_getElem (hj.trans hi))⟩
  have hlive := Nat.add_right_cancel (liveVoices_set hc { c with released := true })
  rw [execNoteOff, if_pos ((pairOk_iff s.cfg note instr).2 hpair), hscan, ← hlive]
  simp only [modifyChannel_of_getElem? hc, succeed_eq, statusWrite_eq_withStatus]
  rfl

end

/-- Settles O22: opcode 3's arm of the decoder, then the three ways the command ends, a match being what the
scan looks for. -/
theorem noteOffReleasesTheFirstMatch : Obligations.NoteOffReleasesTheFirstMatch := by
  refine ⟨nWords_of_arm fun w hop => by simp only [decode, hop], fun s note instr => ?_⟩
  simp only [← matchesPair_iff]
  refine ⟨fun i c hnote hinstr hc hlive hrel hn hi hlow => ?_,
    fun hnote hinstr => execNoteOff_of_no_match ⟨hnote, hinstr⟩,
    fun hbad => execNoteOff_of_badOperand fun ⟨hnote, hinstr⟩ => by omega⟩
  exact execNoteOff_of_match ⟨hnote, hinstr⟩ hc (matchesPair_iff.2 ⟨hlive, hrel, hn, hi⟩) hlow

end Sys2Proof.Proofs
end

section
/-! `SAMPLE` (44_voice_pool_mixer.md R255 to R259): the pass over the channels is a map and a sum of terms,
and a sum of none is 0 at every volume. -/

namespace Sys2Proof.Proofs

open Sys2Proof.Machine Sys2Proof.Laws Sys2Proof.Safety

/-! ### The pass -/

section
variable (s : State) {c : Channel}

/-- The rule's evaluation of a voice and the model's are one (R256). -/
theorem voiceChain_eq (c : Channel) : voiceChain s c = ((voiceEval s.cfg s.inst c).x,
    (voiceEval s.cfg s.inst c).lv, (voiceEval s.cfg s.inst c).c) := rfl

theorem afterSample_of_dead (h : c.live = false) : afterSample s c = c := by
  simp [afterSample, h]

/-- What a channel's turn leaves of it (R255, R257). -/
theorem channelTurn_snd_eq_afterSample (c : Channel) :
    (channelTurn s.cfg s.inst fZero c).2 = afterSample s c := by
  cases hl : c.live with
  | false => rw [channelTurn_of_dead _ _ _ hl, afterSample_of_dead s hl]
  | true => rw [channelTurn_of_live _ _ _ hl, afterSample, if_pos hl, voiceChain_eq]

theorem sampleTerm_of_dead (h : c.live = false) : sampleTerm s c = none := by
  simp [sampleTerm, h]

/-- What a channel's turn does to the sum: it adds the channel's term, if it has one (R257, R258). -/
theorem channelTurn_fst_eq_add_term (acc : F32) (c : Channel) :
    (channelTurn s.cfg s.inst acc c).1 = (sampleTerm s c).elim acc (fAdd acc) := by
  cases hl : c.live with
  | false => simp [channelTurn, sampleTerm_of_dead s hl, hl]
  | true =>
    by_cases hk : (voiceEval s.cfg s.inst c).c.mode = .killed
    · simp [channelTurn, sampleTerm, voiceChain_eq, hl, hk]
    · simp [channelTurn, sampleTerm, voiceChain_eq, hl, hk]

/-- The pass sums the terms in ascending channel order (R258). -/
theorem mixPass_fst_eq_sum (acc : F32) (cs : List Channel) :
    (mixPass s.cfg s.inst acc cs).1 = (cs.filterMap (sampleTerm s)).foldl fAdd acc := by
  induction cs generalizing acc with
  | nil => rfl
  | cons c cs ih =>
    rw [mixPass, ih, channelTurn_fst_eq_add_term, List.filterMap_cons]
    cases sampleTerm s c with
    | none => rfl
    | some term => rfl

/-- The pass leaves each channel as the rule says (R255). -/
theorem mixPass_snd_eq_map (cs : List Channel) :
    (mixPass s.cfg s.inst fZero cs).2 = cs.map (afterSample s) := by
  rw [mixPass_snd]
  exact List.map_congr_left fun c _ => channelTurn_snd_eq_afterSample s c

/-- The next state of `SAMPLE` (R255). -/
theorem execSample_eq : execSample s = .next (withStatus
    (withOut (withCh s (s.ch.map (afterSample s))) (outWord (scaleSum s.cfg s.vol (sampleSum s))))
    (resultWord ((s.ch.map (afterSample s)).filter (·.live)).length 0 true)) := by
  rw [execSample, mixPass_snd_eq_map, mixPass_fst_eq_sum, succeed_eq, statusWrite_eq_withStatus]
  rfl

end

/-- Settles O29: opcode 7's arm of the decoder, then the pass as a map and a sum. -/
theorem sampleMixesTheLiveVoices : Obligations.SampleMixesTheLiveVoices :=
  ⟨zWords_of_arm fun w hop => by simp only [decode, hop], execSample_eq⟩

/-! ### A silent pool -/

/-- A product with a NaN or a zero on the left is one of the two, whatever the other operand: zero times an
infinity is a NaN (00_scope.md R12). -/
theorem isNaN_or_isZero_fMul {x : F32} (h : isNaN x = true ∨ isZero x = true) (y : F32) :
    isNaN (fMul x y) = true ∨ isZero (fMul x y) = true := by
  rw [isNaN_fMul_iff]
  rcases h with hn | hz
  · exact .inl (.inl hn)
  rcases kind_cases y with ⟨hf, -, -⟩ | ⟨-, hi, -⟩ | ⟨-, -, hn⟩
  · exact .inr (isZero_fMul (isFinite_of_isZero hz) hf (.inl hz))
  · exact .inl (.inr (.inr (.inr ⟨hz, hi⟩)))
  · exact .inl (.inr (.inl hn))

/-- `sat16` gives 0 for a NaN and for both zeros (00_scope.md R15). -/
theorem sat16_of_isNaN_or_isZero {y : F32} (h : isNaN y = true ∨ isZero y = true) :
    sat16 y = 0 := by
  have hint : sat16Int y = 0 := by
    rcases h with hn | hz
    · exact sat16Int_of_isNaN hn
    · have hs := (scaled_eq_zero_iff y).2 hz
      rw [sat16Int_of_between (not_isNaN_of_isFinite (isFinite_of_isZero hz)) (by omega) (by omega),
        hs, Int.zero_tdiv]
  rw [sat16, hint]
  rfl

/-- A sum of +0.0 shows as 0, whatever the volume and the headroom (R259). -/
theorem outWord_scaleSum_zero (k : Cfg) (vol : F32) : outWord (scaleSum k vol fZero) = 0 := by
  have hzero : isNaN fZero = true ∨ isZero fZero = true := .inr (by decide)
  rw [outWord, scaleSum, sat16_of_isNaN_or_isZero (isNaN_or_isZero_fMul
    (isNaN_or_isZero_fMul (isNaN_or_isZero_fMul hzero vol) k.headroom) fullScale)]
  rfl

section
variable {s : State} (h : ∀ c ∈ s.ch, c.live = false)
include h

theorem map_afterSample_of_dead : s.ch.map (afterSample s) = s.ch :=
  (List.map_congr_left fun c hc => afterSample_of_dead s (h c hc)).trans (List.map_id' s.ch)

theorem sampleSum_of_dead : sampleSum s = fZero := by
  rw [sampleSum, List.filterMap_eq_nil_iff.2 fun c hc => sampleTerm_of_dead s (h c hc)]
  rfl

end

/-- Settles O30: no channel changes or adds to the sum, and a sum of +0.0 shows as 0. -/
theorem sampleOfNoVoicesIsZero : Obligations.SampleOfNoVoicesIsZero := by
  intro s h
  have hcount : (s.ch.filter (·.live)).length = 0 := liveVoices_of_dead h
  refine (execSample_eq s).trans ?_
  rw [map_afterSample_of_dead h, sampleSum_of_dead h, outWord_scaleSum_zero, hcount]
  rfl

end Sys2Proof.Proofs
end

section
/-! Result codes (60_exceptions.md R301 to R304): the code each command ends with, the table of R303 read at
the command's own word, and the accesses that run no command. -/

namespace Sys2Proof.Proofs

open Sys2Proof.Machine Sys2Proof.Laws Sys2Proof.Safety

/-! ### The code a command ends with -/

/-- The code the command `i` ends with from `s`, its operands checked before the channels (R303, R304). -/
def endCode (s : State) : Instr → ResultCode
  | .init | .kill | .sample => .ok
  | .noteOn note instr =>
    if noteOk note && instrOk s.cfg instr && velocityOk (floatOperand s.arg) then
      if firstDead s = none then .poolExhausted else .ok
    else .badOperand
  | .noteOff note instr =>
    if noteOk note && instrOk s.cfg instr then
      if firstMatch s note instr = none then .noMatch else .ok
    else .badOperand
  | .setVolume => if gainOk (floatOperand s.arg) then .ok else .badOperand
  | .setParam group _ => if group.toNat < s.cfg.nKnob then .ok else .badOperand

/-- A command's outcome is one status write with this code, on a state `u` that keeps `ARG` and that is `s`
itself unless the code is OK (R302). -/
def EndsWith (s : State) (o : Host.Outcome State Fault Refusal) (code : ResultCode) : Prop :=
  ∃ u, o = .next (statusWrite u (decide (code = .ok)) code) ∧ u.arg = s.arg ∧ (code = .ok ∨ u = s)

section
variable {s : State} {o : Host.Outcome State Fault Refusal} {code : ResultCode}

theorem EndsWith.of_failure (h : o = .next (statusWrite s false code)) (hc : code ≠ .ok) :
    EndsWith s o code :=
  ⟨s, by simpa [hc] using h, rfl, .inr rfl⟩

theorem EndsWith.of_success {u : State} (h : o = .next (statusWrite u true .ok))
    (harg : u.arg = s.arg) : EndsWith s o .ok :=
  ⟨u, h, harg, .inl rfl⟩

end

/-- Each command ends with its code, checking everything before its first change (R302). -/
theorem exec_endsWith (i : Instr) (s : State) : EndsWith s (exec i s) (endCode s i) := by
  cases i with
  | init | kill | sample => exact .of_success rfl rfl
  | noteOn note instr =>
    rw [endCode]
    rcases execNoteOn_cases note instr s with ⟨hok, h⟩ | ⟨hok, hd, h⟩ | ⟨hok, n, hd, h⟩
    · rw [if_neg (Bool.eq_false_iff.1 hok)]
      exact .of_failure h (by decide)
    · rw [if_pos hok, if_pos hd]
      exact .of_failure h (by decide)
    · rw [if_pos hok, if_neg (by simp [hd])]
      exact .of_success h rfl
  | noteOff note instr =>
    rw [endCode]
    rcases execNoteOff_cases note instr s with ⟨hok, h⟩ | ⟨hok, hm, h⟩ | ⟨hok, n, hm, h⟩
    · rw [if_neg (Bool.eq_false_iff.1 hok)]
      exact .of_failure h (by decide)
    · rw [if_pos hok, if_pos hm]
      exact .of_failure h (by decide)
    · rw [if_pos hok, if_neg (by simp [hm])]
      exact .of_success h rfl
  | setVolume =>
    rw [endCode]
    rcases execSetVolume_cases s with ⟨hok, h⟩ | ⟨hok, h⟩
    · rw [if_neg (Bool.eq_false_iff.1 hok)]
      exact .of_failure h (by decide)
    · rw [if_pos hok]
      exact .of_success h rfl
  | setParam group raw =>
    rw [endCode]
    rcases execSetParam_cases group raw s with ⟨hkn, h⟩ | ⟨kn, hkn, h⟩
    · have hge : s.cfg.nKnob ≤ group.toNat := List.getElem?_eq_none_iff.1 hkn
      rw [if_neg (not_lt.2 hge)]
      exact .of_failure h (by decide)
    · have hlt : group.toNat < s.cfg.nKnob := (List.getElem?_eq_some_iff.1 hkn).1
      rw [if_pos hlt]
      exact .of_success h rfl

/-! ### The rows of R303's table -/

/-- Different instructions have different words (30_encoding.md R109). -/
theorem encode_inj {i j : Instr} : encode i = encode j ↔ i = j :=
  ⟨fun h => Except.ok.inj ((decode_encode i).symm.trans (h ▸ decode_encode j)), congrArg encode⟩

/-- The masks of R112 tell the words of `NOTE_ON`, `NOTE_OFF` and `SET_PARAM` from all others. -/
theorem noteOnWord_iff (i : Instr) :
    encode i &&& 0xFFFF0000#32 = 0x20000000#32 ↔ ∃ note instr, i = .noteOn note instr :=
  ⟨fun h => ⟨_, _, encode_inj.1 (encodeN_of_mask (op := 0x2#4) h).symm⟩,
    fun ⟨note, instr, h⟩ => h ▸ TableRow.noteOn note instr⟩

theorem noteOffWord_iff (i : Instr) :
    encode i &&& 0xFFFF0000#32 = 0x30000000#32 ↔ ∃ note instr, i = .noteOff note instr :=
  ⟨fun h => ⟨_, _, encode_inj.1 (encodeN_of_mask (op := 0x3#4) h).symm⟩,
    fun ⟨note, instr, h⟩ => h ▸ TableRow.noteOff note instr⟩

theorem setParamWord_iff (i : Instr) :
    encode i &&& 0xFF00F000#32 = 0x60000000#32 ↔ ∃ group raw, i = .setParam group raw :=
  ⟨fun h => ⟨_, _, encode_inj.1 (encodeP_of_mask (op := 0x6#4) h).symm⟩,
    fun ⟨group, raw, h⟩ => h ▸ TableRow.setParam group raw⟩

/-- The four words of format Z (30_encoding.md R102). -/
theorem formatZWord_iff (i : Instr) :
    (encode i = 0x10000000#32 ↔ i = .init) ∧ (encode i = 0x40000000#32 ↔ i = .kill) ∧
    (encode i = 0x50000000#32 ↔ i = .setVolume) ∧ (encode i = 0x70000000#32 ↔ i = .sample) :=
  ⟨encode_inj (j := .init), encode_inj (j := .kill), encode_inj (j := .setVolume),
    encode_inj (j := .sample)⟩

/-- The operands of a format N word as arithmetic (30_encoding.md R106). -/
theorem operands_encodeN (op : BitVec 4) (note instr : BitVec 8) :
    (encodeN op note instr).toNat % 256 = note.toNat ∧
    (encodeN op note instr).toNat / 256 % 256 = instr.toNat := by
  have hw := toNat_encodeN op note instr
  have hnote := note.isLt
  have hinstr := instr.isLt
  omega

/-- The knob number of a format P word as arithmetic (30_encoding.md R106). -/
theorem group_encodeP (op : BitVec 4) (group : BitVec 8) (raw : BitVec 12) :
    (encodeP op group raw).toNat / 65536 % 256 = group.toNat := by
  have hw := toNat_encodeP op group raw
  have hgroup := group.isLt
  have hraw := raw.isLt
  omega

/-- The table's pair of operands fails where the command's check does (30_encoding.md R106). -/
theorem badPair_encodeN (k : Cfg) (op : BitVec 4) (note instr : BitVec 8) :
    badPair k (encodeN op note instr) ↔ ¬ (noteOk note && instrOk k instr) = true := by
  obtain ⟨hnote, hinstr⟩ := operands_encodeN op note instr
  rw [badPair, hnote, hinstr, pairOk_iff]
  omega

/-- A channel answers the word where the scan of `NOTE_OFF` stops at it
(44_voice_pool_mixer.md R253). -/
theorem answers_encodeN (op : BitVec 4) (note instr : BitVec 8) (c : Channel) :
    answers (encodeN op note instr) c ↔ matchesPair note instr c = true := by
  obtain ⟨hnote, hinstr⟩ := operands_encodeN op note instr
  rw [answers, hnote, hinstr, matchesPair_iff, BitVec.toNat_inj]

/-- A Dead channel is what the scan of `NOTE_ON` finds (R303). -/
theorem exists_dead_iff (s : State) : (∃ c ∈ s.ch, c.live = false) ↔ ¬ firstDead s = none := by
  simp [firstDead_eq_none]

/-- `NO_MATCH` is what the scan of `NOTE_OFF` reports when it finds nothing (R303). -/
theorem no_match_iff (s : State) (note instr : BitVec 8) :
    (∀ c ∈ s.ch, ¬ matchesPair note instr c = true) ↔ firstMatch s note instr = none := by
  simp only [firstMatch_eq_none, Bool.not_eq_true]

theorem exists_match_iff (s : State) (note instr : BitVec 8) :
    (∃ c ∈ s.ch, matchesPair note instr c = true) ↔ ¬ firstMatch s note instr = none := by
  simp [firstMatch_eq_none]

/-- At the word of an instruction, R303's table holds for the code the instruction ends with and for no
other: one row of the table speaks of the word, and its conditions are the checks of the command. -/
theorem codeFor_encode_iff (s : State) (i : Instr) (code : ResultCode) :
    CodeFor s (encode i) code ↔ code = endCode s i := by
  have hlegal : legalWord (encode i) := (legalWord_iff _).2 ⟨i, rfl⟩
  obtain ⟨hinit, hkill, hvolume, hsample⟩ := formatZWord_iff i
  simp only [CodeFor, hlegal, hinit, hkill, hvolume, hsample, noteOnWord_iff, noteOffWord_iff,
    setParamWord_iff]
  cases i <;> simp only [reduceCtorEq, Instr.noteOn.injEq, Instr.noteOff.injEq,
    Instr.setParam.injEq, exists_and_left, exists_eq', exists_false, not_true, false_and, true_and,
    and_true, or_false, false_or, or_true]
  case init | kill | sample => exact Iff.rfl
  case noteOn note instr =>
    rw [endCode, eq_ite_iff, eq_ite_iff, noteOnOperandsOk_iff, encode, badPair_encodeN, pairOk_iff,
      ← firstDead_eq_none, exists_dead_iff, or_comm]
    simp only [not_not, ← not_and_or, and_assoc]
  case noteOff note instr =>
    simp only [endCode, eq_ite_iff, encode, badPair_encodeN, not_not, answers_encodeN,
      no_match_iff, exists_match_iff]
    exact or_comm
  case setVolume =>
    rw [endCode, eq_ite_iff, Bool.not_eq_true, or_comm]
    rfl
  case setParam group raw =>
    rw [endCode, eq_ite_iff, encode, group_encodeP, not_lt, or_comm]

/-- A word that is not legal meets R303's table with ILLEGAL alone: every other row asks for a legal word
(R304). -/
theorem codeFor_of_not_legalWord {w : Word} (h : ¬ legalWord w) (s : State) (code : ResultCode) :
    CodeFor s w code ↔ code = .illegal := by
  have hrows := h
  simp only [legalWord, not_or] at hrows
  obtain ⟨hinit, hnoteOn, hnoteOff, hkill, hvolume, hparam, hsample⟩ := hrows
  simp only [CodeFor, h, hinit, hnoteOn, hnoteOff, hkill, hvolume, hparam, hsample, not_false_eq_true,
    true_and, false_and, or_false]

/-! ### Every word -/

/-- Every word ends with a code, and R303's table holds for that code and for no other (R304). -/
theorem execute_endsWith (s : State) (w : Word) :
    ∃ code, EndsWith s (execute s w) code ∧ ∀ c, CodeFor s w c ↔ c = code := by
  by_cases hlegal : legalWord w
  · obtain ⟨i, rfl⟩ := (legalWord_iff w).1 hlegal
    refine ⟨endCode s i, ?_, codeFor_encode_iff s i⟩
    rw [execute, decode_encode]
    exact exec_endsWith i s
  · obtain ⟨e, he⟩ := exists_error_of_not_legalWord hlegal
    refine ⟨.illegal, .of_failure (by rw [execute, he, raiseError_eq]) (by decide),
      codeFor_of_not_legalWord hlegal s⟩

/-- What `STATUS` shows after a command (10_state.md R33). -/
theorem EndsWith.status {s t : State} {code : ResultCode} (h : EndsWith s (.next t) code) :
    t.status = resultWord (liveVoices t) code.value.toNat (decide (code = .ok)) := by
  obtain ⟨u, hu, -⟩ := h
  obtain rfl := Host.Outcome.next.inj hu
  exact statusWrite_status u _ code

/-- `STATUS.OK` is bit 0 (10_state.md R33). -/
theorem resultWord_mod_two (n code : Nat) (ok : Bool) :
    (resultWord n code ok).toNat % 2 = ok.toNat := by
  have hok := ok.toNat_le
  rw [resultWord, BitVec.toNat_ofNat]
  omega

/-- Settles O18: `OK` is 0 only where the code is not `OK`, and then the one status write is on the state
before the command. -/
theorem failedCommandsChangeOnlyStatus : Obligations.FailedCommandsChangeOnlyStatus := by
  intro s t w ht
  obtain ⟨code, hends, -⟩ := execute_endsWith s w
  rw [ht] at hends
  have hstatus := hends.status
  obtain ⟨u, hu, harg, hcode⟩ := hends
  obtain rfl := Host.Outcome.next.inj hu
  refine ⟨harg, ⟨code, hstatus⟩, fun hfail => ?_⟩
  rw [hstatus, resultWord_mod_two] at hfail
  rcases hcode with rfl | rfl
  · cases hfail
  · rfl

/-! ### Accesses that run no command -/

/-- `CMD` is the one register whose write runs a command (20_memory.md R76, R79). -/
theorem writeReg_status {s t : State} {v : Word} {r : HostReg} (hr : r ≠ .cmd)
    (h : writeReg s v r = .next t) : t.status = s.status := by
  cases r with
  | cmd => exact absurd rfl hr
  | arg | chanSel | status | out | chanInfo | config | chanEnv =>
    obtain rfl := Host.Outcome.next.inj h
    rfl

/-- A write that is not 32 bits wide at `CMD` runs no command (20_memory.md R79). -/
theorem busWrite_status {s t : State} {addr width : Nat} {v : Word}
    (hcmd : ¬ (width = 32 ∧ addr % 256 = 0)) (h : busWrite s addr width v = .next t) :
    t.status = s.status := by
  unfold busWrite at h
  split at h
  next hdef =>
    obtain ⟨hwidth, -⟩ : width = 32 ∧ offsetOf addr % 4 = 0 := of_decide_eq_true hdef
    cases hr : regAt (offsetOf addr) with
    | none =>
      rw [memWrite, hr] at h
      obtain rfl := Host.Outcome.next.inj h
      rfl
    | some r =>
      have hoff := regAt_eq_some_iff.1 hr
      rw [hoff, memWrite_offset] at h
      refine writeReg_status ?_ h
      rintro rfl
      exact hcmd ⟨hwidth, hoff⟩
  next =>
    obtain rfl := Host.Outcome.next.inj h
    rfl

/-- Settles O17: every word meets the table with the code it ends with and no other; a write at any other
register, an ignored write and a read leave `STATUS` alone. -/
theorem commandsEndWithTheTabledCode : Obligations.CommandsEndWithTheTabledCode := by
  refine ⟨fun s w => ?_, fun s t addr width v hcmd h => ?_, fun s t addr width h => ?_⟩
  · obtain ⟨t, ht, -⟩ := execute_nextKeepsCfg s w
    obtain ⟨code, hends, htable⟩ := execute_endsWith s w
    exact ⟨t, code, ht, (htable code).2 rfl, fun c => (htable c).1, (ht ▸ hends).status⟩
  · rw [takeEvent] at h
    split at h
    · exact busWrite_status hcmd h
    · cases h
  · cases takeEvent_effect h
    rfl

end Sys2Proof.Proofs
end
